-- ==== Sys2Proof/Word.lean ====
section
/-! DEFINITION. The word types of the block and their plainest facts (00_scope.md R11, R12).
All values are unsigned (R11). -/

namespace Sys2Proof

/-- One byte. -/
abbrev Byte := BitVec 8

/-- A 64-bit DMA address, and any other 64-bit quantity the block carries without looking inside (R60, R43). -/
abbrev Word := BitVec 64

/-- A byte sequence of known length, in ascending address order (R12). The length is part of the type, which is the
"compile-time size assertion" of R140. -/
abbrev Bytes (n : Nat) := { l : List Byte // l.length = n }

/-- The number of addresses of the DMA space (R60: 64-bit addresses, one byte each). -/
abbrev dmaSpace : Nat := 18446744073709551616

end Sys2Proof
end

