-- ==== Sys2Proof/Syntax.lean ====
section
/-! DEFINITION. The operations of the block and of the device, one constructor of `Instr` for each row of
spec/opcode_table.json, with the operands their rules give them (R117 and the rule each row cites).
A component that the rules call "a non-negative integer" (R211) or range-check themselves (R210) is a `Nat`. -/

namespace Sys2Proof

/-- The seven fields of the 64-bit instruction header (R94). -/
structure IhFields where
  tlen   : BitVec 16
  rsvd   : BitVec 20
  pkind  : BitVec 6
  fsz    : BitVec 6
  gsz    : BitVec 14
  gather : BitVec 1
  rsvd3  : BitVec 1
  deriving DecidableEq, Repr

/-- The five fields of the 16-byte transmit metadata (R102). -/
structure TxmFields where
  olFlags  : BitVec 16
  segSize  : BitVec 16
  segCount : BitVec 16
  mrsvd1   : BitVec 16
  mrsvd2   : Word
  deriving DecidableEq, Repr

/-- The four lengths and four addresses of a scatter-gather record (R110). -/
structure SgRecord where
  len0  : BitVec 16
  len1  : BitVec 16
  len2  : BitVec 16
  len3  : BitVec 16
  addr0 : Word
  addr1 : Word
  addr2 : Word
  addr3 : Word
  deriving DecidableEq, Repr

/-- The eight 64-bit words of an instruction descriptor (R92). -/
structure InstrWords where
  dptr   : Word
  ih     : Word
  txm0   : Word
  txm1   : Word
  exhdr0 : Word
  exhdr1 : Word
  exhdr2 : Word
  exhdr3 : Word
  deriving DecidableEq, Repr

/-- What the device reads from a descriptor once its form is known (R109): every field but the `gather` bit, which is the
form itself (R108). -/
structure TxDesc where
  dptr   : Word
  tlen   : BitVec 16
  rsvd   : BitVec 20
  pkind  : BitVec 6
  fsz    : BitVec 6
  gsz    : BitVec 14
  rsvd3  : BitVec 1
  txm    : TxmFields
  exhdr0 : Word
  exhdr1 : Word
  exhdr2 : Word
  exhdr3 : Word
  deriving DecidableEq, Repr

/-- A fragment of a packet: an opaque buffer reference and a byte length (R211). DESIGN CHOICE (entry 30): no rule gives the
reference a width; it is held in 64 bits. -/
structure Frag where
  buf : Word
  len : Nat
  deriving DecidableEq, Repr

/-- The offload request of a packet (R211). -/
structure Offload where
  flags    : Nat
  segSize  : Nat
  segCount : Nat
  deriving DecidableEq, Repr

/-- The two transmit buffer types of `PB_RECORD` (R166, R41). -/
inductive BufType where
  | single
  | gather
  deriving DecidableEq, Repr

/-- The outcome of the one-time allocation and mapping of the two regions (R210, R82). -/
inductive Region where
  | ok (ringBase sgBase : Word)
  | fail
  deriving DecidableEq, Repr

/-- The operands of `CREATE_QUEUE` (R210). -/
structure CreateArgs where
  capacity       : Nat
  maxFragments   : Nat
  fillThreshold  : Nat
  pkind          : Nat
  fsz            : Nat
  region         : Region
  db             : Word
  ic             : Word
  il             : Word
  announceOnFull : Bool
  deriving DecidableEq, Repr

/-- The operands of `PB_RECORD` after the slot (R166). `sg` is the optional address of the slot's record group. -/
structure RecordArgs where
  handle : Word
  dma    : Word
  sg     : Option Word
  type   : BufType
  len    : BitVec 16
  nent   : BitVec 14
  deriving DecidableEq, Repr

/-- The operations, one constructor for each row of spec/opcode_table.json. -/
inductive Instr where
  | createQueue (a : CreateArgs)
  | transmit (handle : Word) (frags : List Frag) (ol : Offload) (last : Bool)
  | reclaim
  | announce
  | stats
  | destroyQueue
  | encIh (f : IhFields)
  | decIh (ih : Word)
  | encTxm (m : TxmFields)
  | decTxm (txm0 txm1 : Word)
  | encSg (r : SgRecord)
  | decSg (b : Bytes 40)
  | encInstr (w : InstrWords)
  | decInstr (b : Bytes 64)
  | sgAcquire (slot : Nat)
  | sgFill (slot : Nat) (entries : List (Word × BitVec 16))
  | pbRecord (slot : Nat) (a : RecordArgs)
  | pbRelease (slot : Nat)
  | ringPost (desc : Bytes 64)
  | ringAnnounce (force : Bool)
  | ringReclaim
  | devDoorbell (count : BitVec 32)
  | devConsume
  | txiSingle (d : TxDesc)
  | txiGather (d : TxDesc)
  deriving DecidableEq, Repr

/-- The two formats of the opcode table (R117): an 8-bit operation identifier with its operands, or a 64-byte descriptor
whose form is told by its header word. -/
inductive Format where
  | op8
  | ih64
  deriving DecidableEq, Repr

/-- Why a command word or a descriptor is not an instruction: the names under which `Decode` rejects. -/
inductive DecodeError where
  /-- the operation identifier is not in the table of R117 -/
  | unassignedOp (op : Byte)
  /-- the bytes end before the operands do -/
  | truncated
  /-- an operand does not fit the width its rule gives it, or is no value of its type (R141) -/
  | operandRange
  deriving DecidableEq, Repr

end Sys2Proof
end

