-- ==== Sys2Proof/Config.lean ====
section
/-! DEFINITION. What an implementation fixes and the values the spec leaves free.
The parameters of one queue (R9) that `CREATE_QUEUE` takes stand in `State.cfg`, and `OFFLOAD_VALID` in `State.params`.
The opaque constants have no value that Lean can evaluate, so whatever is proved holds for every value of them. -/

namespace Sys2Proof.Config

/-- What the DMA memory holds at an address that nothing has written (R52, R297: "whatever the memory held").
DESIGN CHOICE, safe: a free value for each address (entry 3). -/
opaque freeByte : Nat → Byte

/-- The answer of the mapping collaborator to a `DmaMap` that the state's list of fixed answers no longer covers, by the
number of the queue and the number of the draw: an address, or `none` for `Fail` (R80: "any 64-bit value, or `Fail`").
DESIGN CHOICE, safe: a free value for each draw of each queue (entry 4). -/
opaque mapDraw : Nat → Nat → Option Word

/-- The predicates `OFFLOAD_VALID` that the other rules of `OffloadRule` do not express, by a number that tells them apart
(R9 `OPEN`, R213, U14). DESIGN CHOICE, safe: a free value (entry 9). -/
opaque offloadPredicate : Nat → Offload → Bool

/-- The default of `NQ`, the number of independent queue instances (R9). -/
def nqDefault : Nat := 1

end Sys2Proof.Config
end

