-- ==== Sys2Proof/Machine/State.lean ====
section
/-! DEFINITION. The state of one queue instance and of the agents around it, as plain data (10_state.md R20 to R53,
45_device_agent.md R240), the results and events the operations produce (30_encoding.md R118, R119; 00_scope.md R16), the
reasons a step can stop, and the machine right after power-on reset. -/

namespace Sys2Proof.Machine

/-- A combination of offload flags: `value` under `mask`. -/
structure FlagPattern where
  mask  : Nat
  value : Nat
  deriving DecidableEq, Repr

/-- The parameter `OFFLOAD_VALID` (R9, R213, U14) as plain data. Whichever is taken, a request whose components pass the
widths of the metadata fields is invalid as well, since R115 has `TRANSMIT` check them (entry 9). -/
inductive OffloadRule where
  /-- the default of R213 -/
  | specDefault
  /-- invalid are the requests whose flags show one of these combinations -/
  | forbidding (combinations : List FlagPattern)
  /-- predicate `k` of the implementation, a free value -/
  | other (k : Nat)
  deriving DecidableEq, Repr

/-- The arguments of the machine that no operation sets (R9): fixed, no step changes them. -/
structure Params where
  /-- `OFFLOAD_VALID` -/
  offloadRule : OffloadRule
  /-- which of the `NQ` queues this is, from 0; it keeps the free mapping answers of different queues apart (entry 22) -/
  queueNo : Nat
  deriving DecidableEq, Repr

/-- The configuration registers `CFG` (R21, R9). `DB`, `IC`, `IL` are opaque handles, held in 64 bits (entry 11). -/
structure Cfg where
  n              : Nat
  maxf           : Nat
  sgpp           : Nat
  fillThreshold  : Nat
  pkind          : BitVec 6
  fsz            : BitVec 6
  ringBase       : Word
  sgBase         : Word
  db             : Word
  ic             : Word
  il             : Word
  announceOnFull : Bool
  deriving DecidableEq, Repr

/-- The working registers of the queue (R22). The three indices are slot numbers `0..N-1` (R23 to R25; entry 1). -/
structure Queue where
  valid           : Bool
  writeIndex      : Nat
  deviceReadIndex : Nat
  flushIndex      : Nat
  fillCount       : BitVec 32
  lastCount       : BitVec 32
  deriving DecidableEq, Repr

/-- The seven statistics counters (R37), 64 bits each, wrapping modulo 2^64 (R38). -/
structure Counters where
  posted    : BitVec 64
  completed : BitVec 64
  dropped   : BitVec 64
  bytes     : BitVec 64
  sgEntries : BitVec 64
  busy      : BitVec 64
  restart   : BitVec 64
  deriving DecidableEq, Repr

/-- The `tag`, `sg_present` and `sg_dma` of a live pending-buffer entry in one: `sg_present` is 1 exactly when the tag is
`GATHER`, and only then has `sg_dma` a value (R44, R166). -/
inductive PbKind where
  | single
  | gather (sgDma : Word)
  deriving DecidableEq, Repr

/-- A live entry of the pending-buffer table (R40). -/
structure PbEntry where
  kind   : PbKind
  handle : Word
  dma    : Word
  len    : BitVec 16
  nent   : BitVec 14
  deriving DecidableEq, Repr

/-- The value of `PB[s].tag` (R41). -/
inductive Tag where
  | none
  | single
  | gather
  deriving DecidableEq, Repr

/-- The device: its registers `DB`, `IC`, `IL` (R33 to R36), its own variables `DEV.avail` and `DEV.fetch_index` (R240),
and the model's bit that says whether the last `CREATE_QUEUE` found it idle at slot 0 (R296, U17; entry 14). -/
structure Device where
  avail      : Nat
  fetchIndex : Nat
  ic         : BitVec 32
  db         : BitVec 32
  il         : BitVec 32
  synced     : Bool
  deriving DecidableEq, Repr

/-- The DMA memory: the bytes written so far, by rising address. An unlisted address holds no value of the list's; what
it reads as is `readByte` in Machine/Ops.lean (entry 3). -/
abbrev Memory := List Host.Cell

/-- The pending-buffer table: its live entries, by rising slot. An unlisted slot is free (`tag = NONE`), and the other
fields of a free entry hold no value (R42; entry 20). -/
abbrev PbTable := List (Nat × PbEntry)

/-- The ring state of R180. -/
inductive RingState where
  | empty
  | active
  | full
  deriving DecidableEq, Repr

/-- The reasons of `Error(Precondition)` (R119). -/
inductive Reason where
  | tooManyFragments
  | invalidOffload
  | lengthOverflow
  | noHead
  | badCapacity
  | badMaxFragments
  | badThreshold
  | badBase
  | badTag
  deriving DecidableEq, Repr

/-- What an operation returns (R15, R118, and the `return` line of each operation's rule). The five errors of R255 are
results too: "errors are returned as typed results". -/
inductive Result where
  /-- `Ok` without values: `CREATE_QUEUE`, `DESTROY_QUEUE`, `PB_RECORD` -/
  | done
  /-- `Accepted(slots_used, stop)` of `TRANSMIT` -/
  | accepted (slotsUsed : Nat) (stop : Bool)
  /-- `Ok(completed_count, now_space_available)` of `RECLAIM` and `RING_RECLAIM` -/
  | reclaimed (completedCount : Nat) (nowSpaceAvailable : Bool)
  /-- `Ok(announced)` of `ANNOUNCE` and `RING_ANNOUNCE`. DESIGN CHOICE (entry 28): the table of R118 gives the `Ok` of
  `ANNOUNCE` no value, R226 gives it the count; R226 is followed. -/
  | announced (count : BitVec 32)
  /-- `Ok(counters)` of `STATS` -/
  | stats (c : Counters)
  /-- `QueueFull` -/
  | queueFull
  /-- `Error(Precondition, reason)` -/
  | precondition (reason : Reason)
  /-- `Error(Mapping, i)` of `TRANSMIT`, `Error(Mapping)` of `CREATE_QUEUE` -/
  | mapping (fragment : Option Nat)
  /-- `PbAlreadyInFlight(s)` -/
  | pbAlreadyInFlight (slot : Nat)
  /-- `PbNotInFlight(s)` -/
  | pbNotInFlight (slot : Nat)
  /-- `ENC_IH` -/
  | header (ih : Word)
  /-- `DEC_IH` -/
  | headerFields (f : IhFields)
  /-- `ENC_TXM` -/
  | metadata (txm0 txm1 : Word)
  /-- `DEC_TXM` -/
  | metadataFields (m : TxmFields)
  /-- `ENC_SG` -/
  | sgBytes (b : Bytes 40)
  /-- `DEC_SG` -/
  | sgFields (r : SgRecord)
  /-- `ENC_INSTR` -/
  | instrBytes (b : Bytes 64)
  /-- `DEC_INSTR` -/
  | instrFields (w : InstrWords)
  /-- `SG_ACQUIRE`: the group's base address and its number of records -/
  | group (base : Word) (count : Nat)
  /-- `SG_FILL`: gather-entry count, records written, data pointer -/
  | filled (gsz used : Nat) (dptr : Word)
  /-- `PB_RELEASE` -/
  | released (handle : Word) (len : BitVec 16) (nent : BitVec 14)
  /-- `Ok(s, became_full)` of `RING_POST` -/
  | posted (slot : Nat) (becameFull : Bool)
  deriving DecidableEq, Repr

/-- The events of R16. -/
inductive Event where
  /-- a request to the mapping collaborator with its answer, `none` for `Fail` -/
  | dmaMap (buf : Word) (len : Nat) (answer : Option Word)
  | dmaUnmap (addr : Word) (len : Nat)
  | handleReturn (handle : Word)
  | doorbellWrite (count : BitVec 32)
  | stop
  | restart
  /-- the device agent's event for each descriptor it consumes (R243) -/
  | txPacket (slot : Nat) (bufs : List (Word × BitVec 16)) (tlen : BitVec 16) (pkind fsz : BitVec 6) (txm : TxmFields)
  deriving DecidableEq, Repr

/-- Who moves next: an input of the step (R51 "the schedule that interleaves device steps with host commands"; entry 6). -/
inductive Turn where
  /-- the next command of the port is taken -/
  | port
  /-- the device fetches and consumes a descriptor (R243, R245) -/
  | device
  /-- the excluded collaborators bring the device to the idle state of R296, leaving `IC` at any value (entry 15) -/
  | deviceReset (ic : BitVec 32)
  deriving DecidableEq, Repr

/-- The state of one queue instance (R20), of its device, and the inputs and outputs of the step (R51). -/
structure State where
  /-- arguments of the machine (R9) -/
  params : Params
  /-- configuration registers (R21) -/
  cfg : Cfg
  /-- working registers (R22) -/
  q : Queue
  /-- statistics counters (R37) -/
  ctr : Counters
  /-- pending-buffer table (R40) -/
  pb : PbTable
  /-- DMA memory: descriptor ring and scatter-gather area (R47, R48) -/
  mem : Memory
  /-- the device (R33, R240) -/
  dev : Device
  /-- input: the bytes of the commands not yet taken (R51; entry 5) -/
  port : List Byte
  /-- input: the turns already scheduled; with none left the port is served (entry 6) -/
  turns : List Turn
  /-- input: the answers of the mapping collaborator already fixed (R80; entry 4) -/
  mapAnswers : List (Option Word)
  /-- how many answers were drawn beyond the fixed ones (entry 4) -/
  mapDraws : Nat
  /-- output: the result of the last operation of the block (R15; entry 8) -/
  result : Option Result
  /-- output: the event trace, oldest event first (R16; entry 8) -/
  trace : List Event
  deriving DecidableEq, Repr

/-- Why the machine stops with a fault. -/
inductive Fault where
  /-- An access whose bytes pass the end of the 64-bit DMA space (R60), raised by `memWrite` and `memRead` in
  Machine/Ops.lean. Safe: the spec says that address arithmetic never wraps (R63), and on a queue that `CREATE_QUEUE`
  accepted no operation of the block computes such an address; only a descriptor or a pending entry that the block never
  writes leads here (entry 18). -/
  | outsideDmaSpace
  deriving DecidableEq, Repr

/-- Why a step has no next state: the spec gives the call no meaning (R15 `refuse`). All are safe: the model stops and
proves nothing about what follows. -/
inductive Refusal where
  /-- The instruction has no meaning in this model yet. Raised by `exec`'s own arms only. Safe. -/
  | notModelled (mnemonic : String)
  /-- The bytes in the port are no command: an unassigned `op` (R280) or an operand outside its type (R141). Raised by
  `fetch`. Safe. -/
  | badCommand (e : DecodeError)
  /-- A command or operation that needs a live queue, while `Q.valid = 0` (R216, U8). Raised by every operation whose
  `require` line asks for it. Safe. -/
  | queueNotValid
  /-- `CREATE_QUEUE` while `Q.valid = 1` (R216, U8). Safe. -/
  | queueAlreadyValid
  /-- A slot operand outside `0..N-1`, against the `require` line of `SG_ACQUIRE`, `SG_FILL`, `PB_RECORD` or `PB_RELEASE`
  (R280). Safe. -/
  | slotOutOfRange
  /-- `SG_FILL` of a slot in flight, against its `require` line (R152, R280). Safe. -/
  | slotInFlight
  /-- `SG_FILL` of no entry or of more than `4 * SGPP`, against its `require` line (R152, R280). Safe. -/
  | entryCount
  /-- `PB_RECORD` operands that do not agree with each other, against its `require` line (R166, R280). Safe. -/
  | recordOperands
  /-- A release or a record inside `TRANSMIT`, `RING_RECLAIM`, `RECLAIM` or `DESTROY_QUEUE` fails, which the spec says
  cannot happen (R175) and gives no outcome for; only direct use of the table or the ring leads here. Safe (entry 16). -/
  | pendingTableMismatch
  /-- A device step while no announced descriptor is left: not enabled (R243, R244 item 3). Safe. -/
  | deviceNotEnabled
  /-- A device step on no live queue, or on a queue created while the device was not idle at slot 0 (U17, R296, R305).
  Safe (entry 14). -/
  | deviceOutOfContract
  /-- A descriptor of R114, to which the device step gives no defined meaning (R243, U3). Safe (entry 17). -/
  | undefinedDescriptor
  deriving DecidableEq, Repr

/-- Right after power-on (R52, R290): `Q.valid = 0`. The spec leaves every other value unspecified and says that no rule
reads it before `CREATE_QUEUE` has written it; the values named here are the model's (DESIGN CHOICE, entry 2). No input is
pending and nothing has been output. -/
def State.reset : State :=
  { params := { offloadRule := .specDefault, queueNo := 0 }
    cfg := { n := 0, maxf := 0, sgpp := 0, fillThreshold := 0, pkind := 0, fsz := 0, ringBase := 0, sgBase := 0
             db := 0, ic := 0, il := 0, announceOnFull := false }
    q := { valid := false, writeIndex := 0, deviceReadIndex := 0, flushIndex := 0, fillCount := 0, lastCount := 0 }
    ctr := { posted := 0, completed := 0, dropped := 0, bytes := 0, sgEntries := 0, busy := 0, restart := 0 }
    pb := []
    mem := []
    dev := { avail := 0, fetchIndex := 0, ic := 0, db := 0, il := 0, synced := false }
    port := []
    turns := []
    mapAnswers := []
    mapDraws := 0
    result := none
    trace := [] }

/-! ### Updates of one field: what the operations write goes through these -/

namespace State

def withCfg (s : State) (c : Cfg) : State := { s with cfg := c }
def withQ (s : State) (q : Queue) : State := { s with q := q }
def withCtr (s : State) (c : Counters) : State := { s with ctr := c }
def withPb (s : State) (p : PbTable) : State := { s with pb := p }
def withMem (s : State) (m : Memory) : State := { s with mem := m }
def withDev (s : State) (d : Device) : State := { s with dev := d }
def withPort (s : State) (bs : List Byte) : State := { s with port := bs }
def withTurns (s : State) (ts : List Turn) : State := { s with turns := ts }
def withResult (s : State) (r : Result) : State := { s with result := some r }
/-- Append an event to the trace (R16). -/
def emit (s : State) (e : Event) : State := { s with trace := s.trace ++ [e] }
/-- Append events to the trace in order (R16). -/
def emitAll (s : State) (es : List Event) : State := { s with trace := s.trace ++ es }

end State

end Sys2Proof.Machine
end

