-- ==== Sys2Proof/Machine/Flags.lean ====
section
/-! DEFINITION. The block has no stored flags (R31). Its condition state is computed from the working registers: the
number of slots in flight, the ring state, the stop level (R17, R31, R32, R180), with the index arithmetic of R203 they
are computed by. -/

namespace Sys2Proof.Machine

/-! ### Index arithmetic (R203) -/

/-- `(i + 1) & MASK`, which is `(i + 1) mod N` because `N` is a power of two (R203 item 1). -/
def idxInc (n i : Nat) : Nat := (i + 1) % n

/-- `(a - b) mod N`: the number of slots from `b` forward to `a` (R203 item 2). -/
def idxDiff (n a b : Nat) : Nat := (a + (n - b % n)) % n

/-- `(i + adv) & MASK` (R203 item 3). -/
def idxAdd (n i adv : Nat) : Nat := (i + adv) % n

/-- `N` is a power of two (R9). -/
def isPow2 (n : Nat) : Bool := n != 0 && (n &&& (n - 1)) == 0

/-- `IDXW = log2(N)` (R9). -/
def idxw (c : Cfg) : Nat := c.n.log2

/-- `MASK = N - 1` (R9). -/
def mask (c : Cfg) : Nat := c.n - 1

/-! ### Ring state and stop level -/

/-- `inflight(Q)`: the number of slots posted and not yet reclaimed (R17). -/
def inflight (s : State) : Nat := idxDiff s.cfg.n s.q.writeIndex s.q.flushIndex

/-- The ring is full: no further post is admissible (R180). -/
def isFull (s : State) : Bool := inflight s == s.cfg.n - 1

/-- `ring_state(Q)` (R17, R31, R180). -/
def ringState (s : State) : RingState :=
  if inflight s = 0 then .empty else if isFull s then .full else .active

/-- The level `STOP` (R32). -/
def stopLevel (s : State) : Bool := s.q.valid && ringState s == .full

/-- The number of further packets the ring admits (R220: "`N - 1 - inflight`"). -/
def headroom (s : State) : Nat := s.cfg.n - 1 - inflight s

end Sys2Proof.Machine
end

