-- ==== Sys2Proof/Machine/Layout.lean ====
section
/-! DEFINITION. The binary layouts of 30_encoding.md and the eight codec functions of 40_codec.md: byte order (R12, R64),
instruction header (R95), transmit metadata (R102), scatter-gather record (R110, R111), descriptor (R92). Every bit
position stands in one place here, so that a decision of the spec (D1, D2, D3) can be flipped in one definition. -/

namespace Sys2Proof.Machine

/-! ### Bytes -/

/-- `LE_n(v)`: `n` bytes, the least significant first (R12). -/
def leBytes : Nat → Nat → List Byte
  | 0, _ => []
  | n + 1, v => BitVec.ofNat 8 v :: leBytes n (v / 256)

/-- `FromLE(bytes)`: the inverse of `LE_n` (R12). -/
def fromLE : List Byte → Nat
  | [] => 0
  | b :: bs => b.toNat + 256 * fromLE bs

/-- The `n` bytes from offset `o`. -/
def slice (bs : List Byte) (o n : Nat) : List Byte := (bs.drop o).take n

theorem leBytes_length (n v : Nat) : (leBytes n v).length = n := by
  induction n generalizing v with
  | zero => rfl
  | succ n ih => simp [leBytes, ih]

/-- `LE_8` of a 64-bit word. -/
def le8 (w : Word) : List Byte := leBytes 8 w.toNat

/-- The 64-bit word in the eight bytes from offset `o`. -/
def word64 (bs : List Byte) (o : Nat) : Word := BitVec.ofNat 64 (fromLE (slice bs o 8))

theorem le8_length (w : Word) : (le8 w).length = 8 := leBytes_length 8 _

/-! ### Instruction header (R94 to R100) -/

/-- The bit at which each header field begins. -/
structure IhPositions where
  tlen   : Nat
  rsvd   : Nat
  pkind  : Nat
  fsz    : Nat
  gsz    : Nat
  gather : Nat
  rsvd3  : Nat
  deriving DecidableEq, Repr

/-- The header's bit order (R95): the first-listed field at the least significant end (decision D1 of the spec). -/
def ihLo : IhPositions :=
  { tlen := 0, rsvd := 16, pkind := 36, fsz := 42, gsz := 48, gather := 62, rsvd3 := 63 }

/-- `ENC_IH` (R131). -/
def encIh (f : IhFields) : Word :=
  f.tlen.setWidth 64 <<< ihLo.tlen ||| f.rsvd.setWidth 64 <<< ihLo.rsvd ||| f.pkind.setWidth 64 <<< ihLo.pkind |||
    f.fsz.setWidth 64 <<< ihLo.fsz ||| f.gsz.setWidth 64 <<< ihLo.gsz ||| f.gather.setWidth 64 <<< ihLo.gather |||
    f.rsvd3.setWidth 64 <<< ihLo.rsvd3

/-- `DEC_IH` (R132). -/
def decIh (ih : Word) : IhFields :=
  { tlen := ih.extractLsb' ihLo.tlen 16
    rsvd := ih.extractLsb' ihLo.rsvd 20
    pkind := ih.extractLsb' ihLo.pkind 6
    fsz := ih.extractLsb' ihLo.fsz 6
    gsz := ih.extractLsb' ihLo.gsz 14
    gather := ih.extractLsb' ihLo.gather 1
    rsvd3 := ih.extractLsb' ihLo.rsvd3 1 }

/-! ### Transmit metadata (R101 to R105) -/

/-- `ENC_TXM` (R133): the two words at descriptor offsets 16 and 24. -/
def encTxm (m : TxmFields) : Word × Word :=
  (m.olFlags.setWidth 64 ||| m.segSize.setWidth 64 <<< 16 ||| m.segCount.setWidth 64 <<< 32 |||
    m.mrsvd1.setWidth 64 <<< 48, m.mrsvd2)

/-- `DEC_TXM` (R134). -/
def decTxm (txm0 txm1 : Word) : TxmFields :=
  { olFlags := txm0.extractLsb' 0 16
    segSize := txm0.extractLsb' 16 16
    segCount := txm0.extractLsb' 32 16
    mrsvd1 := txm0.extractLsb' 48 16
    mrsvd2 := txm1 }

/-! ### Scatter-gather record (R110 to R113) -/

/-- The four lengths in the record's first word (R111): length `j` at bits `16 j`. -/
def sgLenWord (r : SgRecord) : Word :=
  r.len0.setWidth 64 ||| r.len1.setWidth 64 <<< 16 ||| r.len2.setWidth 64 <<< 32 ||| r.len3.setWidth 64 <<< 48

/-- `ENC_SG` (R135). -/
def encSg (r : SgRecord) : Bytes 40 :=
  ⟨le8 (sgLenWord r) ++ le8 r.addr0 ++ le8 r.addr1 ++ le8 r.addr2 ++ le8 r.addr3, by simp [le8_length]⟩

/-- Length `j` of a record's bytes: two bytes at offset `2 j` (R110). -/
def sgLenAt (b : List Byte) (j : Nat) : BitVec 16 := BitVec.ofNat 16 (fromLE (slice b (2 * j) 2))

/-- Address `j` of a record's bytes: eight bytes at offset `8 + 8 j` (R110). -/
def sgAddrAt (b : List Byte) (j : Nat) : Word := word64 b (8 + 8 * j)

/-- `DEC_SG` (R136). -/
def decSg (b : Bytes 40) : SgRecord :=
  { len0 := sgLenAt b.val 0, len1 := sgLenAt b.val 1, len2 := sgLenAt b.val 2, len3 := sgLenAt b.val 3
    addr0 := sgAddrAt b.val 0, addr1 := sgAddrAt b.val 1, addr2 := sgAddrAt b.val 2, addr3 := sgAddrAt b.val 3 }

/-- Position `j` of a record, the pair of address `j` and length `j` (R111, decision D3 of the spec). -/
def sgPosition (r : SgRecord) (j : Nat) : Word × BitVec 16 :=
  match j with
  | 0 => (r.addr0, r.len0)
  | 1 => (r.addr1, r.len1)
  | 2 => (r.addr2, r.len2)
  | _ => (r.addr3, r.len3)

/-- The record whose four positions are the given pairs. -/
def sgRecordOf (p0 p1 p2 p3 : Word × BitVec 16) : SgRecord :=
  { len0 := p0.2, len1 := p1.2, len2 := p2.2, len3 := p3.2, addr0 := p0.1, addr1 := p1.1, addr2 := p2.1, addr3 := p3.1 }

/-- `nrec(e) = ceil_div(e, 4)`: the records that hold `e` gather entries (R17, R113, R203 item 7). -/
def nrec (e : Nat) : Nat := (e + 3) / 4

/-! ### The 64-byte descriptor (R91 to R93, R107) -/

/-- `ENC_INSTR` (R137). -/
def encInstr (w : InstrWords) : Bytes 64 :=
  ⟨le8 w.dptr ++ le8 w.ih ++ le8 w.txm0 ++ le8 w.txm1 ++ le8 w.exhdr0 ++ le8 w.exhdr1 ++ le8 w.exhdr2 ++ le8 w.exhdr3,
    by simp [le8_length]⟩

/-- `DEC_INSTR` (R138). -/
def decInstr (b : Bytes 64) : InstrWords :=
  { dptr := word64 b.val 0, ih := word64 b.val 8, txm0 := word64 b.val 16, txm1 := word64 b.val 24
    exhdr0 := word64 b.val 32, exhdr1 := word64 b.val 40, exhdr2 := word64 b.val 48, exhdr3 := word64 b.val 56 }

/-! ### Descriptor forms (R108, R109) -/

/-- The mask over the header word that selects the form (R108). -/
def formMask : Word := 0x4000000000000000

/-- The form a header word selects (R108): `true` for `TXI.GATHER`, `false` for `TXI.SINGLE`. -/
def isGatherForm (ih : Word) : Bool := ih &&& formMask != 0

/-- The descriptor's fields as the device assembles them (R109). -/
def txDescOf (w : InstrWords) : TxDesc :=
  let h := decIh w.ih
  { dptr := w.dptr, tlen := h.tlen, rsvd := h.rsvd, pkind := h.pkind, fsz := h.fsz, gsz := h.gsz, rsvd3 := h.rsvd3
    txm := decTxm w.txm0 w.txm1
    exhdr0 := w.exhdr0, exhdr1 := w.exhdr1, exhdr2 := w.exhdr2, exhdr3 := w.exhdr3 }

/-- The eight words of a descriptor of the given form (R92). -/
def wordsOfTxDesc (gather : BitVec 1) (d : TxDesc) : InstrWords :=
  { dptr := d.dptr
    ih := encIh { tlen := d.tlen, rsvd := d.rsvd, pkind := d.pkind, fsz := d.fsz, gsz := d.gsz, gather := gather,
                  rsvd3 := d.rsvd3 }
    txm0 := (encTxm d.txm).1
    txm1 := (encTxm d.txm).2
    exhdr0 := d.exhdr0, exhdr1 := d.exhdr1, exhdr2 := d.exhdr2, exhdr3 := d.exhdr3 }

/-! ### Offload flag bits (R103) -/

/-- The seven offload flags. -/
inductive OlFlag where
  | vlan
  | ip4Csum
  | udpCsum
  | tcpCsum
  | sctpCsum
  | tcpSeg
  | udpSeg
  deriving DecidableEq, Repr

/-- The bit of `ol_flags` that each flag occupies (R103). -/
def olBit : OlFlag → Nat
  | .vlan => 0
  | .ip4Csum => 1
  | .udpCsum => 2
  | .tcpCsum => 3
  | .sctpCsum => 4
  | .tcpSeg => 5
  | .udpSeg => 6

/-- Whether a flag is set in an offload bitmask. -/
def olSet (flags : BitVec 16) (f : OlFlag) : Bool := flags.getLsbD (olBit f)

/-- The front-data size in bytes: the field counts units of 8 bytes (R99, R109). -/
def frontDataBytes (fsz : BitVec 6) : Nat := 8 * fsz.toNat

end Sys2Proof.Machine
end

