-- ==== Sys2Proof/Machine/Ops.lean ====
section
/-! DEFINITION. The named operations over tables, memory and device registers (R13, R14), the outcome of an operation of
the block and how an error is raised and returned (R15, R263, R264), the calls out of the block (R80, R81, R275). -/

namespace Sys2Proof.Machine

/-! ### Tables held as lists by strictly rising key -/

/-- The value at a key, if it is listed. -/
def sparseGet {α : Type} (k : Nat) : List (Nat × α) → Option α
  | [] => none
  | (k', v) :: l => if k = k' then some v else sparseGet k l

/-- List a value at a key, in its place. -/
def sparsePut {α : Type} (k : Nat) (v : α) : List (Nat × α) → List (Nat × α)
  | [] => [(k, v)]
  | (k', v') :: l =>
    if k < k' then (k, v) :: (k', v') :: l
    else if k = k' then (k, v) :: l
    else (k', v') :: sparsePut k v l

/-- Take a key out of the list. -/
def sparseDel {α : Type} (k : Nat) : List (Nat × α) → List (Nat × α)
  | [] => []
  | (k', v') :: l => if k = k' then l else (k', v') :: sparseDel k l

/-- The canonical form: keys strictly rising, so that equal tables are equal lists. -/
abbrev sparseWf {α : Type} (l : List (Nat × α)) : Prop := (l.map Prod.fst).Pairwise (· < ·)

/-! ### DMA memory -/

/-- The canonical form of the memory: addresses strictly rising and inside the DMA space (R60). -/
abbrev Memory.wf (m : Memory) : Prop := sparseWf m ∧ ∀ c ∈ m, c.1 < dmaSpace

/-- The canonical form of the pending-buffer table. -/
abbrev PbTable.wf (p : PbTable) : Prop := sparseWf p

/-- One byte of the DMA space: the last value written there (R70), or, where nothing was written, a free value (R52,
R297; entry 3). -/
def readByte (m : Memory) (a : Nat) : Byte := (sparseGet a m).getD (Config.freeByte a)

/-- The `n` bytes from address `a`, ascending. -/
def readBytes (m : Memory) (a : Nat) : Nat → List Byte
  | 0 => []
  | n + 1 => readByte m a :: readBytes m (a + 1) n

theorem readBytes_length (m : Memory) (a n : Nat) : (readBytes m a n).length = n := by
  induction n generalizing a with
  | zero => rfl
  | succ n ih => simp [readBytes, ih]

/-- Store bytes from address `a` on, ascending. The unit of access cannot be told apart (D39), so it is the byte. -/
def storeBytes (m : Memory) (a : Nat) : List Byte → Memory
  | [] => m
  | b :: bs => storeBytes (sparsePut a b m) (a + 1) bs

/-! ### Outcomes of an operation, and errors (R15) -/

/-- How an operation ends: with a value, by raising an error result (R15 `raise`: the state changes made before stand),
by a fault, or refused (R15 `refuse`: no next state). -/
inductive Res (α : Type) where
  | ok (a : α) (s : State)
  | raise (r : Result) (s : State)
  | fault (f : Fault)
  | refuse (r : Refusal)

/-- Run an operation and go on with its value. -/
def Res.bind {α β : Type} (x : Res α) (k : α → State → Res β) : Res β :=
  match x with
  | .ok a s => k a s
  | .raise r s => .raise r s
  | .fault f => .fault f
  | .refuse r => .refuse r

/-- A call of which the spec says that it cannot fail (R175; R215 "cannot be QueueFull", "cannot fail"): the spec gives
no outcome for a failure, so it is refused (entry 16). -/
def Res.cannotFail {α : Type} (x : Res α) : Res α :=
  match x with
  | .ok a s => .ok a s
  | .raise _ _ => .refuse .pendingTableMismatch
  | .fault f => .fault f
  | .refuse r => .refuse r

/-- Taking an exceptional condition (R255, R263): the operation ends at once with the typed error result. No state is
saved, no register tells the cause and no mode changes; what stands is what the operation did before. -/
def raiseError {α : Type} (r : Result) (s : State) : Res α := .raise r s

/-- Returning to the immediate caller (R15, R263, R264): the value's result or the error's result is what the caller
sees. There is no other return: after an error the block is ready for the next command at once. -/
def Res.finish {α : Type} (result : α → Result) (x : Res α) : Host.Outcome State Fault Refusal :=
  match x with
  | .ok a s => .next (s.withResult (result a))
  | .raise r s => .next (s.withResult r)
  | .fault f => .fault f
  | .refuse r => .refused r

/-- The end of a device step, which returns nothing to the host (R243 "Errors: none towards the block"; entry 8). -/
def Res.finishDevice (x : Res Unit) : Host.Outcome State Fault Refusal :=
  match x with
  | .ok _ s => .next s
  | .raise _ s => .next s
  | .fault f => .fault f
  | .refuse r => .refused r

/-- The `require Q.valid = 1` line (R216). -/
def requireValid {α : Type} (s : State) (x : Res α) : Res α := if s.q.valid then x else .refuse .queueNotValid

/-- The `require Q.valid = 1 and 0 <= s < N` line of the slot operations (R151, R152, R166, R170). -/
def requireSlot {α : Type} (slot : Nat) (s : State) (x : Res α) : Res α :=
  requireValid s (if slot < s.cfg.n then x else .refuse .slotOutOfRange)

/-! ### Memory and register primitives (R14) -/

/-- `MemWrite(a, n, bytes)` (R14). -/
def memWrite (a : Nat) (bs : List Byte) (s : State) : Res Unit :=
  if a + bs.length ≤ dmaSpace then .ok () (s.withMem (storeBytes s.mem a bs)) else .fault .outsideDmaSpace

/-- `MemRead(a, n)` (R14); a read changes nothing (R70). -/
def memRead (a n : Nat) (s : State) : Res (Bytes n) :=
  if a + n ≤ dmaSpace then .ok ⟨readBytes s.mem a n, readBytes_length s.mem a n⟩ s else .fault .outsideDmaSpace

/-- `RegRead(IC)`: one 32-bit read without side effect (R35, R70). The handle selects the queue's own register
(entry 11). -/
def regReadIC (s : State) : BitVec 32 := s.dev.ic

/-- What a write of `count` to `DB` does in the device (R242): the count is added, not stored. `db` keeps the value
written (entry 12). -/
def doorbell (count : BitVec 32) (d : Device) : Device := { d with avail := d.avail + count.toNat, db := count }

/-- `RegWrite(DB, count)`: the device reacts as part of the write (R34, R242). -/
def regWriteDB (count : BitVec 32) (s : State) : State := s.withDev (doorbell count s.dev)

/-! ### Address map (R62) -/

/-- `slot_addr(s) = RING_BASE + 64 * s`. -/
def slotAddr (c : Cfg) (slot : Nat) : Nat := c.ringBase.toNat + 64 * slot

/-- `sg_addr(s, r) = SG_BASE + 40 * (SGPP * s + r)`. -/
def sgAddr (c : Cfg) (slot r : Nat) : Nat := c.sgBase.toNat + 40 * (c.sgpp * slot + r)

/-- `sg_addr(s, 0)` as the 64-bit value that is written into descriptors and pending entries (R93, R44). -/
def groupAddr (c : Cfg) (slot : Nat) : Word := BitVec.ofNat 64 (sgAddr c slot 0)

/-! ### Calls out of the block (R80, R81, R275) -/

/-- `DmaMap(buf, len) -> answer`: the collaborator's next answer, fixed beforehand or a free value, one for each draw of each queue
(entries 4 and 22). -/
def dmaMap (buf : Word) (len : Nat) (s : State) : Option Word × State :=
  match s.mapAnswers with
  | a :: rest => (a, { s with mapAnswers := rest, trace := s.trace ++ [.dmaMap buf len a] })
  | [] =>
    let a := Config.mapDraw s.params.queueNo s.mapDraws
    (a, { s with mapDraws := s.mapDraws + 1, trace := s.trace ++ [.dmaMap buf len a] })

/-- `DmaUnmap` of a list of mappings, in order (R81). -/
def unmapEvents (ms : List (Word × Nat)) : List Event := ms.map fun m => .dmaUnmap m.1 m.2

/-! ### Pending-buffer table access (R40 to R44) -/

/-- `PB[s]`, if it is live. -/
def pbGet (s : State) (slot : Nat) : Option PbEntry := sparseGet slot s.pb

/-- The tag of a kind of entry (R41). -/
def PbKind.tag : PbKind → Tag
  | .single => .single
  | .gather _ => .gather

/-- `PB[s].tag` (R41). -/
def pbTag (s : State) (slot : Nat) : Tag :=
  match pbGet s slot with
  | none => .none
  | some e => e.kind.tag

/-- `PB[s].sg_present` (R44). -/
def PbEntry.sgPresent (e : PbEntry) : Bool := e.kind.tag == .gather

/-- `PB[s].sg_dma`, where it has a value (R44). -/
def PbEntry.sgDma (e : PbEntry) : Option Word :=
  match e.kind with
  | .single => none
  | .gather a => some a

end Sys2Proof.Machine
end

