-- ==== Sys2Proof/Machine/Operands.lean ====
section
/-! DEFINITION. How operands are checked, assembled and laid out before an operation acts: the checks of `CREATE_QUEUE`
(R210) and `TRANSMIT` (R212, R213), the metadata and header of a packet (R214, R215), the gather entries of a record
group (R112, R113), what the device assembles from a descriptor (R109) and which descriptors have no meaning (R114). -/

namespace Sys2Proof.Machine

/-! ### Checks of `CREATE_QUEUE` (R210, order R262) -/

/-- A ring or scatter-gather base is misaligned or its region would pass the end of the space (R63, R66). -/
def badBase (capacity sgpp : Nat) (ringBase sgBase : Word) : Bool :=
  ringBase.toNat % 64 != 0 || sgBase.toNat % 8 != 0 ||
    decide (ringBase.toNat + 64 * capacity > dmaSpace) || decide (sgBase.toNat + 40 * sgpp * capacity > dmaSpace)

/-- The error of a `CREATE_QUEUE`, if any, in the order of R262; otherwise the two bases. -/
def createCheck (a : CreateArgs) : Except Result (Word × Word) :=
  if !isPow2 a.capacity || decide (a.capacity < 2) || decide (a.capacity > 2147483648) then
    .error (.precondition .badCapacity)
  else if a.maxFragments < 1 || a.maxFragments > 16383 then .error (.precondition .badMaxFragments)
  else if a.fillThreshold < 1 || a.fillThreshold > a.capacity - 1 then .error (.precondition .badThreshold)
  else if a.pkind > 63 || a.fsz > 63 then .error (.precondition .badTag)
  else
    match a.region with
    | .fail => .error (.mapping none)
    | .ok ringBase sgBase =>
      if badBase a.capacity (nrec a.maxFragments) ringBase sgBase then .error (.precondition .badBase)
      else .ok (ringBase, sgBase)

/-- The configuration registers that a successful `CREATE_QUEUE` writes (R210). -/
def cfgOf (a : CreateArgs) (ringBase sgBase : Word) : Cfg :=
  { n := a.capacity, maxf := a.maxFragments, sgpp := nrec a.maxFragments, fillThreshold := a.fillThreshold
    pkind := BitVec.ofNat 6 a.pkind, fsz := BitVec.ofNat 6 a.fsz, ringBase := ringBase, sgBase := sgBase
    db := a.db, ic := a.ic, il := a.il, announceOnFull := a.announceOnFull }

/-! ### Checks of `TRANSMIT` (R211 to R213) -/

/-- The components fit the 16-bit fields they are encoded in (R102): `TRANSMIT` "checks the ranges before it encodes"
(R115), whichever predicate `OFFLOAD_VALID` is. -/
def offloadFits (ol : Offload) : Bool :=
  decide (ol.flags < 65536) && decide (ol.segSize ≤ 65535) && decide (ol.segCount ≤ 65535)

/-- `OFFLOAD_VALID(ol)` under the rule the machine is given (R213, R9; entry 9). DESIGN CHOICE (entry 9): only the default
excludes the reserved flag bits 15:7 (R104, U2); another rule may admit them, and `TRANSMIT` then writes them into a
descriptor that the device refuses (R114). -/
def offloadValid (rule : OffloadRule) (ol : Offload) : Bool :=
  offloadFits ol &&
    match rule with
    | .specDefault => (ol.flags / 128 == 0) && !(ol.flags.testBit 5 && ol.flags.testBit 6)
    | .forbidding combinations => combinations.all fun c => (ol.flags &&& c.mask) != c.value
    | .other k => Config.offloadPredicate k ol

/-- The packet's total byte length, summed without wrap-around (R211, R203 item 9). -/
def totalLen (frags : List Frag) : Nat := (frags.map Frag.len).sum

/-- The precondition checks of `TRANSMIT`, in order (R212): the first that fails decides the reason. -/
def txPrecondition (rule : OffloadRule) (c : Cfg) (frags : List Frag) (ol : Offload) : Option Reason :=
  if frags.length = 0 then some .noHead
  else if frags.length > c.maxf then some .tooManyFragments
  else if !offloadValid rule ol then some .invalidOffload
  else if frags.any (fun f => decide (f.len > 65535)) || decide (totalLen frags > 65535) then some .lengthOverflow
  else none

/-! ### The descriptor `TRANSMIT` builds (R214, R215 step 4) -/

/-- The metadata fields of a packet: segmentation fields are zero unless a segmentation flag is set (R105, R214). -/
def metadataOf (ol : Offload) : TxmFields :=
  let seg := ol.flags.testBit 5 || ol.flags.testBit 6
  { olFlags := BitVec.ofNat 16 ol.flags
    segSize := if seg then BitVec.ofNat 16 ol.segSize else 0
    segCount := if seg then BitVec.ofNat 16 ol.segCount else 0
    mrsvd1 := 0
    mrsvd2 := 0 }

/-- The header fields of a packet (R215 step 4): reserved fields zero, the queue's `PKIND` and `FSZ` (R96 to R100). -/
def headerOf (c : Cfg) (total : Nat) (gsz : BitVec 14) (gather : BitVec 1) : IhFields :=
  { tlen := BitVec.ofNat 16 total, rsvd := 0, pkind := c.pkind, fsz := c.fsz, gsz := gsz, gather := gather, rsvd3 := 0 }

/-- The 64 bytes of a packet's descriptor (R215 step 4, R107). -/
def descriptorOf (c : Cfg) (total : Nat) (ol : Offload) (gsz : BitVec 14) (gather : BitVec 1) (dptr : Word) : Bytes 64 :=
  let txm := encTxm (metadataOf ol)
  encInstr { dptr := dptr, ih := encIh (headerOf c total gsz gather), txm0 := txm.1, txm1 := txm.2
             exhdr0 := 0, exhdr1 := 0, exhdr2 := 0, exhdr3 := 0 }

/-- The gather entries of a packet: each fragment's mapped address with its length (R215 step 4). -/
def gatherEntriesOf (addrs : List Word) (frags : List Frag) : List (Word × BitVec 16) :=
  (addrs.zip frags).map fun p => (p.1, BitVec.ofNat 16 p.2.len)

/-! ### Gather entries in a record group (R112, R113, R152) -/

/-- Gather entry `i`, or zero length and zero address past the last one (R152, D5). -/
def entryAt (es : List (Word × BitVec 16)) (i : Nat) : Word × BitVec 16 := es.getD i (0, 0)

/-- Record `r` of a packet's group: entries `4 r` to `4 r + 3` (R112). -/
def sgRecordAt (es : List (Word × BitVec 16)) (r : Nat) : SgRecord :=
  sgRecordOf (entryAt es (4 * r)) (entryAt es (4 * r + 1)) (entryAt es (4 * r + 2)) (entryAt es (4 * r + 3))

/-- Gather entry `e` of the group at `base`, as it stands in memory: position `e mod 4` of record `e div 4` (R112). -/
def entryInMem (m : Memory) (base e : Nat) : Word × BitVec 16 :=
  sgPosition (decSg ⟨readBytes m (base + 40 * (e / 4)) 40, readBytes_length m _ 40⟩) (e % 4)

/-- The `count` gather entries of the group at `base`, head first (R170, R243): reads the `nrec(count)` records. -/
def readEntries (base count : Nat) (s : State) : Res (List (Word × BitVec 16)) :=
  if base + 40 * nrec count ≤ dmaSpace then .ok ((List.range count).map (entryInMem s.mem base)) s
  else .fault .outsideDmaSpace

/-! ### What the device assembles from a descriptor (R109, R114) -/

/-- The descriptor is one that R114 lists: the block never writes it and the device step has no defined meaning for it
(R243, U3). -/
def undefinedDesc (gather : Bool) (d : TxDesc) : Bool :=
  d.rsvd != 0 || d.rsvd3 != 0 ||
    (if gather then decide (d.gsz.toNat < 2) else d.gsz != 0) ||
    (d.txm.olFlags >>> 7 != 0) || d.txm.mrsvd1 != 0 || d.txm.mrsvd2 != 0 ||
    (!(olSet d.txm.olFlags .tcpSeg || olSet d.txm.olFlags .udpSeg) && (d.txm.segSize != 0 || d.txm.segCount != 0)) ||
    d.exhdr0 != 0 || d.exhdr1 != 0 || d.exhdr2 != 0 || d.exhdr3 != 0

/-- The buffers of a descriptor (R109): `(dptr, tlen)`, or the `gsz` entries of the records at `dptr`. -/
def descBuffers (gather : Bool) (d : TxDesc) (s : State) : Res (List (Word × BitVec 16)) :=
  if gather then readEntries d.dptr.toNat d.gsz.toNat s else .ok [(d.dptr, d.tlen)] s

/-! ### Result and reason codes (R118, R119), tag values (R41) -/

/-- The result code of R118; results of the internal operations other than the errors have none. -/
def resultCode : Result → Option Nat
  | .done => some 0
  | .accepted _ _ => some 0
  | .reclaimed _ _ => some 0
  | .announced _ => some 0
  | .stats _ => some 0
  | .queueFull => some 1
  | .precondition _ => some 2
  | .mapping _ => some 3
  | .pbAlreadyInFlight _ => some 4
  | .pbNotInFlight _ => some 5
  | .header _ => none
  | .headerFields _ => none
  | .metadata _ _ => none
  | .metadataFields _ => none
  | .sgBytes _ => none
  | .sgFields _ => none
  | .instrBytes _ => none
  | .instrFields _ => none
  | .group _ _ => none
  | .filled _ _ _ => none
  | .released _ _ _ => none
  | .posted _ _ => none

/-- The reason code of R119. -/
def reasonCode : Reason → Nat
  | .tooManyFragments => 1
  | .invalidOffload => 2
  | .lengthOverflow => 3
  | .noHead => 4
  | .badCapacity => 5
  | .badMaxFragments => 6
  | .badThreshold => 7
  | .badBase => 8
  | .badTag => 9

/-- The two-bit value of a tag (R41). -/
def tagCode : Tag → BitVec 2
  | .none => 0
  | .single => 1
  | .gather => 2

end Sys2Proof.Machine
end

