-- ==== Sys2Proof/Machine/Codec.lean ====
section
/-! DEFINITION. The eight codec operations (40_codec.md). Each is a pure function of its operands: it reads and writes no
state, touches no memory and no register and emits nothing (R130); only its result is returned. -/

namespace Sys2Proof.Machine

/-- Return a codec result: nothing but the result changes (R130). -/
def codecResult (r : Result) (s : State) : Host.Outcome State Fault Refusal := .next (s.withResult r)

/-- `ENC_IH` (R131). -/
def execEncIh (f : IhFields) (s : State) : Host.Outcome State Fault Refusal := codecResult (.header (encIh f)) s

/-- `DEC_IH` (R132). -/
def execDecIh (ih : Word) (s : State) : Host.Outcome State Fault Refusal := codecResult (.headerFields (decIh ih)) s

/-- `ENC_TXM` (R133). -/
def execEncTxm (m : TxmFields) (s : State) : Host.Outcome State Fault Refusal :=
  codecResult (.metadata (encTxm m).1 (encTxm m).2) s

/-- `DEC_TXM` (R134). -/
def execDecTxm (txm0 txm1 : Word) (s : State) : Host.Outcome State Fault Refusal :=
  codecResult (.metadataFields (decTxm txm0 txm1)) s

/-- `ENC_SG` (R135). -/
def execEncSg (r : SgRecord) (s : State) : Host.Outcome State Fault Refusal := codecResult (.sgBytes (encSg r)) s

/-- `DEC_SG` (R136). -/
def execDecSg (b : Bytes 40) (s : State) : Host.Outcome State Fault Refusal := codecResult (.sgFields (decSg b)) s

/-- `ENC_INSTR` (R137). -/
def execEncInstr (w : InstrWords) (s : State) : Host.Outcome State Fault Refusal :=
  codecResult (.instrBytes (encInstr w)) s

/-- `DEC_INSTR` (R138). -/
def execDecInstr (b : Bytes 64) (s : State) : Host.Outcome State Fault Refusal :=
  codecResult (.instrFields (decInstr b)) s

end Sys2Proof.Machine
end

