-- ==== Sys2Proof/Machine/Pool.lean ====
section
/-! DEFINITION. The scatter-gather buffer pool (41_sg_pool.md): `SG_ACQUIRE`, `SG_FILL`. -/

namespace Sys2Proof.Machine

/-- `SG_ACQUIRE(s)`: the slot's record group, which never changes (R150, R151). -/
def sgAcquire (slot : Nat) (s : State) : Res (Word × Nat) :=
  requireSlot slot s (.ok (groupAddr s.cfg slot, s.cfg.sgpp) s)

/-- Write `count` records of a group, from record `r` on, ascending (R152). -/
def writeRecords (base : Nat) (es : List (Word × BitVec 16)) : Nat → Nat → State → Res Unit
  | 0, _, s => .ok () s
  | count + 1, r, s =>
    (memWrite (base + 40 * r) (encSg (sgRecordAt es r)).val s).bind fun _ s' => writeRecords base es count (r + 1) s'

/-- `SG_FILL(s, entries)` (R152): gather-entry count, records written, data pointer. The count is returned as a number: with
the largest groups it can be 16384, one more than the 14-bit field of a header holds; `TRANSMIT` never asks for so many. -/
def sgFill (slot : Nat) (es : List (Word × BitVec 16)) (s : State) : Res (Nat × Nat × Word) :=
  requireSlot slot s <|
    if pbTag s slot != .none then .refuse .slotInFlight
    else if es.length < 1 || es.length > 4 * s.cfg.sgpp then .refuse .entryCount
    else
      (writeRecords (sgAddr s.cfg slot 0) es (nrec es.length) 0 s).bind fun _ s' =>
        .ok (es.length, nrec es.length, groupAddr s.cfg slot) s'

/-- The instruction `SG_ACQUIRE` (R151). -/
def execSgAcquire (slot : Nat) (s : State) : Host.Outcome State Fault Refusal :=
  (sgAcquire slot s).finish fun g => .group g.1 g.2

/-- The instruction `SG_FILL` (R152). -/
def execSgFill (slot : Nat) (es : List (Word × BitVec 16)) (s : State) : Host.Outcome State Fault Refusal :=
  (sgFill slot es s).finish fun r => .filled r.1 r.2.1 r.2.2

end Sys2Proof.Machine
end

