-- ==== Sys2Proof/Machine/Pending.lean ====
section
/-! DEFINITION. The pending-buffer table (42_pending.md): `PB_RECORD`, `PB_RELEASE`. -/

namespace Sys2Proof.Machine

/-- The second `require` line of `PB_RECORD` (R166): type, group address and entry count agree. -/
def recordOperandsOk (c : Cfg) (slot : Nat) (a : RecordArgs) : Bool :=
  match a.type with
  | .single => a.sg == none && a.nent == 0
  | .gather => a.sg == some (groupAddr c slot) && decide (1 ≤ a.nent.toNat)

/-- The entry that `PB_RECORD` writes (R166). -/
def entryOf (c : Cfg) (slot : Nat) (a : RecordArgs) : PbEntry :=
  { kind := match a.type with
      | .single => .single
      | .gather => .gather (groupAddr c slot)
    handle := a.handle, dma := a.dma, len := a.len, nent := a.nent }

/-- `PB_RECORD` (R166): a live entry is never overwritten. -/
def pbRecord (slot : Nat) (a : RecordArgs) (s : State) : Res Unit :=
  requireSlot slot s <|
    if !recordOperandsOk s.cfg slot a then .refuse .recordOperands
    else
      match pbGet s slot with
      | some _ => raiseError (.pbAlreadyInFlight slot) s
      | none => .ok () (s.withPb (sparsePut slot (entryOf s.cfg slot a) s.pb))

/-- The mappings a live entry holds, in the order `PB_RELEASE` undoes them (R170): the head buffer of a single entry; every
gather entry of a gathered one, read back from its record group, head first. -/
def entryMappings (e : PbEntry) (s : State) : Res (List (Word × Nat)) :=
  match e.kind with
  | .single => .ok [(e.dma, e.len.toNat)] s
  | .gather sgDma =>
    (readEntries sgDma.toNat e.nent.toNat s).bind fun es s' => .ok (es.map fun p => (p.1, p.2.toNat)) s'

/-- `PB_RELEASE` (R170): undo the mappings, free the entry, give the handle back. -/
def pbRelease (slot : Nat) (s : State) : Res (Word × BitVec 16 × BitVec 14) :=
  requireSlot slot s <|
    match pbGet s slot with
    | none => raiseError (.pbNotInFlight slot) s
    | some e =>
      (entryMappings e s).bind fun ms s' =>
        .ok (e.handle, e.len, e.nent)
          ((s'.withPb (sparseDel slot s'.pb)).emitAll (unmapEvents ms ++ [.handleReturn e.handle]))

/-- The instruction `PB_RECORD` (R166). -/
def execPbRecord (slot : Nat) (a : RecordArgs) (s : State) : Host.Outcome State Fault Refusal :=
  (pbRecord slot a s).finish fun _ => .done

/-- The instruction `PB_RELEASE` (R170). -/
def execPbRelease (slot : Nat) (s : State) : Host.Outcome State Fault Refusal :=
  (pbRelease slot s).finish fun r => .released r.1 r.2.1 r.2.2

end Sys2Proof.Machine
end

