-- ==== Sys2Proof/Machine/Ring.lean ====
section
/-! DEFINITION. The instruction ring (43_ring.md): `RING_POST`, `RING_ANNOUNCE`, `RING_RECLAIM`, and the release loop that
`RING_RECLAIM` shares with `DESTROY_QUEUE`. -/

namespace Sys2Proof.Machine

/-! ### Post -/

/-- The registers and the counter a successful post moves (R185). -/
def advanceWrite (s : State) : State :=
  { s with
    q := { s.q with writeIndex := idxInc s.cfg.n s.q.writeIndex, fillCount := s.q.fillCount + 1 }
    ctr := { s.ctr with posted := s.ctr.posted + 1 } }

/-- Raise the stop signal (R265). -/
def signalStop (s : State) : State := s.emit .stop

/-- `RING_POST(desc)` (R185): the slot written and whether this post made the ring full. -/
def ringPost (desc : Bytes 64) (s : State) : Res (Nat × Bool) :=
  requireValid s <|
    if isFull s then raiseError .queueFull s
    else
      (memWrite (slotAddr s.cfg s.q.writeIndex) desc.val s).bind fun _ s1 =>
        let s2 := advanceWrite s1
        if isFull s2 then .ok (s.q.writeIndex, true) (signalStop s2) else .ok (s.q.writeIndex, false) s2

/-! ### Announce -/

/-- The doorbell is due (R190): something is unannounced, and the caller forces it or the threshold is reached. -/
def announceDue (force : Bool) (s : State) : Bool :=
  s.q.fillCount != 0 && (force || decide (s.cfg.fillThreshold ≤ s.q.fillCount.toNat))

/-- Write the doorbell with the fill count and clear it (R190). -/
def writeDoorbell (s : State) : State :=
  let s1 := (regWriteDB s.q.fillCount s).emit (.doorbellWrite s.q.fillCount)
  { s1 with q := { s1.q with fillCount := 0 } }

/-- `RING_ANNOUNCE(force)` (R190): the count written to the doorbell, 0 when no write was made. -/
def ringAnnounce (force : Bool) (s : State) : Res (BitVec 32) :=
  requireValid s (if announceDue force s then .ok s.q.fillCount (writeDoorbell s) else .ok 0 s)

/-! ### Reclaim -/

/-- How far the device has come since the last sample, clamped to the slots posted (R196, R203 items 4 and 5). -/
def sampleAdvance (s : State) : Nat :=
  min (regReadIC s - s.q.lastCount).toNat (idxDiff s.cfg.n s.q.writeIndex s.q.deviceReadIndex)

/-- Phase 1 of a reclaim: sample the instruction count once (R196). -/
def sample (s : State) : State :=
  { s with
    q := { s.q with
      lastCount := regReadIC s
      deviceReadIndex := idxAdd s.cfg.n s.q.deviceReadIndex (sampleAdvance s) } }

/-- The counters a completion moves (R197, R37). -/
def countCompletion (len : BitVec 16) (nent : BitVec 14) (c : Counters) : Counters :=
  { c with
    completed := c.completed + 1
    bytes := c.bytes + len.setWidth 64
    sgEntries := c.sgEntries + nent.setWidth 64 }

/-- Move the flush index past the slot just released (R25). -/
def advanceFlush (s : State) : State :=
  { s with q := { s.q with flushIndex := idxInc s.cfg.n s.q.flushIndex } }

/-- Release `k` slots from the flush index on, oldest first (R197, R230). A reclaim counts each as a completion, a
destruction does not (`counted`). The loops of R195 and R230 run exactly as often as the index they wait for is ahead. -/
def releaseSlots (counted : Bool) : Nat → State → Res Unit
  | 0, s => .ok () s
  | k + 1, s =>
    (pbRelease s.q.flushIndex s).cannotFail.bind fun r s1 =>
      let s2 := advanceFlush s1
      releaseSlots counted k (if counted then s2.withCtr (countCompletion r.2.1 r.2.2 s2.ctr) else s2)

/-- Raise the restart signal (R198, R266). -/
def signalRestart (s : State) : State :=
  (s.withCtr { s.ctr with restart := s.ctr.restart + 1 }).emit .restart

/-- Phase 3 of a reclaim: signal on the edge from full to not full only (R198). -/
def restartPhase (wasFull : Bool) (s : State) : State :=
  if wasFull && !isFull s then signalRestart s else s

/-- `RING_RECLAIM()` (R195): slots released, and whether the ring is not full now. -/
def ringReclaim (s : State) : Res (Nat × Bool) :=
  requireValid s <|
    let s1 := sample s
    let todo := idxDiff s1.cfg.n s1.q.deviceReadIndex s1.q.flushIndex
    (releaseSlots true todo s1).bind fun _ s2 => .ok (todo, !isFull s2) (restartPhase (isFull s) s2)

/-- The instruction `RING_POST` (R185). -/
def execRingPost (desc : Bytes 64) (s : State) : Host.Outcome State Fault Refusal :=
  (ringPost desc s).finish fun r => .posted r.1 r.2

/-- The instruction `RING_ANNOUNCE` (R190). -/
def execRingAnnounce (force : Bool) (s : State) : Host.Outcome State Fault Refusal :=
  (ringAnnounce force s).finish fun c => .announced c

/-- The instruction `RING_RECLAIM` (R195). -/
def execRingReclaim (s : State) : Host.Outcome State Fault Refusal :=
  (ringReclaim s).finish fun r => .reclaimed r.1 r.2

end Sys2Proof.Machine
end

