-- ==== Sys2Proof/Machine/Controller.lean ====
section
/-! DEFINITION. The queue controller and the six host commands (44_controller.md). -/

namespace Sys2Proof.Machine

/-! ### Creation -/

/-- All seven counters at zero (R38). -/
def zeroCounters : Counters :=
  { posted := 0, completed := 0, dropped := 0, bytes := 0, sgEntries := 0, busy := 0, restart := 0 }

/-- The device is idle on this queue with its fetch position at slot 0 (R296). -/
def deviceIdle (d : Device) : Bool := d.avail == 0 && d.fetchIndex == 0

/-- What a successful `CREATE_QUEUE` writes (R210): configuration, working registers, counters, table. Memory keeps what it
held (R297). `synced` remembers whether the device met the requirement of R296 (entry 14). -/
def createState (c : Cfg) (s : State) : State :=
  { s with
    cfg := c
    q := { valid := true, writeIndex := 0, deviceReadIndex := 0, flushIndex := 0, fillCount := 0
           lastCount := regReadIC s }
    ctr := zeroCounters
    pb := []
    dev := { s.dev with synced := deviceIdle s.dev } }

/-- `CREATE_QUEUE` (R210): every error comes before any state change. -/
def createQueue (a : CreateArgs) (s : State) : Res Unit :=
  if s.q.valid then .refuse .queueAlreadyValid
  else
    match createCheck a with
    | .error r => raiseError r s
    | .ok bases => .ok () (createState (cfgOf a bases.1 bases.2) s)

/-! ### Transmit -/

/-- Count a packet not accepted (R37, R218, R219): dropped always, busy when the ring was full. -/
def countDrop (busy : Bool) (s : State) : State :=
  s.withCtr { s.ctr with dropped := s.ctr.dropped + 1, busy := if busy then s.ctr.busy + 1 else s.ctr.busy }

/-- Map the fragments, ascending (R215 step 3). `done` holds the mappings made so far, the latest first; when a mapping
fails they are undone in that, descending, order (R219). -/
def mapFrags : List Frag → List (Word × Nat) → State → Res (List Word)
  | [], done, s => .ok (done.reverse.map Prod.fst) s
  | f :: fs, done, s =>
    match dmaMap f.buf f.len s with
    | (some addr, s1) => mapFrags fs ((addr, f.len) :: done) s1
    | (none, s1) => raiseError (.mapping (some done.length)) (countDrop false (s1.emitAll (unmapEvents done)))

/-- What the choice of form settles (R215 step 4, R221): data pointer, gather-entry count, gather flag, records written,
type and group address for the table. -/
structure TxForm where
  dptr   : Word
  gsz    : BitVec 14
  gather : BitVec 1
  used   : Nat
  type   : BufType
  sg     : Option Word
  deriving DecidableEq, Repr

/-- Single-buffer form for a packet of one fragment, gathered form otherwise (R221). -/
def chooseForm (slot : Nat) (addrs : List Word) (frags : List Frag) (s : State) : Res TxForm :=
  if frags.length = 1 then
    .ok { dptr := addrs.headD 0, gsz := 0, gather := 0, used := 0, type := .single, sg := none } s
  else
    (sgAcquire slot s).bind fun g s1 =>
      (sgFill slot (gatherEntriesOf addrs frags) s1).bind fun r s2 =>
        .ok { dptr := r.2.2, gsz := BitVec.ofNat 14 r.1, gather := 1, used := r.2.1, type := .gather, sg := some g.1 } s2

/-- The operands of the `PB_RECORD` that follows the post (R215 step 5). -/
def recordArgsOf (handle : Word) (addrs : List Word) (frags : List Frag) (form : TxForm) : RecordArgs :=
  { handle := handle, dma := addrs.headD 0, sg := form.sg, type := form.type
    len := BitVec.ofNat 16 (totalLen frags), nent := form.gsz }

/-- Whether `TRANSMIT` forces the doorbell (R215 step 6, R222). -/
def forceAnnounce (c : Cfg) (last becameFull : Bool) : Bool := last || (c.announceOnFull && becameFull)

/-- Steps 4 to 6 of `TRANSMIT` (R215): encode, commit, announce. The packet is mapped and the ring has room. -/
def commitPacket (handle : Word) (addrs : List Word) (frags : List Frag) (ol : Offload) (last : Bool) (s : State) :
    Res (Nat × Bool) :=
  (chooseForm s.q.writeIndex addrs frags s).bind fun form s1 =>
    (ringPost (descriptorOf s1.cfg (totalLen frags) ol form.gsz form.gather form.dptr) s1).cannotFail.bind fun p s2 =>
      (pbRecord p.1 (recordArgsOf handle addrs frags form) s2).cannotFail.bind fun _ s3 =>
        (ringAnnounce (forceAnnounce s3.cfg last p.2) s3).bind fun _ s4 => .ok (1 + form.used, p.2) s4

/-- `TRANSMIT` (R215): precondition, admission, mapping, then encode, commit and announce. -/
def transmit (handle : Word) (frags : List Frag) (ol : Offload) (last : Bool) (s : State) : Res (Nat × Bool) :=
  requireValid s <|
    match txPrecondition s.params.offloadRule s.cfg frags ol with
    | some reason => raiseError (.precondition reason) s
    | none =>
      if isFull s then raiseError .queueFull (countDrop true s)
      else (mapFrags frags [] s).bind fun addrs s1 => commitPacket handle addrs frags ol last s1

/-! ### Statistics and destruction -/

/-- `STATS` (R228): one snapshot of the seven counters. -/
def stats (s : State) : Res Counters := requireValid s (.ok s.ctr s)

/-- The last lines of `DESTROY_QUEUE` (R230). -/
def destroyState (s : State) : State :=
  s.withQ { s.q with deviceReadIndex := s.q.writeIndex, valid := false }

/-- `DESTROY_QUEUE` (R230): release every slot in flight, oldest first, without counting it. -/
def destroyQueue (s : State) : Res Unit :=
  requireValid s <|
    (releaseSlots false (idxDiff s.cfg.n s.q.writeIndex s.q.flushIndex) s).bind fun _ s1 => .ok () (destroyState s1)

/-! ### The host commands as instructions -/

/-- The instruction `CREATE_QUEUE` (R210). -/
def execCreateQueue (a : CreateArgs) (s : State) : Host.Outcome State Fault Refusal :=
  (createQueue a s).finish fun _ => .done

/-- The instruction `TRANSMIT` (R215). -/
def execTransmit (handle : Word) (frags : List Frag) (ol : Offload) (last : Bool) (s : State) :
    Host.Outcome State Fault Refusal :=
  (transmit handle frags ol last s).finish fun r => .accepted r.1 r.2

/-- The instruction `RECLAIM` (R225). -/
def execReclaim (s : State) : Host.Outcome State Fault Refusal :=
  (requireValid s (ringReclaim s)).finish fun r => .reclaimed r.1 r.2

/-- The instruction `ANNOUNCE` (R226): a forced announce. -/
def execAnnounce (s : State) : Host.Outcome State Fault Refusal :=
  (requireValid s (ringAnnounce true s)).finish fun c => .announced c

/-- The instruction `STATS` (R228). -/
def execStats (s : State) : Host.Outcome State Fault Refusal := (stats s).finish fun c => .stats c

/-- The instruction `DESTROY_QUEUE` (R230). -/
def execDestroyQueue (s : State) : Host.Outcome State Fault Refusal := (destroyQueue s).finish fun _ => .done

end Sys2Proof.Machine
end

