-- ==== Sys2Proof/Machine/DeviceAgent.lean ====
section
/-! DEFINITION. The device agent (45_device_agent.md): the reaction to a doorbell write, the consumption of a descriptor,
and what each of the two descriptor forms makes the device do (R243). -/

namespace Sys2Proof.Machine

/-- A device step is enabled while an announced descriptor is left (R243, R244 item 3), and has a meaning only on a live
queue that was created with the device idle (R296, R305, U17; entry 14). -/
def requireDevice {α : Type} (s : State) (x : Res α) : Res α :=
  if s.dev.avail = 0 then .refuse .deviceNotEnabled
  else if !(s.q.valid && s.dev.synced) then .refuse .deviceOutOfContract
  else x

/-- The device's registers and variables after one descriptor (R243): the increment of `IC` is the last action. -/
def advanceDevice (n : Nat) (d : Device) : Device :=
  { d with fetchIndex := idxInc n d.fetchIndex, avail := d.avail - 1, ic := d.ic + 1 }

/-- The event of a consumed descriptor (R243). -/
def packetEvent (slot : Nat) (bufs : List (Word × BitVec 16)) (d : TxDesc) : Event :=
  .txPacket slot bufs d.tlen d.pkind d.fsz d.txm

/-- The device consumes a descriptor of the given form (R243), once it is fetched and decoded. -/
def consumeDesc (gather : Bool) (d : TxDesc) (s : State) : Res Unit :=
  requireDevice s <|
    if undefinedDesc gather d then .refuse .undefinedDescriptor
    else
      (descBuffers gather d s).bind fun bufs s1 =>
        .ok () ((s1.emit (packetEvent s1.dev.fetchIndex bufs d)).withDev (advanceDevice s1.cfg.n s1.dev))

/-- The device's fetch (R243, R241): the 64 bytes of the descriptor at its fetch index. The device knows `RING_BASE` and
`N` (R241, R295). -/
def deviceFetch (s : State) : Res (Bytes 64) :=
  requireDevice s (memRead (slotAddr s.cfg s.dev.fetchIndex) 64 s)

/-- `DEV_CONSUME` (R243): fetch, decode, consume. -/
def devConsume (s : State) : Res Unit :=
  (deviceFetch s).bind fun b s1 => consumeDesc (isGatherForm (decInstr b).ih) (txDescOf (decInstr b)) s1

/-- The instruction `DEV_DOORBELL` (R242): the device's reaction to a write of `DB`. -/
def execDevDoorbell (count : BitVec 32) (s : State) : Host.Outcome State Fault Refusal :=
  .next (s.withDev (doorbell count s.dev))

/-- The instruction `DEV_CONSUME` (R243). -/
def execDevConsume (s : State) : Host.Outcome State Fault Refusal := (devConsume s).finishDevice

/-- The descriptor form `TXI.SINGLE` (R108, R243): one buffer. -/
def execTxiSingle (d : TxDesc) (s : State) : Host.Outcome State Fault Refusal := (consumeDesc false d s).finishDevice

/-- The descriptor form `TXI.GATHER` (R108, R243): `gsz` buffers read from the records at the data pointer. -/
def execTxiGather (d : TxDesc) (s : State) : Host.Outcome State Fault Refusal := (consumeDesc true d s).finishDevice

/-- The excluded collaborators bring the device to the idle state of R296 and leave `IC` at any value (R240; entry 15).
After it the device follows no live queue until the next `CREATE_QUEUE`. -/
def resetDevice (ic : BitVec 32) (s : State) : State :=
  s.withDev { s.dev with avail := 0, fetchIndex := 0, ic := ic, synced := false }

end Sys2Proof.Machine
end

