-- ==== Sys2Proof/Machine/Dispatch.lean ====
section
/-! DEFINITION. The meaning of each instruction: one arm per constructor of `Instr`, each one call of its meaning. -/

namespace Sys2Proof.Machine

def exec (i : Instr) (s : State) : Host.Outcome State Fault Refusal :=
  match i with
  | .createQueue a => Sys2Proof.Machine.execCreateQueue a s
  | .transmit handle frags ol last => Sys2Proof.Machine.execTransmit handle frags ol last s
  | .reclaim => Sys2Proof.Machine.execReclaim s
  | .announce => Sys2Proof.Machine.execAnnounce s
  | .stats => Sys2Proof.Machine.execStats s
  | .destroyQueue => Sys2Proof.Machine.execDestroyQueue s
  | .encIh f => Sys2Proof.Machine.execEncIh f s
  | .decIh ih => Sys2Proof.Machine.execDecIh ih s
  | .encTxm m => Sys2Proof.Machine.execEncTxm m s
  | .decTxm txm0 txm1 => Sys2Proof.Machine.execDecTxm txm0 txm1 s
  | .encSg r => Sys2Proof.Machine.execEncSg r s
  | .decSg b => Sys2Proof.Machine.execDecSg b s
  | .encInstr w => Sys2Proof.Machine.execEncInstr w s
  | .decInstr b => Sys2Proof.Machine.execDecInstr b s
  | .sgAcquire slot => Sys2Proof.Machine.execSgAcquire slot s
  | .sgFill slot entries => Sys2Proof.Machine.execSgFill slot entries s
  | .pbRecord slot a => Sys2Proof.Machine.execPbRecord slot a s
  | .pbRelease slot => Sys2Proof.Machine.execPbRelease slot s
  | .ringPost desc => Sys2Proof.Machine.execRingPost desc s
  | .ringAnnounce force => Sys2Proof.Machine.execRingAnnounce force s
  | .ringReclaim => Sys2Proof.Machine.execRingReclaim s
  | .devDoorbell count => Sys2Proof.Machine.execDevDoorbell count s
  | .devConsume => Sys2Proof.Machine.execDevConsume s
  | .txiSingle d => Sys2Proof.Machine.execTxiSingle d s
  | .txiGather d => Sys2Proof.Machine.execTxiGather d s

end Sys2Proof.Machine
end

