-- ==== Sys2Proof/Decode.lean ====
section
/-! DEFINITION. Decoding and encoding. Two formats (R117): in the command port an 8-bit operation identifier followed by
its operands (`op8`); in DMA memory a 64-byte descriptor whose form is bit 62 of its header word (`ih64`, R108).
The identifiers and the descriptor layout are the spec's. The bytes that carry operands after an identifier are the
MODEL's (the source has no command port, R117): DESIGN CHOICE, entry 5: operands in the order of their rule, each
little-endian in the least number of whole bytes that holds its width, eight bytes where the rule gives no width. -/

namespace Sys2Proof.Decode

open Sys2Proof.Machine

/-! ### Readers: each takes what it needs from the front of the bytes and returns the rest -/

/-- An unsigned number of `n` bytes, little-endian. -/
def readLE (n : Nat) (bs : List Byte) : Except DecodeError (Nat × List Byte) :=
  if bs.length < n then .error .truncated else .ok (fromLE (bs.take n), bs.drop n)

/-- An operand without a width (R211): 64 bits in the port. -/
def readNat (bs : List Byte) : Except DecodeError (Nat × List Byte) := readLE 8 bs

/-- A `w`-bit operand in `n` bytes; a larger value is refused, never truncated (R141). -/
def readBV (n w : Nat) (bs : List Byte) : Except DecodeError (BitVec w × List Byte) :=
  match readLE n bs with
  | .error e => .error e
  | .ok (v, rest) => if v < 2 ^ w then .ok (BitVec.ofNat w v, rest) else .error .operandRange

/-- A 64-bit operand. -/
def readWord (bs : List Byte) : Except DecodeError (Word × List Byte) := readBV 8 64 bs

/-- A one-bit operand used as a condition: byte 0 or 1. -/
def readBool (bs : List Byte) : Except DecodeError (Bool × List Byte) :=
  match readLE 1 bs with
  | .error e => .error e
  | .ok (v, rest) => if v = 0 then .ok (false, rest) else if v = 1 then .ok (true, rest) else .error .operandRange

/-- A byte block of known length. -/
def readBytes (n : Nat) (bs : List Byte) : Except DecodeError (Bytes n × List Byte) :=
  if h : (bs.take n).length = n then .ok (⟨bs.take n, h⟩, bs.drop n) else .error .truncated

/-- `n` items read one after another. -/
def readMany {α : Type} (one : List Byte → Except DecodeError (α × List Byte)) :
    Nat → List Byte → Except DecodeError (List α × List Byte)
  | 0, bs => .ok ([], bs)
  | n + 1, bs =>
    match one bs with
    | .error e => .error e
    | .ok (x, rest) =>
      match readMany one n rest with
      | .error e => .error e
      | .ok (xs, rest') => .ok (x :: xs, rest')

/-- A list operand: its length, then its items. -/
def readList {α : Type} (one : List Byte → Except DecodeError (α × List Byte)) (bs : List Byte) :
    Except DecodeError (List α × List Byte) :=
  match readNat bs with
  | .error e => .error e
  | .ok (n, rest) => readMany one n rest

/-- A fragment (R211). -/
def readFrag (bs : List Byte) : Except DecodeError (Frag × List Byte) := do
  let (buf, bs) ← readWord bs
  let (len, bs) ← readNat bs
  pure ({ buf, len }, bs)

/-- A gather entry of `SG_FILL` (R152). -/
def readEntry (bs : List Byte) : Except DecodeError ((Word × BitVec 16) × List Byte) := do
  let (addr, bs) ← readWord bs
  let (len, bs) ← readBV 2 16 bs
  pure ((addr, len), bs)

/-- An offload request (R211). -/
def readOffload (bs : List Byte) : Except DecodeError (Offload × List Byte) := do
  let (flags, bs) ← readNat bs
  let (segSize, bs) ← readNat bs
  let (segCount, bs) ← readNat bs
  pure ({ flags, segSize, segCount }, bs)

/-- The `region` operand of `CREATE_QUEUE` (R210): byte 0 for `Fail`, byte 1 for `Ok` with the two bases. -/
def readRegion (bs : List Byte) : Except DecodeError (Region × List Byte) := do
  let (ok, bs) ← readBool bs
  if ok then
    let (ringBase, bs) ← readWord bs
    let (sgBase, bs) ← readWord bs
    pure (.ok ringBase sgBase, bs)
  else
    pure (.fail, bs)

/-- The optional `sg` operand of `PB_RECORD` (R166): byte 0 for absent, byte 1 with the address. -/
def readOptWord (bs : List Byte) : Except DecodeError (Option Word × List Byte) := do
  let (present, bs) ← readBool bs
  if present then
    let (a, bs) ← readWord bs
    pure (some a, bs)
  else
    pure (none, bs)

/-- The `type` operand of `PB_RECORD` (R166), with the tag numbers of R41. -/
def readBufType (bs : List Byte) : Except DecodeError (BufType × List Byte) := do
  let (v, bs) ← readLE 1 bs
  if v = 1 then pure (.single, bs) else if v = 2 then pure (.gather, bs) else .error .operandRange

def readCreateArgs (bs : List Byte) : Except DecodeError (CreateArgs × List Byte) := do
  let (capacity, bs) ← readNat bs
  let (maxFragments, bs) ← readNat bs
  let (fillThreshold, bs) ← readNat bs
  let (pkind, bs) ← readNat bs
  let (fsz, bs) ← readNat bs
  let (region, bs) ← readRegion bs
  let (db, bs) ← readWord bs
  let (ic, bs) ← readWord bs
  let (il, bs) ← readWord bs
  let (announceOnFull, bs) ← readBool bs
  pure ({ capacity, maxFragments, fillThreshold, pkind, fsz, region, db, ic, il, announceOnFull }, bs)

def readRecordArgs (bs : List Byte) : Except DecodeError (RecordArgs × List Byte) := do
  let (handle, bs) ← readWord bs
  let (dma, bs) ← readWord bs
  let (sg, bs) ← readOptWord bs
  let (type, bs) ← readBufType bs
  let (len, bs) ← readBV 2 16 bs
  let (nent, bs) ← readBV 2 14 bs
  pure ({ handle, dma, sg, type, len, nent }, bs)

def readIhFields (bs : List Byte) : Except DecodeError (IhFields × List Byte) := do
  let (tlen, bs) ← readBV 2 16 bs
  let (rsvd, bs) ← readBV 3 20 bs
  let (pkind, bs) ← readBV 1 6 bs
  let (fsz, bs) ← readBV 1 6 bs
  let (gsz, bs) ← readBV 2 14 bs
  let (gather, bs) ← readBV 1 1 bs
  let (rsvd3, bs) ← readBV 1 1 bs
  pure ({ tlen, rsvd, pkind, fsz, gsz, gather, rsvd3 }, bs)

def readTxmFields (bs : List Byte) : Except DecodeError (TxmFields × List Byte) := do
  let (olFlags, bs) ← readBV 2 16 bs
  let (segSize, bs) ← readBV 2 16 bs
  let (segCount, bs) ← readBV 2 16 bs
  let (mrsvd1, bs) ← readBV 2 16 bs
  let (mrsvd2, bs) ← readWord bs
  pure ({ olFlags, segSize, segCount, mrsvd1, mrsvd2 }, bs)

def readSgRecord (bs : List Byte) : Except DecodeError (SgRecord × List Byte) := do
  let (len0, bs) ← readBV 2 16 bs
  let (len1, bs) ← readBV 2 16 bs
  let (len2, bs) ← readBV 2 16 bs
  let (len3, bs) ← readBV 2 16 bs
  let (addr0, bs) ← readWord bs
  let (addr1, bs) ← readWord bs
  let (addr2, bs) ← readWord bs
  let (addr3, bs) ← readWord bs
  pure ({ len0, len1, len2, len3, addr0, addr1, addr2, addr3 }, bs)

def readInstrWords (bs : List Byte) : Except DecodeError (InstrWords × List Byte) := do
  let (dptr, bs) ← readWord bs
  let (ih, bs) ← readWord bs
  let (txm0, bs) ← readWord bs
  let (txm1, bs) ← readWord bs
  let (exhdr0, bs) ← readWord bs
  let (exhdr1, bs) ← readWord bs
  let (exhdr2, bs) ← readWord bs
  let (exhdr3, bs) ← readWord bs
  pure ({ dptr, ih, txm0, txm1, exhdr0, exhdr1, exhdr2, exhdr3 }, bs)

/-! ### The two decoders -/

/-- The operands that follow operation identifier `op` (R117); an identifier outside the table is refused (R280). -/
def decodeOperands (op : Byte) (bs : List Byte) : Except DecodeError (Instr × List Byte) :=
  match op.toNat with
  | 0x00 => do let (a, bs) ← readCreateArgs bs; pure (.createQueue a, bs)
  | 0x01 => do
    let (handle, bs) ← readWord bs
    let (frags, bs) ← readList readFrag bs
    let (ol, bs) ← readOffload bs
    let (last, bs) ← readBool bs
    pure (.transmit handle frags ol last, bs)
  | 0x02 => pure (.reclaim, bs)
  | 0x03 => pure (.announce, bs)
  | 0x04 => pure (.stats, bs)
  | 0x05 => pure (.destroyQueue, bs)
  | 0x10 => do let (f, bs) ← readIhFields bs; pure (.encIh f, bs)
  | 0x11 => do let (ih, bs) ← readWord bs; pure (.decIh ih, bs)
  | 0x12 => do let (m, bs) ← readTxmFields bs; pure (.encTxm m, bs)
  | 0x13 => do let (txm0, bs) ← readWord bs; let (txm1, bs) ← readWord bs; pure (.decTxm txm0 txm1, bs)
  | 0x14 => do let (r, bs) ← readSgRecord bs; pure (.encSg r, bs)
  | 0x15 => do let (b, bs) ← readBytes 40 bs; pure (.decSg b, bs)
  | 0x16 => do let (w, bs) ← readInstrWords bs; pure (.encInstr w, bs)
  | 0x17 => do let (b, bs) ← readBytes 64 bs; pure (.decInstr b, bs)
  | 0x20 => do let (slot, bs) ← readNat bs; pure (.sgAcquire slot, bs)
  | 0x21 => do let (slot, bs) ← readNat bs; let (es, bs) ← readList readEntry bs; pure (.sgFill slot es, bs)
  | 0x30 => do let (slot, bs) ← readNat bs; let (a, bs) ← readRecordArgs bs; pure (.pbRecord slot a, bs)
  | 0x31 => do let (slot, bs) ← readNat bs; pure (.pbRelease slot, bs)
  | 0x40 => do let (d, bs) ← readBytes 64 bs; pure (.ringPost d, bs)
  | 0x41 => do let (force, bs) ← readBool bs; pure (.ringAnnounce force, bs)
  | 0x42 => pure (.ringReclaim, bs)
  | 0x50 => do let (count, bs) ← readBV 4 32 bs; pure (.devDoorbell count, bs)
  | 0x51 => pure (.devConsume, bs)
  | _ => .error (.unassignedOp op)

/-- The next command of the port and the bytes after it. -/
def decodeOp8 (bs : List Byte) : Except DecodeError (Instr × List Byte) :=
  match bs with
  | [] => .error .truncated
  | op :: rest => decodeOperands op rest

/-- The descriptor form of 64 bytes (R108): total, every descriptor is of one of the two forms. -/
def decodeDescriptor (b : Bytes 64) : Instr :=
  if isGatherForm (decInstr b).ih then .txiGather (txDescOf (decInstr b)) else .txiSingle (txDescOf (decInstr b))

/-- Decoding, total on any bytes: the instruction at their front in the given format and the bytes after it. -/
def decode (fmt : Format) (bs : List Byte) : Except DecodeError (Instr × List Byte) :=
  match fmt with
  | .op8 => decodeOp8 bs
  | .ih64 =>
    match readBytes 64 bs with
    | .error e => .error e
    | .ok (b, rest) => .ok (decodeDescriptor b, rest)

/-! ### The encoder, from the same tables -/

/-- The operation identifier of R117; the descriptor forms have none. -/
def opId : Instr → Option Byte
  | .createQueue _ => some 0x00
  | .transmit _ _ _ _ => some 0x01
  | .reclaim => some 0x02
  | .announce => some 0x03
  | .stats => some 0x04
  | .destroyQueue => some 0x05
  | .encIh _ => some 0x10
  | .decIh _ => some 0x11
  | .encTxm _ => some 0x12
  | .decTxm _ _ => some 0x13
  | .encSg _ => some 0x14
  | .decSg _ => some 0x15
  | .encInstr _ => some 0x16
  | .decInstr _ => some 0x17
  | .sgAcquire _ => some 0x20
  | .sgFill _ _ => some 0x21
  | .pbRecord _ _ => some 0x30
  | .pbRelease _ => some 0x31
  | .ringPost _ => some 0x40
  | .ringAnnounce _ => some 0x41
  | .ringReclaim => some 0x42
  | .devDoorbell _ => some 0x50
  | .devConsume => some 0x51
  | .txiSingle _ => none
  | .txiGather _ => none

/-- The format an instruction is written in (R117). -/
def formatOf (i : Instr) : Format :=
  match opId i with
  | some _ => .op8
  | none => .ih64

/-- A `w`-bit operand in `n` bytes. -/
def putBV (n : Nat) {w : Nat} (v : BitVec w) : List Byte := leBytes n v.toNat

/-- A one-bit condition. -/
def putBool (b : Bool) : List Byte := [if b then 1 else 0]

def putFrag (f : Frag) : List Byte := le8 f.buf ++ leBytes 8 f.len

def putEntry (e : Word × BitVec 16) : List Byte := le8 e.1 ++ putBV 2 e.2

def putOffload (ol : Offload) : List Byte := leBytes 8 ol.flags ++ leBytes 8 ol.segSize ++ leBytes 8 ol.segCount

def putRegion : Region → List Byte
  | .fail => putBool false
  | .ok ringBase sgBase => putBool true ++ le8 ringBase ++ le8 sgBase

def putOptWord : Option Word → List Byte
  | none => putBool false
  | some a => putBool true ++ le8 a

def putBufType : BufType → List Byte
  | .single => [1]
  | .gather => [2]

def putCreateArgs (a : CreateArgs) : List Byte :=
  leBytes 8 a.capacity ++ leBytes 8 a.maxFragments ++ leBytes 8 a.fillThreshold ++ leBytes 8 a.pkind ++
    leBytes 8 a.fsz ++ putRegion a.region ++ le8 a.db ++ le8 a.ic ++ le8 a.il ++ putBool a.announceOnFull

def putRecordArgs (a : RecordArgs) : List Byte :=
  le8 a.handle ++ le8 a.dma ++ putOptWord a.sg ++ putBufType a.type ++ putBV 2 a.len ++ putBV 2 a.nent

def putIhFields (f : IhFields) : List Byte :=
  putBV 2 f.tlen ++ putBV 3 f.rsvd ++ putBV 1 f.pkind ++ putBV 1 f.fsz ++ putBV 2 f.gsz ++ putBV 1 f.gather ++
    putBV 1 f.rsvd3

def putTxmFields (m : TxmFields) : List Byte :=
  putBV 2 m.olFlags ++ putBV 2 m.segSize ++ putBV 2 m.segCount ++ putBV 2 m.mrsvd1 ++ le8 m.mrsvd2

def putSgRecord (r : SgRecord) : List Byte :=
  putBV 2 r.len0 ++ putBV 2 r.len1 ++ putBV 2 r.len2 ++ putBV 2 r.len3 ++ le8 r.addr0 ++ le8 r.addr1 ++ le8 r.addr2 ++
    le8 r.addr3

def putInstrWords (w : InstrWords) : List Byte :=
  le8 w.dptr ++ le8 w.ih ++ le8 w.txm0 ++ le8 w.txm1 ++ le8 w.exhdr0 ++ le8 w.exhdr1 ++ le8 w.exhdr2 ++ le8 w.exhdr3

/-- The bytes after the operation identifier, or the whole descriptor for the two descriptor forms (R92, R108). -/
def encodeOperands : Instr → List Byte
  | .createQueue a => putCreateArgs a
  | .transmit handle frags ol last =>
    le8 handle ++ leBytes 8 frags.length ++ frags.flatMap putFrag ++ putOffload ol ++ putBool last
  | .reclaim => []
  | .announce => []
  | .stats => []
  | .destroyQueue => []
  | .encIh f => putIhFields f
  | .decIh ih => le8 ih
  | .encTxm m => putTxmFields m
  | .decTxm txm0 txm1 => le8 txm0 ++ le8 txm1
  | .encSg r => putSgRecord r
  | .decSg b => b.val
  | .encInstr w => putInstrWords w
  | .decInstr b => b.val
  | .sgAcquire slot => leBytes 8 slot
  | .sgFill slot entries => leBytes 8 slot ++ leBytes 8 entries.length ++ entries.flatMap putEntry
  | .pbRecord slot a => leBytes 8 slot ++ putRecordArgs a
  | .pbRelease slot => leBytes 8 slot
  | .ringPost desc => desc.val
  | .ringAnnounce force => putBool force
  | .ringReclaim => []
  | .devDoorbell count => putBV 4 count
  | .devConsume => []
  | .txiSingle d => (Machine.encInstr (wordsOfTxDesc 0 d)).val
  | .txiGather d => (Machine.encInstr (wordsOfTxDesc 1 d)).val

/-- The bytes of a well-formed instruction in its format. -/
def encode (i : Instr) : List Byte :=
  match opId i with
  | some op => op :: encodeOperands i
  | none => encodeOperands i

/-! ### One word of the opcode table -/

/-- More zero bytes than the operands of any instruction take when every operand byte is zero. -/
def zeroBytes : List Byte := List.replicate 128 0

/-- The bytes of the instruction whose table bits are `w` (every bit above them 0), laid out as the hardware stores it.
A row of format `IH64` gives the 64 bits of the header word, which stands at offset 8 of the 64-byte descriptor (R92);
a row of format `OP8` gives the operation identifier. -/
def tableBytes (nbits w : Nat) : List Byte :=
  if nbits = 64 then leBytes 8 0 ++ leBytes 8 w ++ List.replicate 48 0
  else leBytes ((nbits + 7) / 8) w ++ zeroBytes

/-- The format of a row by its number of bits. -/
def tableFormat (nbits : Nat) : Format := if nbits = 64 then .ih64 else .op8

end Sys2Proof.Decode

/-- The instruction the decoder reads from the opcode-table word `w` of `nbits` bits; `none` where it refuses. -/
def Sys2Proof.decodeTableWord (nbits w : Nat) : Option Sys2Proof.Instr :=
  match Sys2Proof.Decode.decode (Sys2Proof.Decode.tableFormat nbits) (Sys2Proof.Decode.tableBytes nbits w) with
  | .ok (i, _) => some i
  | .error _ => none
end

