-- ==== Sys2Proof/Machine/Fetch.lean ====
section
/-! DEFINITION. Where the next instruction comes from. The block fetches nothing of its own (R27, R293): a command arrives
whole in the port, or the device fetches a descriptor from the ring (R241, R243). The schedule is an input (R51; entry 6):
`State.turns` says who moves next, and with no turn left the port is served. -/

namespace Sys2Proof.Machine

/-- What a step finds to do. -/
inductive Fetched where
  /-- nobody has anything to do: the block waits (R293) -/
  | idle (s : State)
  /-- an instruction, and the state after it was taken from its place -/
  | run (i : Instr) (s : State)
  | fault (f : Fault)
  | refused (r : Refusal)

/-- Take the next command from the port (R27: "a host command arrives whole"). -/
def fetchPort (s : State) : Fetched :=
  match s.port with
  | [] => .idle s
  | _ :: _ =>
    match Decode.decode .op8 s.port with
    | .ok (i, rest) => .run i (s.withPort rest)
    | .error e => .refused (.badCommand e)

/-- The device fetches the descriptor at its fetch index and tells its form (R243, R108). -/
def fetchDescriptor (s : State) : Fetched :=
  match deviceFetch s with
  | .ok b s1 => .run (Decode.decodeDescriptor b) s1
  | .raise _ s1 => .idle s1
  | .fault f => .fault f
  | .refuse r => .refused r

/-- The next action, by the schedule (R51, R245; entry 6). -/
def fetch (s : State) : Fetched :=
  match s.turns with
  | [] => fetchPort s
  | .port :: ts => fetchPort (s.withTurns ts)
  | .device :: ts => fetchDescriptor (s.withTurns ts)
  | .deviceReset ic :: ts => .idle (resetDevice ic (s.withTurns ts))

/-! ### Placing one instruction where the next step fetches it (entry 7) -/

/-- The bytes that make up the instruction at the front of `bs`: what the decoder takes of them. -/
def takenBytes (bs : List Byte) : List Byte :=
  match Decode.decode .op8 bs with
  | .ok (_, rest) => bs.take (bs.length - rest.length)
  | .error _ => bs

/-- A command before everything else in the port, the port's turn first. -/
def placeCommand (bs : List Byte) (s : State) : State :=
  (s.withPort (takenBytes bs ++ s.port)).withTurns (.port :: s.turns)

/-- The smallest configuration of a live queue (R9), for a state that has no queue yet. -/
def smallestCfg : Cfg :=
  { n := 2, maxf := 1, sgpp := 1, fillThreshold := 1, pkind := 0, fsz := 0, ringBase := 0, sgBase := 128
    db := 0, ic := 0, il := 0, announceOnFull := false }

/-- A live queue whose device follows it: the state as it is, or, where there is none, the smallest queue. -/
def withLiveQueue (s : State) : State :=
  if s.q.valid && s.dev.synced then s
  else
    { s with
      cfg := if s.q.valid then s.cfg else smallestCfg
      q := { s.q with valid := true }
      dev := { s.dev with fetchIndex := 0, synced := true } }

/-- A descriptor in the ring at the device's fetch index, announced, the device's turn first. -/
def placeDescriptor (bs : List Byte) (s : State) : State :=
  let s1 := withLiveQueue s
  { s1 with
    mem := storeBytes s1.mem (slotAddr s1.cfg s1.dev.fetchIndex) bs
    dev := { s1.dev with avail := s1.dev.avail + 1 }
    turns := .device :: s1.turns }

/-- The instruction of the opcode-table word `w` stored where the next step fetches. -/
def placeWord (s : State) (nbits w : Nat) : State :=
  match Decode.tableFormat nbits with
  | .op8 => placeCommand (Decode.tableBytes nbits w) s
  | .ih64 => placeDescriptor (Decode.tableBytes nbits w) s

end Sys2Proof.Machine
end

