-- ==== Sys2Proof/Machine/Step.lean ====
section
/-! DEFINITION. One step of the machine: what the schedule brings next is carried out (R7, R51, R245). -/

namespace Sys2Proof.Machine

/-- One step: an instruction is taken and executed; with nothing to do the machine waits (R293). -/
def step (s : State) : Host.Outcome State Fault Refusal :=
  match fetch s with
  | .idle s' => .next s'
  | .run i s' => exec i s'
  | .fault f => .fault f
  | .refused r => .refused r

/-- The opcode-table word `w` of `nbits` bits placed so that the very next step runs it (entry 7). -/
def State.withFetchWord (s : State) (nbits w : Nat) : State := placeWord s nbits w

end Sys2Proof.Machine
end

