-- ==== Sys2Proof/Machine/MultiQueue.lean ====
section
/-! DEFINITION. A block of several queues (60_exceptions.md R283): independent instances of the same machine, nothing
shared. A queue handle selects the instance, here its position in the list (entry 22). -/

namespace Sys2Proof.Machine

/-- The two regions of a queue (R62), each as its base and its length. -/
def regionsOf (c : Cfg) : List (Nat × Nat) :=
  [(c.ringBase.toNat, 64 * c.n), (c.sgBase.toNat, 40 * c.sgpp * c.n)]

/-- The states of all queue instances. -/
abbrev Block := List State

/-- A block of `nq` queues (R9 `NQ`, at least 1, by default 1) after power-on: each as `State.reset` says, under the given
`OFFLOAD_VALID`, and each with its number. -/
def Block.reset (nq : Nat := Config.nqDefault) (rule : OffloadRule := .specDefault) : Block :=
  (List.range nq).map fun k => { State.reset with params := { offloadRule := rule, queueNo := k } }

/-- The regions of different live queues do not overlap, and the queues have different numbers (R283: the platform's duty;
entry 22). -/
def Block.apart (b : Block) : Prop :=
  b.Pairwise fun s t => s.params.queueNo ≠ t.params.queueNo ∧
    (s.q.valid = true → t.q.valid = true → ∀ r ∈ regionsOf s.cfg, ∀ r' ∈ regionsOf t.cfg,
      r.1 + r.2 ≤ r'.1 ∨ r'.1 + r'.2 ≤ r.1)

/-- The step of queue `k`: the other queues keep their states (R283). A handle of no instance is refused (R216). -/
def blockStep (k : Nat) (b : Block) : Host.Outcome Block Fault Refusal :=
  match b[k]? with
  | none => .refused .queueNotValid
  | some s =>
    match step s with
    | .next t => .next (b.set k t)
    | .fault f => .fault f
    | .refused r => .refused r

end Sys2Proof.Machine
end

