-- ==== Sys2Proof/Safety.lean ====
section
/-! DEFINITION. What counts as a sound state of a queue and as a safe run, in the terms the statements use: the ring
invariant (R26), the canonical form of the tables, the contract between host and device (R45, R241, R246), slot regions
and their ownership (R62, R72), and the parts of a trace (R16). -/

namespace Sys2Proof.Machine

/-! ### The ring invariant -/

/-- A configuration that `CREATE_QUEUE` accepts (R9, R63, R66). -/
abbrev Cfg.legal (c : Cfg) : Prop :=
  isPow2 c.n = true ∧ 2 ≤ c.n ∧ c.n ≤ 2147483648 ∧ 1 ≤ c.maxf ∧ c.maxf ≤ 16383 ∧ c.sgpp = nrec c.maxf ∧
    1 ≤ c.fillThreshold ∧ c.fillThreshold ≤ c.n - 1 ∧ badBase c.n c.sgpp c.ringBase c.sgBase = false

/-- The three indices are slot numbers (R23 to R25) in ring-wraparound order (R26), and the device-read index equals the
flush index at every boundary between operations (R26: "`a = 0` at every boundary"). -/
abbrev indicesOk (s : State) : Prop :=
  s.q.writeIndex < s.cfg.n ∧ s.q.deviceReadIndex < s.cfg.n ∧ s.q.flushIndex < s.cfg.n ∧
    s.q.deviceReadIndex = s.q.flushIndex

/-- Every live entry belongs to a slot of the ring (R40). -/
abbrev tableInRange (s : State) : Prop := ∀ p ∈ s.pb, p.1 < s.cfg.n

/-- A live queue is sound: legal configuration, indices in order, table within the ring. -/
abbrev QueueInv (s : State) : Prop := s.cfg.legal ∧ indicesOk s ∧ tableInRange s

/-- The invariant of every step: memory and table in canonical form, and a live queue sound. -/
abbrev RingInv (s : State) : Prop := s.mem.wf ∧ s.pb.wf ∧ (s.q.valid = true → QueueInv s)

/-! ### The contract between host commands and device -/

/-- `SLOT` is one of the `count` slots from `start` on (R45, R72). -/
abbrev inWindow (n slot start count : Nat) : Prop := idxDiff n slot start < count

/-- Slot ownership (R45): a table entry is live exactly for the slots in flight. -/
abbrev ownershipOk (s : State) : Prop :=
  ∀ slot < s.cfg.n, (pbGet s slot).isSome = true ↔ inWindow s.cfg.n slot s.q.flushIndex (inflight s)

/-- A live entry as `TRANSMIT` writes it (R44, R46): a gathered one names its slot's record group and between 2 and `MAXF`
entries, a single one has no gather entry. -/
def entrySound (c : Cfg) (slot : Nat) (e : PbEntry) : Bool :=
  match e.kind with
  | .single => e.nent == 0
  | .gather a => a == groupAddr c slot && decide (2 ≤ e.nent.toNat) && decide (e.nent.toNat ≤ c.maxf)

/-- Every live entry is sound. -/
abbrev entriesOk (s : State) : Prop := ∀ p ∈ s.pb, entrySound s.cfg p.1 p.2 = true

/-- What the device has consumed since the last sample (R246). -/
def consumedSinceSample (s : State) : Nat := (s.dev.ic - s.q.lastCount).toNat

/-- The count bound (R246): consumed, announced and unannounced descriptors make up what the block awaits. -/
abbrev countOk (s : State) : Prop :=
  consumedSinceSample s + s.dev.avail + s.q.fillCount.toNat = idxDiff s.cfg.n s.q.writeIndex s.q.deviceReadIndex

/-- The device's position (R241): `fetch_index = (write_index - fill_count - avail) mod N`. -/
abbrev fetchOk (s : State) : Prop :=
  s.dev.fetchIndex < s.cfg.n ∧
    idxAdd s.cfg.n s.dev.fetchIndex (s.dev.avail + s.q.fillCount.toNat) = s.q.writeIndex

/-- The contract of a queue driven by host commands and its device alone (R45, R191, R241, R246, R296). -/
abbrev Contract (s : State) : Prop :=
  ownershipOk s ∧ entriesOk s ∧ countOk s ∧ fetchOk s ∧ s.q.fillCount.toNat < s.cfg.fillThreshold ∧ s.dev.synced = true

/-- The invariant of every host command and device step. -/
abbrev ContractInv (s : State) : Prop := RingInv s ∧ (s.q.valid = true → Contract s)

/-- The host commands (R3). -/
def isHostCommand : Instr → Bool
  | .createQueue _ => true
  | .transmit _ _ _ _ => true
  | .reclaim => true
  | .announce => true
  | .stats => true
  | .destroyQueue => true
  | .encIh _ => false
  | .decIh _ => false
  | .encTxm _ => false
  | .decTxm _ _ => false
  | .encSg _ => false
  | .decSg _ => false
  | .encInstr _ => false
  | .decInstr _ => false
  | .sgAcquire _ => false
  | .sgFill _ _ => false
  | .pbRecord _ _ => false
  | .pbRelease _ => false
  | .ringPost _ => false
  | .ringAnnounce _ => false
  | .ringReclaim => false
  | .devDoorbell _ => false
  | .devConsume => false
  | .txiSingle _ => false
  | .txiGather _ => false

/-- The commands of a live queue that have no error result (R261), and `TRANSMIT`. -/
def isLiveCommand : Instr → Bool
  | .createQueue _ => false
  | i => isHostCommand i

/-- `CREATE_QUEUE` of a device that is idle at slot 0, as R296 requires; every other instruction as it is. -/
def meetsCreationContract (i : Instr) (s : State) : Bool :=
  match i with
  | .createQueue _ => deviceIdle s.dev
  | _ => true

/-! ### Slot regions -/

/-- The addresses of a slot's region (R72): its descriptor and its record group. -/
abbrev inSlotRegion (c : Cfg) (slot a : Nat) : Prop :=
  (slotAddr c slot ≤ a ∧ a < slotAddr c slot + 64) ∨
    (sgAddr c slot 0 ≤ a ∧ a < sgAddr c slot 0 + 40 * c.sgpp)

/-- The device may own the slot's region (R72). -/
abbrev mayOwn (s : State) (slot : Nat) : Prop :=
  inWindow s.cfg.n slot s.q.deviceReadIndex (idxDiff s.cfg.n s.q.writeIndex s.q.deviceReadIndex)

/-- The two regions of a queue do not overlap (R62: the platform's duty). -/
abbrev regionsDisjoint (c : Cfg) : Prop :=
  c.ringBase.toNat + 64 * c.n ≤ c.sgBase.toNat ∨ c.sgBase.toNat + 40 * c.sgpp * c.n ≤ c.ringBase.toNat

/-! ### What is admitted, and what has a meaning at the device, in the words of the rules -/

/-- The offload requests that `OFFLOAD_VALID` admits (R213), component widths included (R115): under the spec's default no
reserved flag bit, not both segmentation flags. -/
abbrev offloadAllowed (rule : OffloadRule) (ol : Offload) : Prop :=
  ol.flags < 65536 ∧ ol.segSize ≤ 65535 ∧ ol.segCount ≤ 65535 ∧
    match rule with
    | .specDefault => ol.flags < 128 ∧ ¬(ol.flags.testBit 5 = true ∧ ol.flags.testBit 6 = true)
    | .forbidding combinations => ∀ c ∈ combinations, ol.flags &&& c.mask ≠ c.value
    | .other k => Config.offloadPredicate k ol = true

/-- The packets that `TRANSMIT` admits on a ring with room (R212): a head, at most `MAXF` fragments, a valid offload request,
no fragment and no total above 65535 bytes. -/
abbrev admissible (rule : OffloadRule) (c : Cfg) (frags : List Frag) (ol : Offload) : Prop :=
  1 ≤ frags.length ∧ frags.length ≤ c.maxf ∧ offloadAllowed rule ol ∧ (frags.map Frag.len).sum ≤ 65535

/-- The encodings of R114, which the block never produces and no rule gives a meaning, condition by condition. -/
abbrev unproducedDesc (gather : Bool) (d : TxDesc) : Prop :=
  d.rsvd ≠ 0 ∨ d.rsvd3 ≠ 0 ∨ (gather = false ∧ d.gsz ≠ 0) ∨ (gather = true ∧ (d.gsz = 0 ∨ d.gsz = 1)) ∨
    128 ≤ d.txm.olFlags.toNat ∨ d.txm.mrsvd1 ≠ 0 ∨ d.txm.mrsvd2 ≠ 0 ∨
    (d.txm.olFlags.getLsbD 5 = false ∧ d.txm.olFlags.getLsbD 6 = false ∧ (d.txm.segSize ≠ 0 ∨ d.txm.segCount ≠ 0)) ∨
    d.exhdr0 ≠ 0 ∨ d.exhdr1 ≠ 0 ∨ d.exhdr2 ≠ 0 ∨ d.exhdr3 ≠ 0

/-- The metadata a packet's descriptor carries (R214, R105): the flags as requested, the segmentation numbers as requested
exactly when a segmentation flag is set and 0 otherwise, the reserved fields 0. -/
abbrev carriesOffload (m : TxmFields) (ol : Offload) : Prop :=
  m.olFlags.toNat = ol.flags ∧
    (ol.flags.testBit 5 = true ∨ ol.flags.testBit 6 = true →
      m.segSize.toNat = ol.segSize ∧ m.segCount.toNat = ol.segCount) ∧
    (ol.flags.testBit 5 = false → ol.flags.testBit 6 = false → m.segSize = 0 ∧ m.segCount = 0) ∧
    m.mrsvd1 = 0 ∧ m.mrsvd2 = 0

/-! ### Slots and entries of a release -/

/-- The `k` slots from `start` on, in ring order (R197). -/
def slotsFrom (n start k : Nat) : List Nat := (List.range k).map fun i => (start + i) % n

/-- The live entries of those slots, oldest first. -/
def entriesFrom (s : State) (start k : Nat) : List PbEntry := (slotsFrom s.cfg.n start k).filterMap (pbGet s)

/-- The mappings of a live entry as memory holds them (R170). -/
def mappingsOf (m : Memory) (e : PbEntry) : List (Word × Nat) :=
  match e.kind with
  | .single => [(e.dma, e.len.toNat)]
  | .gather sgDma =>
    (List.range e.nent.toNat).map fun i => ((entryInMem m sgDma.toNat i).1, (entryInMem m sgDma.toNat i).2.toNat)

/-- The events of one release (R170): the mappings undone, then the handle given back. -/
def releaseEvents (m : Memory) (e : PbEntry) : List Event := unmapEvents (mappingsOf m e) ++ [.handleReturn e.handle]

/-! ### Parts of a trace -/

/-- The handles given back in a trace (R172). -/
def returnedHandles (t : List Event) : List Word :=
  t.filterMap fun e => match e with
    | .handleReturn h => some h
    | _ => none

/-- The `Stop` events of a trace (R265). -/
def stopCount (t : List Event) : Nat := t.countP (· == .stop)

/-- The `Restart` events of a trace (R266). -/
def restartCount (t : List Event) : Nat := t.countP (· == .restart)

/-- `Stop` events less `Restart` events (R267). -/
def stopBalance (t : List Event) : Int := (stopCount t : Int) - (restartCount t : Int)

/-- The level `STOP` as a number (R32, R267). -/
def stopNumber (s : State) : Int := if stopLevel s then 1 else 0

/-- The handles the block holds, one for each live entry (R172). -/
def heldHandles (s : State) : List Word := s.pb.map fun p => p.2.handle

/-- The handle a command takes in: that of a `TRANSMIT` that is accepted (R172). -/
def takenHandles (i : Instr) (t : State) : List Word :=
  match i, t.result with
  | .transmit h _ _ _, some (.accepted _ _) => [h]
  | _, _ => []

/-! ### A packet accepted -/

/-- The `DmaMap` events of a packet whose mappings all succeed (R215 step 3). -/
def mapEvents (addrs : List Word) (frags : List Frag) : List Event :=
  (addrs.zip frags).map fun p => .dmaMap p.2.buf p.2.len (some p.1)

/-- One post more makes the ring full (R185, R265). -/
def fillsRing (s : State) : Bool := idxDiff s.cfg.n (idxInc s.cfg.n s.q.writeIndex) s.q.flushIndex == s.cfg.n - 1

/-- A `TRANSMIT` that is accepted rings the doorbell (R190, R222): on `last`, on a full ring where the queue is so
configured, or when the unannounced descriptors with the new one reach the threshold. -/
def ringsDoorbell (s : State) (last : Bool) : Bool :=
  s.q.fillCount + 1 != 0 &&
    (last || (s.cfg.announceOnFull && fillsRing s) || decide (s.cfg.fillThreshold ≤ (s.q.fillCount + 1).toNat))

/-- What the acceptance of a packet makes of the state (R215 steps 5 and 6), given the memory it leaves, the entry it
records, its mapping events, the answers left, and the records it used. -/
def acceptedState (s : State) (m : Memory) (e : PbEntry) (maps : List Event) (answers : List (Option Word)) (last : Bool)
    (used : Nat) : State :=
  { s with
    q := { s.q with
      writeIndex := idxInc s.cfg.n s.q.writeIndex
      fillCount := if ringsDoorbell s last then 0 else s.q.fillCount + 1 }
    ctr := { s.ctr with posted := s.ctr.posted + 1 }
    pb := sparsePut s.q.writeIndex e s.pb
    mem := m
    dev := if ringsDoorbell s last then doorbell (s.q.fillCount + 1) s.dev else s.dev
    mapAnswers := answers
    result := some (.accepted (1 + used) (fillsRing s))
    trace := s.trace ++ maps ++ (if fillsRing s then [.stop] else []) ++
      (if ringsDoorbell s last then [.doorbellWrite (s.q.fillCount + 1)] else []) }

/-- The fragments' mapped addresses and lengths, as a descriptor or record group carries them. -/
def buffersOf (addrs : List Word) (frags : List Frag) : List (Word × BitVec 16) :=
  (addrs.zip frags).map fun p => (p.1, BitVec.ofNat 16 p.2.len)

/-- Post several descriptors one after another. -/
def postAll : List (Bytes 64) → State → Res Unit
  | [], s => .ok () s
  | d :: ds, s => (ringPost d s).bind fun _ t => postAll ds t

/-! ### Runs, and the liveness the spec trusts the device with (R248) -/

/-- What the environment brings before a step (R51): command bytes, and a turn. -/
structure Arrival where
  bytes : List Byte
  turn  : Turn
  deriving DecidableEq, Repr

/-- The state after something has arrived: behind what is waiting already. -/
def arrive (a : Arrival) (s : State) : State := (s.withPort (s.port ++ a.bytes)).withTurns (s.turns ++ [a.turn])

/-- A run under an input: from each state, once the input has arrived, the step leads to the next. -/
def isRun (input : Nat → Arrival) (run : Nat → State) : Prop :=
  ∀ n, step (arrive (input n) (run n)) = .next (run (n + 1))

/-- `DEV_CONSUME`, or a descriptor, which only the device executes (R243): the instructions without an identifier (R117). -/
def isDeviceStep (i : Instr) : Bool := i == .devConsume || (Decode.opId i).isNone

/-- The next step is one of the device. -/
def takesDeviceStep (s : State) : Bool :=
  match fetch s with
  | .run i _ => isDeviceStep i
  | .idle _ => false
  | .fault _ => false
  | .refused _ => false

/-- A device step is enabled (R243), on a queue the device follows (entry 14). -/
abbrev deviceEnabled (s : State) : Prop := s.dev.avail ≠ 0 ∧ s.q.valid = true ∧ s.dev.synced = true

/-- Weak fairness of the device, the one liveness assumption of the spec (R248): if the device stays enabled from some moment
on, it takes a step. A premise of claims about completion; nothing in the machine forces it (entry 29). -/
def weaklyFair (input : Nat → Arrival) (run : Nat → State) : Prop :=
  ∀ n, (∀ m, n ≤ m → deviceEnabled (run m)) → ∃ m, n ≤ m ∧ takesDeviceStep (arrive (input m) (run m)) = true

end Sys2Proof.Machine
end

