-- ==== Sys2Proof/WellFormed.lean ====
section
/-! DEFINITION. Which terms of `Instr` a command word can carry: the operands whose rule gives them no width ("a
non-negative integer", R211; the range-checked operands of R210; slot numbers) fit the 64 bits the command port gives
them (entry 5). Every other operand is typed by its width (R130), so nothing is left to check about it. -/

namespace Sys2Proof

/-- The number fits the 64 bits the port gives to an operand without a width. -/
def fits64 (n : Nat) : Bool := decide (n < dmaSpace)

/-- A fragment whose length the port can carry. -/
def Frag.wf (f : Frag) : Bool := fits64 f.len

/-- An offload request the port can carry. -/
def Offload.wf (ol : Offload) : Bool := fits64 ol.flags && fits64 ol.segSize && fits64 ol.segCount

/-- Operands of `CREATE_QUEUE` the port can carry. -/
def CreateArgs.wf (a : CreateArgs) : Bool :=
  fits64 a.capacity && fits64 a.maxFragments && fits64 a.fillThreshold && fits64 a.pkind && fits64 a.fsz

/-- The instruction can stand in the command port, or in a descriptor. -/
def Instr.wf : Instr → Bool
  | .createQueue a => a.wf
  | .transmit _ frags ol _ => fits64 frags.length && frags.all Frag.wf && ol.wf
  | .reclaim => true
  | .announce => true
  | .stats => true
  | .destroyQueue => true
  | .encIh _ => true
  | .decIh _ => true
  | .encTxm _ => true
  | .decTxm _ _ => true
  | .encSg _ => true
  | .decSg _ => true
  | .encInstr _ => true
  | .decInstr _ => true
  | .sgAcquire slot => fits64 slot
  | .sgFill slot entries => fits64 slot && fits64 entries.length
  | .pbRecord slot _ => fits64 slot
  | .pbRelease slot => fits64 slot
  | .ringPost _ => true
  | .ringAnnounce _ => true
  | .ringReclaim => true
  | .devDoorbell _ => true
  | .devConsume => true
  | .txiSingle _ => true
  | .txiGather _ => true

end Sys2Proof
end

