-- ==== Sys2Proof/Certificates/Slice0/Obligations.lean ====
section
/-! DEFINITION. The statements for the provers. Each docstring names the rules of spec/ it formalises; a clause that rests
on a convention of the model says so and names the log entry. -/

section

open Sys2Proof Sys2Proof.Machine

/-! ### Decoding and encoding -/

/-- Every well-formed instruction, whatever its operands, decodes from its encoding, and the bytes after it are left
(R92, R108, R117; the operand bytes after an identifier are the model's, entry 5). -/
def Obligations.DecodeEncodeRoundTrip : Prop :=
  ∀ (i : Instr) (rest : List Byte), i.wf = true →
    Decode.decode (Decode.formatOf i) (Decode.encode i ++ rest) = .ok (i, rest)

/-- Whatever decodes is well formed and is exactly the bytes its encoding has: no byte of a command or a descriptor is
dropped, and no two readings share their bytes (R92, R108, R117; entry 5). -/
def Obligations.DecodedBytesAreTheEncoding : Prop :=
  ∀ (fmt : Format) (bs rest : List Byte) (i : Instr), Decode.decode fmt bs = .ok (i, rest) →
    i.wf = true ∧ Decode.formatOf i = fmt ∧ bs = Decode.encode i ++ rest

/-- A few words decode to the instructions they stand for: a reclaim, whose identifier is R117's; a doorbell write of 3, whose
identifier is R117's and whose four operand bytes are the model's choice (entry 5), since R117 gives none; the 60-byte
single-buffer descriptor of V-IN-1 and the gathered one of V-IN-2, laid out as R92 and R95 say. -/
def Obligations.SampleWordsDecode : Prop :=
  Decode.decode .op8 [0x02] = .ok (.reclaim, []) ∧
    Decode.decode .op8 [0x50, 0x03, 0x00, 0x00, 0x00] = .ok (.devDoorbell 3, []) ∧
    Decode.decode .ih64 ([0x00, 0xC0, 0xAB, 0, 0, 0, 0, 0, 0x3C, 0, 0, 0, 0, 0, 0, 0] ++ List.replicate 48 0) =
      .ok (.txiSingle { dptr := 0xABC000, tlen := 60, rsvd := 0, pkind := 0, fsz := 0, gsz := 0, rsvd3 := 0
                        txm := { olFlags := 0, segSize := 0, segCount := 0, mrsvd1 := 0, mrsvd2 := 0 }
                        exhdr0 := 0, exhdr1 := 0, exhdr2 := 0, exhdr3 := 0 }, []) ∧
    Decode.decode .ih64 ([0, 0, 0, 0x20, 0, 0, 0, 0, 0xDC, 0x05, 0, 0, 0, 0, 0x05, 0x40] ++ List.replicate 48 0) =
      .ok (.txiGather { dptr := 0x20000000, tlen := 1500, rsvd := 0, pkind := 0, fsz := 0, gsz := 5, rsvd3 := 0
                        txm := { olFlags := 0, segSize := 0, segCount := 0, mrsvd1 := 0, mrsvd2 := 0 }
                        exhdr0 := 0, exhdr1 := 0, exhdr2 := 0, exhdr3 := 0 }, [])

/-- A command word whose `op` is not in the table of R117 is refused, whatever follows it (R280). -/
def Obligations.UnassignedOpRefused : Prop :=
  ∀ (op : Byte) (bs : List Byte) (s : State),
    op.toNat ∉ [0x00, 0x01, 0x02, 0x03, 0x04, 0x05, 0x10, 0x11, 0x12, 0x13, 0x14, 0x15, 0x16, 0x17, 0x20, 0x21, 0x30,
      0x31, 0x40, 0x41, 0x42, 0x50, 0x51] →
    s.turns = [] → s.port = op :: bs → step s = .refused (.badCommand (.unassignedOp op))

/-! ### The step -/

/-- A step runs the command that the bytes at the front of the port decode to, on the state from which those bytes, and
the port's turn if one was scheduled, are taken (R7, R27; the port and the turns are the model's, entries 5 and 6). -/
def Obligations.StepRunsCommand : Prop :=
  ∀ (s : State) (i : Instr) (rest : List Byte), Decode.decode .op8 s.port = .ok (i, rest) →
    (s.turns = [] → step s = exec i (s.withPort rest)) ∧
      ∀ ts, s.turns = .port :: ts → step s = exec i ((s.withTurns ts).withPort rest)

/-- A device turn runs the descriptor that the 64 bytes at the device's fetch index decode to, and that is what
`DEV_CONSUME` does (R241, R243). -/
def Obligations.StepRunsDescriptor : Prop :=
  ∀ (s : State) (ts : List Turn) (b : Bytes 64), s.turns = .device :: ts → s.dev.avail ≠ 0 → s.q.valid = true →
    s.dev.synced = true → slotAddr s.cfg s.dev.fetchIndex + 64 ≤ dmaSpace →
    b.val = readBytes s.mem (slotAddr s.cfg s.dev.fetchIndex) 64 →
    step s = exec (Decode.decodeDescriptor b) (s.withTurns ts) ∧ step s = exec .devConsume (s.withTurns ts)

/-- With no command waiting and no turn scheduled nothing changes: the block does nothing of its own accord; so it is
right after reset (R293, R53; the idle step is the model's, entry 21). -/
def Obligations.IdleStepChangesNothing : Prop :=
  (∀ s : State, s.turns = [] → s.port = [] → step s = .next s) ∧ step State.reset = .next State.reset

/-! ### Codec -/

/-- `ENC_IH` puts each field at its place (R131, R95). -/
def Obligations.EncIhValue : Prop :=
  ∀ (f : IhFields) (s : State), ∃ ih : Word, exec (.encIh f) s = .next (s.withResult (.header ih)) ∧
    ih.toNat = f.tlen.toNat + 2 ^ 16 * f.rsvd.toNat + 2 ^ 36 * f.pkind.toNat + 2 ^ 42 * f.fsz.toNat +
      2 ^ 48 * f.gsz.toNat + 2 ^ 62 * f.gather.toNat + 2 ^ 63 * f.rsvd3.toNat

/-- `DEC_IH` takes each field from its place (R132, R95). -/
def Obligations.DecIhFields : Prop :=
  ∀ (ih : Word) (s : State), ∃ f : IhFields, exec (.decIh ih) s = .next (s.withResult (.headerFields f)) ∧
    f.tlen.toNat = ih.toNat % 2 ^ 16 ∧ f.rsvd.toNat = ih.toNat / 2 ^ 16 % 2 ^ 20 ∧
    f.pkind.toNat = ih.toNat / 2 ^ 36 % 2 ^ 6 ∧ f.fsz.toNat = ih.toNat / 2 ^ 42 % 2 ^ 6 ∧
    f.gsz.toNat = ih.toNat / 2 ^ 48 % 2 ^ 14 ∧ f.gather.toNat = ih.toNat / 2 ^ 62 % 2 ∧
    f.rsvd3.toNat = ih.toNat / 2 ^ 63

/-- `ENC_TXM` puts each field at its place (R133, R102). -/
def Obligations.EncTxmValue : Prop :=
  ∀ (m : TxmFields) (s : State), ∃ txm0 : Word, exec (.encTxm m) s = .next (s.withResult (.metadata txm0 m.mrsvd2)) ∧
    txm0.toNat = m.olFlags.toNat + 2 ^ 16 * m.segSize.toNat + 2 ^ 32 * m.segCount.toNat + 2 ^ 48 * m.mrsvd1.toNat

/-- `DEC_TXM` takes each field from its place (R134, R102). -/
def Obligations.DecTxmFields : Prop :=
  ∀ (txm0 txm1 : Word) (s : State), ∃ m : TxmFields,
    exec (.decTxm txm0 txm1) s = .next (s.withResult (.metadataFields m)) ∧
      m.olFlags.toNat = txm0.toNat % 2 ^ 16 ∧ m.segSize.toNat = txm0.toNat / 2 ^ 16 % 2 ^ 16 ∧
      m.segCount.toNat = txm0.toNat / 2 ^ 32 % 2 ^ 16 ∧ m.mrsvd1.toNat = txm0.toNat / 2 ^ 48 ∧ m.mrsvd2 = txm1

/-- `ENC_SG` writes all four lengths, then all four addresses, each little-endian (R135, R110). -/
def Obligations.EncSgBytes : Prop :=
  ∀ (r : SgRecord) (s : State), ∃ b : Bytes 40, exec (.encSg r) s = .next (s.withResult (.sgBytes b)) ∧
    b.val = leBytes 2 r.len0.toNat ++ leBytes 2 r.len1.toNat ++ leBytes 2 r.len2.toNat ++ leBytes 2 r.len3.toNat ++
      leBytes 8 r.addr0.toNat ++ leBytes 8 r.addr1.toNat ++ leBytes 8 r.addr2.toNat ++ leBytes 8 r.addr3.toNat

/-- `DEC_SG` reads length `j` at offset `2 j` and address `j` at offset `8 + 8 j` (R136, R110). -/
def Obligations.DecSgFields : Prop :=
  ∀ (b : Bytes 40) (s : State), ∃ r : SgRecord, exec (.decSg b) s = .next (s.withResult (.sgFields r)) ∧
    r.len0.toNat = fromLE (slice b.val 0 2) ∧ r.len1.toNat = fromLE (slice b.val 2 2) ∧
    r.len2.toNat = fromLE (slice b.val 4 2) ∧ r.len3.toNat = fromLE (slice b.val 6 2) ∧
    r.addr0.toNat = fromLE (slice b.val 8 8) ∧ r.addr1.toNat = fromLE (slice b.val 16 8) ∧
    r.addr2.toNat = fromLE (slice b.val 24 8) ∧ r.addr3.toNat = fromLE (slice b.val 32 8)

/-- `ENC_INSTR` writes the eight words at offsets 0, 8, ..., 56, each little-endian: 64 bytes, no padding (R137, R92). -/
def Obligations.EncInstrBytes : Prop :=
  ∀ (w : InstrWords) (s : State), ∃ b : Bytes 64, exec (.encInstr w) s = .next (s.withResult (.instrBytes b)) ∧
    fromLE (slice b.val 0 8) = w.dptr.toNat ∧ fromLE (slice b.val 8 8) = w.ih.toNat ∧
    fromLE (slice b.val 16 8) = w.txm0.toNat ∧ fromLE (slice b.val 24 8) = w.txm1.toNat ∧
    fromLE (slice b.val 32 8) = w.exhdr0.toNat ∧ fromLE (slice b.val 40 8) = w.exhdr1.toNat ∧
    fromLE (slice b.val 48 8) = w.exhdr2.toNat ∧ fromLE (slice b.val 56 8) = w.exhdr3.toNat

/-- `DEC_INSTR` reads the eight words from offsets 0, 8, ..., 56 (R138, R92). -/
def Obligations.DecInstrWords : Prop :=
  ∀ (b : Bytes 64) (s : State), ∃ w : InstrWords, exec (.decInstr b) s = .next (s.withResult (.instrFields w)) ∧
    w.dptr.toNat = fromLE (slice b.val 0 8) ∧ w.ih.toNat = fromLE (slice b.val 8 8) ∧
    w.txm0.toNat = fromLE (slice b.val 16 8) ∧ w.txm1.toNat = fromLE (slice b.val 24 8) ∧
    w.exhdr0.toNat = fromLE (slice b.val 32 8) ∧ w.exhdr1.toNat = fromLE (slice b.val 40 8) ∧
    w.exhdr2.toNat = fromLE (slice b.val 48 8) ∧ w.exhdr3.toNat = fromLE (slice b.val 56 8)

/-- The round trips of R139, in both directions, for all arguments. -/
def Obligations.CodecRoundTrip : Prop :=
  (∀ f : IhFields, decIh (encIh f) = f) ∧ (∀ ih : Word, encIh (decIh ih) = ih) ∧
    (∀ m : TxmFields, decTxm (encTxm m).1 (encTxm m).2 = m) ∧
    (∀ txm0 txm1 : Word, encTxm (decTxm txm0 txm1) = (txm0, txm1)) ∧
    (∀ r : SgRecord, decSg (encSg r) = r) ∧ (∀ b : Bytes 40, encSg (decSg b) = b) ∧
    (∀ w : InstrWords, decInstr (encInstr w) = w) ∧ ∀ b : Bytes 64, encInstr (decInstr b) = b

/-! ### Scatter-gather pool -/

/-- `SG_ACQUIRE` returns the slot's own group, which every slot has and which lies inside the area, and changes nothing
(R150, R151). -/
def Obligations.SgAcquireGroup : Prop :=
  ∀ (slot : Nat) (s : State), s.q.valid = true → s.cfg.legal → slot < s.cfg.n →
    ∃ base : Word, exec (.sgAcquire slot) s = .next (s.withResult (.group base s.cfg.sgpp)) ∧
      base.toNat = s.cfg.sgBase.toNat + 40 * (s.cfg.sgpp * slot) ∧
      base.toNat + 40 * s.cfg.sgpp ≤ s.cfg.sgBase.toNat + 40 * s.cfg.sgpp * s.cfg.n

/-- `SG_FILL` of a free slot writes the entries into the slot's records in order, zeroes the rest of the last used record,
leaves every other byte of memory and all other state alone, and returns count, records and data pointer (R152, R154). -/
def Obligations.SgFillWritesEntries : Prop :=
  ∀ (slot : Nat) (es : List (Word × BitVec 16)) (s : State), s.q.valid = true → s.cfg.legal → slot < s.cfg.n →
    pbGet s slot = none → 1 ≤ es.length → es.length ≤ 4 * s.cfg.sgpp →
    ∃ m : Memory, exec (.sgFill slot es) s =
        .next ((s.withMem m).withResult (.filled es.length ((es.length + 3) / 4) (groupAddr s.cfg slot))) ∧
      (∀ e < es.length, entryInMem m (sgAddr s.cfg slot 0) e = es.getD e (0, 0)) ∧
      (∀ e, es.length ≤ e → e < 4 * ((es.length + 3) / 4) → entryInMem m (sgAddr s.cfg slot 0) e = (0, 0)) ∧
      ∀ a, a < sgAddr s.cfg slot 0 ∨ sgAddr s.cfg slot 0 + 40 * ((es.length + 3) / 4) ≤ a →
        readByte m a = readByte s.mem a

/-! ### Pending-buffer table -/

/-- `PB_RECORD` of a free slot makes its entry live with exactly the operands, and changes nothing else (R166). -/
def Obligations.PbRecordFree : Prop :=
  ∀ (slot : Nat) (a : RecordArgs) (s : State), s.q.valid = true → slot < s.cfg.n →
    ((a.type = .single ∧ a.sg = none ∧ a.nent = 0) ∨
      (a.type = .gather ∧ a.sg = some (groupAddr s.cfg slot) ∧ 1 ≤ a.nent.toNat)) → pbGet s slot = none →
    ∃ p : PbTable, exec (.pbRecord slot a) s = .next ((s.withPb p).withResult .done) ∧
      (∀ other, other ≠ slot → sparseGet other p = sparseGet other s.pb) ∧
      ∃ e, sparseGet slot p = some e ∧ e.handle = a.handle ∧ e.dma = a.dma ∧ e.len = a.len ∧ e.nent = a.nent ∧
        e.kind.tag = (match a.type with | .single => .single | .gather => .gather) ∧
        e.sgDma = (match a.type with | .single => none | .gather => a.sg)

/-- `PB_RECORD` of a live slot fails and changes nothing, whatever the operands (R166, R171). -/
def Obligations.PbRecordLive : Prop :=
  ∀ (slot : Nat) (a : RecordArgs) (s : State), s.q.valid = true → slot < s.cfg.n →
    ((a.type = .single ∧ a.sg = none ∧ a.nent = 0) ∨
      (a.type = .gather ∧ a.sg = some (groupAddr s.cfg slot) ∧ 1 ≤ a.nent.toNat)) → (pbGet s slot).isSome = true →
    exec (.pbRecord slot a) s = .next (s.withResult (.pbAlreadyInFlight slot))

/-- `PB_RELEASE` of a live slot undoes the mappings in order, one for a single entry, one for each gather entry of a
gathered one, gives the handle back once, frees the entry, leaves every other entry and all other state alone, and returns
handle, length and count (R170). -/
def Obligations.PbReleaseLive : Prop :=
  ∀ (slot : Nat) (e : PbEntry) (s : State), s.q.valid = true → slot < s.cfg.n → s.pb.wf → pbGet s slot = some e →
    (∀ a, e.kind = .gather a → a.toNat + 40 * ((e.nent.toNat + 3) / 4) ≤ dmaSpace) →
    ∃ (p : PbTable) (unmaps : List Event),
      exec (.pbRelease slot) s =
        .next (((s.withPb p).emitAll (unmaps ++ [.handleReturn e.handle])).withResult
          (.released e.handle e.len e.nent)) ∧
      sparseGet slot p = none ∧ (∀ other, other ≠ slot → sparseGet other p = sparseGet other s.pb) ∧
      (e.kind = .single → unmaps = [.dmaUnmap e.dma e.len.toNat]) ∧
      ∀ a, e.kind = .gather a → unmaps = (List.range e.nent.toNat).map fun i =>
        .dmaUnmap (entryInMem s.mem a.toNat i).1 (entryInMem s.mem a.toNat i).2.toNat

/-- `PB_RELEASE` of a free slot fails and changes nothing (R170). -/
def Obligations.PbReleaseFree : Prop :=
  ∀ (slot : Nat) (s : State), s.q.valid = true → slot < s.cfg.n → pbGet s slot = none →
    exec (.pbRelease slot) s = .next (s.withResult (.pbNotInFlight slot))

/-- A record, single-buffer or gathered, and the release that follows it: the release undoes the slot's mappings, gives back
exactly the recorded handle, length and count and restores the table; before it a second record fails, after it a second
release fails (R171, R172). The record group of a gathered one ends inside the DMA space. -/
def Obligations.RecordThenRelease : Prop :=
  ∀ (slot : Nat) (a : RecordArgs) (s t : State), s.pb.wf → pbGet s slot = none →
    (a.type = .gather → sgAddr s.cfg slot 0 + 40 * ((a.nent.toNat + 3) / 4) ≤ dmaSpace) →
    exec (.pbRecord slot a) s = .next t →
    exec (.pbRecord slot a) t = .next (t.withResult (.pbAlreadyInFlight slot)) ∧
      ∃ u, exec (.pbRelease slot) t = .next u ∧ u.result = some (.released a.handle a.len a.nent) ∧ u.pb = s.pb ∧
        u.trace = s.trace ++
          (match a.type with
            | .single => [.dmaUnmap a.dma a.len.toNat]
            | .gather => (List.range a.nent.toNat).map fun i =>
                .dmaUnmap (entryInMem s.mem (sgAddr s.cfg slot 0) i).1 (entryInMem s.mem (sgAddr s.cfg slot 0) i).2.toNat) ++
          [.handleReturn a.handle] ∧
        exec (.pbRelease slot) u = .next (u.withResult (.pbNotInFlight slot))

/-- A call against its `require` line is refused (R151, R152, R166, R170, R185, R190, R195, R280). -/
def Obligations.RequireLinesRefused : Prop :=
  ∀ (slot : Nat) (es : List (Word × BitVec 16)) (a : RecordArgs) (desc : Bytes 64) (force : Bool) (i : Instr) (s : State),
    (i ∈ [.sgAcquire slot, .sgFill slot es, .pbRecord slot a, .pbRelease slot, .ringPost desc, .ringAnnounce force,
      .ringReclaim] → s.q.valid = false → exec i s = .refused .queueNotValid) ∧
    (i ∈ [.sgAcquire slot, .sgFill slot es, .pbRecord slot a, .pbRelease slot] → s.q.valid = true → s.cfg.n ≤ slot →
      exec i s = .refused .slotOutOfRange) ∧
    (s.q.valid = true → slot < s.cfg.n →
      ((pbGet s slot).isSome = true → exec (.sgFill slot es) s = .refused .slotInFlight) ∧
      (pbGet s slot = none → es = [] ∨ 4 * s.cfg.sgpp < es.length → exec (.sgFill slot es) s = .refused .entryCount) ∧
      (¬((a.type = .single ∧ a.sg = none ∧ a.nent = 0) ∨
          (a.type = .gather ∧ a.sg = some (groupAddr s.cfg slot) ∧ 1 ≤ a.nent.toNat)) →
        exec (.pbRecord slot a) s = .refused .recordOperands))

/-! ### Instruction ring -/

/-- `RING_POST` on a ring that is not full stores the descriptor at the write index and nowhere else, moves the write
index, the fill count and the posted counter by one, and signals `Stop` exactly when the ring is full now (R185). -/
def Obligations.RingPostAccepted : Prop :=
  ∀ (desc : Bytes 64) (s : State), s.q.valid = true → s.cfg.legal → s.q.writeIndex < s.cfg.n → isFull s = false →
    ∃ m : Memory, exec (.ringPost desc) s =
        .next { s with
          q := { s.q with writeIndex := (s.q.writeIndex + 1) % s.cfg.n, fillCount := s.q.fillCount + 1 }
          ctr := { s.ctr with posted := s.ctr.posted + 1 }
          mem := m
          result := some (.posted s.q.writeIndex (fillsRing s))
          trace := s.trace ++ (if fillsRing s then [.stop] else []) } ∧
      readBytes m (slotAddr s.cfg s.q.writeIndex) 64 = desc.val ∧
      ∀ a, a < slotAddr s.cfg s.q.writeIndex ∨ slotAddr s.cfg s.q.writeIndex + 64 ≤ a →
        readByte m a = readByte s.mem a

/-- `RING_POST` on a full ring fails with `QueueFull` and changes nothing (R185, R181). -/
def Obligations.RingPostFull : Prop :=
  ∀ (desc : Bytes 64) (s : State), s.q.valid = true → isFull s = true →
    exec (.ringPost desc) s = .next (s.withResult .queueFull)

/-- The ring state after a post (R181): one more in flight; from `EMPTY` to `ACTIVE`, or to `FULL` on the smallest ring;
from `ACTIVE` to `ACTIVE` or `FULL`; and the three forms of the stop signal agree (R186). -/
def Obligations.PostTransitions : Prop :=
  ∀ (desc : Bytes 64) (s t : State) (slot : Nat) (stop : Bool), RingInv s → exec (.ringPost desc) s = .next t →
    t.result = some (.posted slot stop) →
    inflight t = inflight s + 1 ∧ ringState s ≠ .full ∧
      (ringState t = .full ↔ inflight s + 1 = s.cfg.n - 1) ∧ (ringState t = .active ↔ inflight s + 1 < s.cfg.n - 1) ∧
      stop = stopLevel t ∧ stopCount t.trace = stopCount s.trace + (if stop then 1 else 0)

/-- `RING_ANNOUNCE` writes the doorbell with the fill count and clears it when there is something to announce and the
caller forces it or the threshold is reached; otherwise it changes nothing and answers 0. The host command `ANNOUNCE` is a
forced one (R190, R226, R242). That the `Ok` of `ANNOUNCE` carries the count is the model's choice of R226 over the table of
R118 (entry 28), and that `db` keeps the value written is the model's choice too (entry 12). -/
def Obligations.AnnounceRingsDoorbell : Prop :=
  ∀ (i : Instr) (force : Bool) (s : State), (i = .ringAnnounce force ∨ (i = .announce ∧ force = true)) →
    s.q.valid = true →
    (s.q.fillCount ≠ 0 → (force = true ∨ s.cfg.fillThreshold ≤ s.q.fillCount.toNat) →
      exec i s = .next { s with
        q := { s.q with fillCount := 0 }
        dev := { s.dev with avail := s.dev.avail + s.q.fillCount.toNat, db := s.q.fillCount }
        result := some (.announced s.q.fillCount)
        trace := s.trace ++ [.doorbellWrite s.q.fillCount] }) ∧
    ((s.q.fillCount = 0 ∨ (force = false ∧ s.q.fillCount.toNat < s.cfg.fillThreshold)) →
      exec i s = .next (s.withResult (.announced 0)))

/-- `RECLAIM` and `RING_RECLAIM`: with `k` the count since the last sample, at most what is outstanding, the `k` oldest
slots are released in ring order, each with its unmappings and its handle, counters and indices move by what was released,
`Restart` comes exactly on the edge from full to not full, and no memory byte and nothing of the device changes (R195 to
R198, R225). -/
def Obligations.ReclaimReleasesConsumed : Prop :=
  ∀ (i : Instr) (s : State) (k : Nat), i = .reclaim ∨ i = .ringReclaim → s.q.valid = true → s.pb.wf → QueueInv s →
    k = min (s.dev.ic - s.q.lastCount).toNat (idxDiff s.cfg.n s.q.writeIndex s.q.deviceReadIndex) →
    (∀ slot ∈ slotsFrom s.cfg.n s.q.flushIndex k, ∃ e, pbGet s slot = some e ∧ entrySound s.cfg slot e = true) →
    ∃ t : State, exec i s = .next t ∧
      t.q = { s.q with lastCount := s.dev.ic, deviceReadIndex := (s.q.flushIndex + k) % s.cfg.n
                       flushIndex := (s.q.flushIndex + k) % s.cfg.n } ∧
      (∀ slot, pbGet t slot = if slot ∈ slotsFrom s.cfg.n s.q.flushIndex k then none else pbGet s slot) ∧
      t.ctr = { s.ctr with
        completed := s.ctr.completed + BitVec.ofNat 64 k
        bytes := s.ctr.bytes + BitVec.ofNat 64 ((entriesFrom s s.q.flushIndex k).map fun e => e.len.toNat).sum
        sgEntries := s.ctr.sgEntries + BitVec.ofNat 64 ((entriesFrom s s.q.flushIndex k).map fun e => e.nent.toNat).sum
        restart := if isFull s && !isFull t then s.ctr.restart + 1 else s.ctr.restart } ∧
      t.trace = s.trace ++ (entriesFrom s s.q.flushIndex k).flatMap (releaseEvents s.mem) ++
        (if isFull s && !isFull t then [.restart] else []) ∧
      t.result = some (.reclaimed k (!isFull t)) ∧ t.mem = s.mem ∧ t.cfg = s.cfg ∧ t.dev = s.dev ∧ t.port = s.port ∧
      t.turns = s.turns ∧ t.mapAnswers = s.mapAnswers ∧ t.mapDraws = s.mapDraws ∧ t.params = s.params

/-- A table that contradicts slot ownership, which host commands never produce (R175), leaves `RECLAIM`, `RING_RECLAIM`,
`DESTROY_QUEUE` and `TRANSMIT` without a meaning where they come upon it: the model's choice is to refuse (entry 16). -/
def Obligations.TableMismatchRefused : Prop :=
  ∀ (i : Instr) (h : Word) (f : Frag) (addr : Word) (rest : List (Option Word)) (ol : Offload) (last : Bool) (s : State),
    s.q.valid = true → QueueInv s →
    (i = .reclaim ∨ i = .ringReclaim → s.dev.ic ≠ s.q.lastCount → inflight s ≠ 0 →
      pbGet s s.q.flushIndex = none → exec i s = .refused .pendingTableMismatch) ∧
    (inflight s ≠ 0 → pbGet s s.q.flushIndex = none → exec .destroyQueue s = .refused .pendingTableMismatch) ∧
    (admissible s.params.offloadRule s.cfg [f] ol → isFull s = false → (pbGet s s.q.writeIndex).isSome = true →
      s.mapAnswers = some addr :: rest → exec (.transmit h [f] ol last) s = .refused .pendingTableMismatch)

/-- A reclaim with nothing newly consumed is a no-op that reports whether there is room (R195, R249). -/
def Obligations.ReclaimIdempotent : Prop :=
  ∀ s : State, s.q.valid = true → QueueInv s → s.dev.ic = s.q.lastCount →
    exec .reclaim s = .next (s.withResult (.reclaimed 0 (!isFull s)))

/-- The restart signal (R198, R266): a reclaim reports room exactly when the ring is not full after it, and counts and
signals a restart exactly when the ring was full before it and is not full after it. -/
def Obligations.RestartOnEdgeOnly : Prop :=
  ∀ s t : State, exec .reclaim s = .next t →
    (∃ k, t.result = some (.reclaimed k (!isFull t))) ∧
      t.ctr.restart = (if isFull s && !isFull t then s.ctr.restart + 1 else s.ctr.restart) ∧
      restartCount t.trace = restartCount s.trace + (if isFull s && !isFull t then 1 else 0)

/-- A reclaim makes room for exactly as many posts as it released slots (R200, R181). -/
def Obligations.ReclaimFreesWhatItReports : Prop :=
  ∀ s t : State, RingInv s → exec .reclaim s = .next t →
    ∃ k, t.result = some (.reclaimed k (!isFull t)) ∧ inflight s = inflight t + k ∧ headroom t = headroom s + k

/-- Exactly as many posts succeed as the ring has room for, `N - 1` from an empty ring, and the next is refused with
`QueueFull` (R200, R220). -/
def Obligations.PostsUntilFull : Prop :=
  ∀ (s : State) (ds : List (Bytes 64)) (d : Bytes 64), s.q.valid = true → QueueInv s → ds.length = headroom s →
    ∃ t, postAll ds s = .ok () t ∧ isFull t = true ∧ t.ctr.posted = s.ctr.posted + BitVec.ofNat 64 ds.length ∧
      t.q.flushIndex = s.q.flushIndex ∧ exec (.ringPost d) t = .next (t.withResult .queueFull)

/-- The stop discipline (R267), counted from the creation of the queue, since the trace runs on over the lives of several
queues: a creation emits neither event and leaves the level `STOP` 0; and over any step that keeps the queue live, `Stop` less
`Restart` events grow by what the level `STOP` grows. -/
def Obligations.StopDiscipline : Prop :=
  (∀ (a : CreateArgs) (s t : State), exec (.createQueue a) s = .next t → t.q.valid = true →
    stopBalance t.trace = stopBalance s.trace ∧ stopNumber t = 0) ∧
  ∀ s t : State, RingInv s → step s = .next t → s.q.valid = true → t.q.valid = true →
    stopBalance t.trace - stopBalance s.trace = stopNumber t - stopNumber s

/-! ### Queue controller -/

/-- A `CREATE_QUEUE` whose arguments pass every check gives the state of R52's middle column: configuration as asked,
indices and counters 0, the count sampled, every entry free, the ring `EMPTY` and `STOP` 0; memory is not touched (R210,
R52, R291; `synced` is the model's field, entry 14). -/
def Obligations.CreateQueueInitialises : Prop :=
  ∀ (a : CreateArgs) (s : State) (ringBase sgBase : Word) (k : Nat), s.q.valid = false →
    a.capacity = 2 ^ k → 1 ≤ k → k ≤ 31 → 1 ≤ a.maxFragments → a.maxFragments ≤ 16383 → 1 ≤ a.fillThreshold →
    a.fillThreshold ≤ a.capacity - 1 → a.pkind ≤ 63 → a.fsz ≤ 63 → a.region = .ok ringBase sgBase →
    ringBase.toNat % 64 = 0 → sgBase.toNat % 8 = 0 → ringBase.toNat + 64 * a.capacity ≤ 2 ^ 64 →
    sgBase.toNat + 40 * ((a.maxFragments + 3) / 4) * a.capacity ≤ 2 ^ 64 →
    ∃ t, exec (.createQueue a) s = .next t ∧ ringState t = .empty ∧ stopLevel t = false ∧
      t = { s with
        cfg := { n := a.capacity, maxf := a.maxFragments, sgpp := (a.maxFragments + 3) / 4
                 fillThreshold := a.fillThreshold, pkind := BitVec.ofNat 6 a.pkind, fsz := BitVec.ofNat 6 a.fsz
                 ringBase := ringBase, sgBase := sgBase, db := a.db, ic := a.ic, il := a.il
                 announceOnFull := a.announceOnFull }
        q := { valid := true, writeIndex := 0, deviceReadIndex := 0, flushIndex := 0, fillCount := 0
               lastCount := s.dev.ic }
        ctr := { posted := 0, completed := 0, dropped := 0, bytes := 0, sgEntries := 0, busy := 0, restart := 0 }
        pb := []
        dev := { s.dev with synced := s.dev.avail == 0 && s.dev.fetchIndex == 0 }
        result := some .done }

/-- The errors of `CREATE_QUEUE`, in the order of R262: the first check that fails decides, and nothing changes but the
result (R210, R53). -/
def Obligations.CreateQueueErrors : Prop :=
  ∀ (a : CreateArgs) (s : State), s.q.valid = false →
    ((∀ k, 1 ≤ k → k ≤ 31 → a.capacity ≠ 2 ^ k) →
      exec (.createQueue a) s = .next (s.withResult (.precondition .badCapacity))) ∧
    ∀ k, a.capacity = 2 ^ k → 1 ≤ k → k ≤ 31 →
      (a.maxFragments < 1 ∨ 16383 < a.maxFragments →
        exec (.createQueue a) s = .next (s.withResult (.precondition .badMaxFragments))) ∧
      (1 ≤ a.maxFragments → a.maxFragments ≤ 16383 →
        (a.fillThreshold < 1 ∨ a.capacity - 1 < a.fillThreshold →
          exec (.createQueue a) s = .next (s.withResult (.precondition .badThreshold))) ∧
        (1 ≤ a.fillThreshold → a.fillThreshold ≤ a.capacity - 1 →
          (63 < a.pkind ∨ 63 < a.fsz → exec (.createQueue a) s = .next (s.withResult (.precondition .badTag))) ∧
          (a.pkind ≤ 63 → a.fsz ≤ 63 →
            (a.region = .fail → exec (.createQueue a) s = .next (s.withResult (.mapping none))) ∧
            ∀ ringBase sgBase, a.region = .ok ringBase sgBase →
              (ringBase.toNat % 64 ≠ 0 ∨ sgBase.toNat % 8 ≠ 0 ∨ 2 ^ 64 < ringBase.toNat + 64 * a.capacity ∨
                2 ^ 64 < sgBase.toNat + 40 * ((a.maxFragments + 3) / 4) * a.capacity) →
              exec (.createQueue a) s = .next (s.withResult (.precondition .badBase)))))

/-- Every host command other than `CREATE_QUEUE` is refused without a live queue, and `CREATE_QUEUE` with one (R216). -/
def Obligations.CommandValidity : Prop :=
  ∀ (i : Instr) (s : State),
    (isLiveCommand i = true → s.q.valid = false → exec i s = .refused .queueNotValid) ∧
      ∀ a, s.q.valid = true → exec (.createQueue a) s = .refused .queueAlreadyValid

/-- The precondition errors of `TRANSMIT`, in the order of R212: the first that fails decides the reason, whether or not
the ring is full, and nothing changes but the result (R217, R262); and the checks pass exactly the admissible packets. The
offload predicate is the machine's argument (R213; entry 9). -/
def Obligations.TransmitPreconditions : Prop :=
  ∀ (h : Word) (frags : List Frag) (ol : Offload) (last : Bool) (s : State), s.q.valid = true →
    (frags = [] → exec (.transmit h frags ol last) s = .next (s.withResult (.precondition .noHead))) ∧
    (frags ≠ [] →
      (s.cfg.maxf < frags.length →
        exec (.transmit h frags ol last) s = .next (s.withResult (.precondition .tooManyFragments))) ∧
      (frags.length ≤ s.cfg.maxf →
        (¬offloadAllowed s.params.offloadRule ol →
          exec (.transmit h frags ol last) s = .next (s.withResult (.precondition .invalidOffload))) ∧
        (offloadAllowed s.params.offloadRule ol → 65535 < (frags.map Frag.len).sum →
          exec (.transmit h frags ol last) s = .next (s.withResult (.precondition .lengthOverflow))))) ∧
    (txPrecondition s.params.offloadRule s.cfg frags ol = none ↔ admissible s.params.offloadRule s.cfg frags ol)

/-- `TRANSMIT` on a full ring: exactly the dropped and the busy counter grow by one, nothing is mapped (R218, R262). -/
def Obligations.TransmitQueueFull : Prop :=
  ∀ (h : Word) (frags : List Frag) (ol : Offload) (last : Bool) (s : State), s.q.valid = true →
    admissible s.params.offloadRule s.cfg frags ol → isFull s = true →
    exec (.transmit h frags ol last) s = .next { s with
      ctr := { s.ctr with dropped := s.ctr.dropped + 1, busy := s.ctr.busy + 1 }
      result := some .queueFull }

/-- `TRANSMIT` whose fragment `i` is the first that fails to map: the mappings before it are undone in descending order,
the dropped counter grows by one, nothing else changes (R219, R262; the answers stand in `mapAnswers`, entry 4). -/
def Obligations.TransmitMappingRollback : Prop :=
  ∀ (h : Word) (done : List Frag) (f : Frag) (todo : List Frag) (addrs : List Word) (rest : List (Option Word))
    (ol : Offload) (last : Bool) (s : State), s.q.valid = true →
    admissible s.params.offloadRule s.cfg (done ++ f :: todo) ol → isFull s = false → addrs.length = done.length →
    s.mapAnswers = addrs.map some ++ none :: rest →
    exec (.transmit h (done ++ f :: todo) ol last) s = .next { s with
      ctr := { s.ctr with dropped := s.ctr.dropped + 1 }
      mapAnswers := rest
      result := some (.mapping (some done.length))
      trace := s.trace ++ mapEvents addrs done ++ [.dmaMap f.buf f.len none] ++
        ((addrs.zip done).reverse.map fun p => .dmaUnmap p.1 p.2.len) }

/-- `TRANSMIT` of one fragment on a ring with room: a single-buffer descriptor is stored at the write index and nowhere
else, the entry recorded, the indices, counter, doorbell and signals as R215 says; the scatter-gather area is not
touched (R215, R221, R222; the answers stand in `mapAnswers`, entry 4; `db` keeps the value written, entry 12). -/
def Obligations.TransmitSingleAccepted : Prop :=
  ∀ (h : Word) (f : Frag) (addr : Word) (rest : List (Option Word)) (ol : Offload) (last : Bool) (s : State),
    s.q.valid = true → s.cfg.legal → s.q.writeIndex < s.cfg.n → admissible s.params.offloadRule s.cfg [f] ol →
    isFull s = false → pbGet s s.q.writeIndex = none → s.mapAnswers = some addr :: rest →
    exec (.transmit h [f] ol last) s = .next (acceptedState s
      (storeBytes s.mem (slotAddr s.cfg s.q.writeIndex) (descriptorOf s.cfg f.len ol 0 0 addr).val)
      { kind := .single, handle := h, dma := addr, len := BitVec.ofNat 16 f.len, nent := 0 }
      [.dmaMap f.buf f.len (some addr)] rest last 0)

/-- `TRANSMIT` of two or more fragments on a ring with room: the entries are written into the slot's record group
and the unused positions of its last used record zeroed (R113), then a gathered descriptor pointing at the group is stored
at the write index, and the rest is as for one fragment (R215, R221, R152; entries 4 and 12). -/
def Obligations.TransmitGatherAccepted : Prop :=
  ∀ (h : Word) (frags : List Frag) (addrs : List Word) (rest : List (Option Word)) (ol : Offload) (last : Bool)
    (s : State), s.q.valid = true → s.cfg.legal → s.q.writeIndex < s.cfg.n →
    admissible s.params.offloadRule s.cfg frags ol →
    2 ≤ frags.length → isFull s = false → pbGet s s.q.writeIndex = none → addrs.length = frags.length →
    s.mapAnswers = addrs.map some ++ rest →
    ∃ m : Memory,
      (∀ e < frags.length,
        entryInMem m (sgAddr s.cfg s.q.writeIndex 0) e = (buffersOf addrs frags).getD e (0, 0)) ∧
      (∀ e, frags.length ≤ e → e < 4 * ((frags.length + 3) / 4) →
        entryInMem m (sgAddr s.cfg s.q.writeIndex 0) e = (0, 0)) ∧
      (∀ a, a < sgAddr s.cfg s.q.writeIndex 0 ∨
        sgAddr s.cfg s.q.writeIndex 0 + 40 * ((frags.length + 3) / 4) ≤ a → readByte m a = readByte s.mem a) ∧
      exec (.transmit h frags ol last) s = .next (acceptedState s
        (storeBytes m (slotAddr s.cfg s.q.writeIndex)
          (descriptorOf s.cfg (frags.map Frag.len).sum ol (BitVec.ofNat 14 frags.length) 1
            (groupAddr s.cfg s.q.writeIndex)).val)
        { kind := .gather (groupAddr s.cfg s.q.writeIndex), handle := h, dma := addrs.headD 0
          len := BitVec.ofNat 16 (frags.map Frag.len).sum, nent := BitVec.ofNat 14 frags.length }
        (mapEvents addrs frags) rest last ((frags.length + 3) / 4))

/-- `STATS` returns the seven counters and changes nothing (R228). -/
def Obligations.StatsSnapshot : Prop :=
  ∀ s : State, s.q.valid = true → exec .stats s = .next (s.withResult (.stats s.ctr))

/-- `DESTROY_QUEUE` releases every slot in flight, oldest first, each with its unmappings and its handle, counts none of
them, writes no doorbell and ends the queue (R230). That the registers keep these values afterwards is the model's
(R52 leaves them unspecified, entry 19). -/
def Obligations.DestroyReleasesAll : Prop :=
  ∀ (s : State), s.q.valid = true → s.pb.wf → QueueInv s →
    (∀ slot ∈ slotsFrom s.cfg.n s.q.flushIndex (inflight s),
      ∃ e, pbGet s slot = some e ∧ entrySound s.cfg slot e = true) →
    ∃ t : State, exec .destroyQueue s = .next t ∧ t.q.valid = false ∧ t.result = some .done ∧
      (∀ slot, pbGet t slot =
        if slot ∈ slotsFrom s.cfg.n s.q.flushIndex (inflight s) then none else pbGet s slot) ∧
      t.trace = s.trace ++ (entriesFrom s s.q.flushIndex (inflight s)).flatMap (releaseEvents s.mem) ∧
      t.ctr = s.ctr ∧ t.mem = s.mem ∧ t.dev = s.dev ∧ t.q.flushIndex = s.q.writeIndex ∧
      t.q.deviceReadIndex = s.q.writeIndex ∧ t.q.writeIndex = s.q.writeIndex ∧ t.q.fillCount = s.q.fillCount ∧
      t.q.lastCount = s.q.lastCount ∧ t.cfg = s.cfg ∧ t.port = s.port ∧ t.turns = s.turns ∧
      t.mapAnswers = s.mapAnswers ∧ t.mapDraws = s.mapDraws ∧ t.params = s.params

/-! ### Device agent -/

/-- A doorbell write adds its count to what the device has announced, and does nothing else (R242, R34; `db` keeps the
value written, entry 12). -/
def Obligations.DoorbellAddsCount : Prop :=
  ∀ (count : BitVec 32) (s : State), exec (.devDoorbell count) s =
    .next { s with dev := { s.dev with avail := s.dev.avail + count.toNat, db := count } }

/-- The device consumes a single-buffer descriptor: one buffer `(dptr, tlen)`, one `TxPacket`, fetch index and `IC` one
on, one announced descriptor fewer, memory and block unchanged (R243, R109). -/
def Obligations.TxiSingleConsumed : Prop :=
  ∀ (d : TxDesc) (s : State), s.dev.avail ≠ 0 → s.q.valid = true → s.dev.synced = true →
    ¬unproducedDesc false d →
    exec (.txiSingle d) s = .next { s with
      dev := { s.dev with fetchIndex := (s.dev.fetchIndex + 1) % s.cfg.n, avail := s.dev.avail - 1, ic := s.dev.ic + 1 }
      trace := s.trace ++ [.txPacket s.dev.fetchIndex [(d.dptr, d.tlen)] d.tlen d.pkind d.fsz d.txm] }

/-- The device consumes a gathered descriptor: its `gsz` buffers are the entries of the records at `dptr`, entry `e` at
position `e mod 4` of record `e div 4`; the rest is as for a single buffer (R243, R109, R112). -/
def Obligations.TxiGatherConsumed : Prop :=
  ∀ (d : TxDesc) (s : State), s.dev.avail ≠ 0 → s.q.valid = true → s.dev.synced = true →
    ¬unproducedDesc true d → d.dptr.toNat + 40 * ((d.gsz.toNat + 3) / 4) ≤ dmaSpace →
    exec (.txiGather d) s = .next { s with
      dev := { s.dev with fetchIndex := (s.dev.fetchIndex + 1) % s.cfg.n, avail := s.dev.avail - 1, ic := s.dev.ic + 1 }
      trace := s.trace ++ [.txPacket s.dev.fetchIndex
        ((List.range d.gsz.toNat).map (entryInMem s.mem d.dptr.toNat)) d.tlen d.pkind d.fsz d.txm] }

/-- `DEV_CONSUME` reads the eight words of the slot at the fetch index and consumes the descriptor they hold, of either form:
bit 62 of the header tells whether the buffers are the one at the data pointer or the `gsz` entries of the records there; one
`TxPacket`, fetch index and `IC` one on, one announced descriptor fewer, memory and block unchanged (R243, R108, R109). -/
def Obligations.DevConsumePacket : Prop :=
  ∀ (s : State) (b : Bytes 64) (w : InstrWords) (h : IhFields), s.dev.avail ≠ 0 → s.q.valid = true →
    s.dev.synced = true → slotAddr s.cfg s.dev.fetchIndex + 64 ≤ dmaSpace →
    b.val = readBytes s.mem (slotAddr s.cfg s.dev.fetchIndex) 64 → w = decInstr b → h = decIh w.ih →
    ¬unproducedDesc (w.ih.getLsbD 62) (txDescOf w) →
    (w.ih.getLsbD 62 = true → w.dptr.toNat + 40 * ((h.gsz.toNat + 3) / 4) ≤ dmaSpace) →
    exec .devConsume s = .next { s with
      dev := { s.dev with fetchIndex := (s.dev.fetchIndex + 1) % s.cfg.n, avail := s.dev.avail - 1, ic := s.dev.ic + 1 }
      trace := s.trace ++ [.txPacket s.dev.fetchIndex
        (if w.ih.getLsbD 62 then (List.range h.gsz.toNat).map (entryInMem s.mem w.dptr.toNat) else [(w.dptr, h.tlen)])
        h.tlen h.pkind h.fsz (decTxm w.txm0 w.txm1)] }

/-- A device step is not enabled while nothing is announced (R243, R244 item 3), and has no meaning for a descriptor of R114,
given to it or fetched from the ring: each is refused by name. The refusal of a device step without a live queue, or on a
queue created while the device was not idle (R296, U17), is the model's choice (entry 14). -/
def Obligations.DeviceStepRefused : Prop :=
  ∀ (i : Instr) (gather : Bool) (d : TxDesc) (b : Bytes 64) (s : State),
    (i = .devConsume ∨ i = .txiSingle d ∨ i = .txiGather d → s.dev.avail = 0 →
      exec i s = .refused .deviceNotEnabled) ∧
    (i = .devConsume ∨ i = .txiSingle d ∨ i = .txiGather d → s.dev.avail ≠ 0 →
      (s.q.valid = false ∨ s.dev.synced = false) → exec i s = .refused .deviceOutOfContract) ∧
    (i = (if gather then .txiGather d else .txiSingle d) → s.dev.avail ≠ 0 → s.q.valid = true → s.dev.synced = true →
      unproducedDesc gather d → exec i s = .refused .undefinedDescriptor) ∧
    (s.dev.avail ≠ 0 → s.q.valid = true → s.dev.synced = true → slotAddr s.cfg s.dev.fetchIndex + 64 ≤ dmaSpace →
      b.val = readBytes s.mem (slotAddr s.cfg s.dev.fetchIndex) 64 →
      unproducedDesc ((decInstr b).ih.getLsbD 62) (txDescOf (decInstr b)) →
      exec .devConsume s = .refused .undefinedDescriptor)

/-- Record groups that would pass the end of the DMA space, which no descriptor or entry of the block names, fault: the
model's choice (R63; entry 18). -/
def Obligations.OutsideDmaSpaceFaults : Prop :=
  ∀ (slot : Nat) (e : PbEntry) (a : Word) (d : TxDesc) (s : State), s.q.valid = true →
    (slot < s.cfg.n → pbGet s slot = some e → e.kind = .gather a →
      dmaSpace < a.toNat + 40 * ((e.nent.toNat + 3) / 4) → exec (.pbRelease slot) s = .fault .outsideDmaSpace) ∧
    (s.dev.avail ≠ 0 → s.dev.synced = true → ¬unproducedDesc true d →
      dmaSpace < d.dptr.toNat + 40 * ((d.gsz.toNat + 3) / 4) → exec (.txiGather d) s = .fault .outsideDmaSpace) ∧
    (s.dev.avail ≠ 0 → s.dev.synced = true → dmaSpace < slotAddr s.cfg s.dev.fetchIndex + 64 →
      exec .devConsume s = .fault .outsideDmaSpace)

/-- What `TRANSMIT` accepts is what the device transmits (R77, R109, R215, R243): once the device fetches the slot, it
emits the packet with the address that every fragment's `DmaMap` answered and its length in order, the total length, the
queue's tag and front size, and the requested offload with unused fields zero (R214, R105). The queue's two regions are apart
(R62), and no flag of R104's reserved ones is requested, which the spec's default `OFFLOAD_VALID` excludes (R213); that
another predicate may admit them is the model's choice (entry 9). The fixed answers stand in `mapAnswers` (entry 4). -/
def Obligations.DeviceSeesAcceptedPacket : Prop :=
  ∀ (h : Word) (frags : List Frag) (ol : Offload) (last : Bool) (s t : State), RingInv s → regionsDisjoint s.cfg →
    (s.params.offloadRule = .specDefault ∨ ol.flags < 128) → exec (.transmit h frags ol last) s = .next t →
    (∃ used stop, t.result = some (.accepted used stop)) →
    ∃ (addrs : List Word) (more : List Event) (m : TxmFields) (u : State), addrs.length = frags.length ∧
      s.mapAnswers.take frags.length <+: addrs.map some ∧ t.trace = s.trace ++ mapEvents addrs frags ++ more ∧
      carriesOffload m ol ∧
      exec .devConsume
        (t.withDev { t.dev with fetchIndex := s.q.writeIndex, avail := 1, synced := true }) = .next u ∧
      u.trace = t.trace ++ [.txPacket s.q.writeIndex (buffersOf addrs frags)
        (BitVec.ofNat 16 (frags.map Frag.len).sum) s.cfg.pkind s.cfg.fsz m]

/-! ### Invariants -/

/-- Memory and table in canonical form, and of a live queue: a legal configuration, the three indices slot numbers in
ring order, every live entry inside the ring. Every step keeps it (R26, R199, R21). -/
def Obligations.RingInvKept : Prop := ∀ s t : State, RingInv s → step s = .next t → RingInv t

/-- The machine after reset meets the ring invariant, and has no live queue (R290, R52). -/
def Obligations.RingInvAtReset : Prop := RingInv State.reset ∧ State.reset.q.valid = false

/-- The contract of host and device (R45 slot ownership, R46, R241 fetch position, R246 count bound, R302 fewer
unannounced than the threshold) is kept by every host command, with the device idle at a creation (R296), and by every
device step (R243). -/
def Obligations.ContractKept : Prop :=
  ∀ (i : Instr) (s t : State), ContractInv s → (isHostCommand i = true ∨ i = .devConsume) →
    meetsCreationContract i s = true → exec i s = .next t → ContractInv t

/-- On a queue driven by host commands and its device every host command completes, `RECLAIM`, `ANNOUNCE`, `STATS` and
`DESTROY_QUEUE` without an error, and none ever ends in a table error (R175, R261, R311). -/
def Obligations.HostCommandsComplete : Prop :=
  ∀ (i : Instr) (s : State), ContractInv s → s.q.valid = true → isLiveCommand i = true →
    ∃ t r, exec i s = .next t ∧ t.result = some r ∧ (∀ slot, r ≠ .pbAlreadyInFlight slot ∧ r ≠ .pbNotInFlight slot) ∧
      ((∃ h frags ol last, i = .transmit h frags ol last) ∨ resultCode r = some 0)

/-- No host command and no device step writes the region of a slot that the device may own, on a queue whose two regions
are apart (R72, R73, R79). -/
def Obligations.OwnedRegionsUntouched : Prop :=
  ∀ (i : Instr) (s t : State) (slot a : Nat), ContractInv s → s.q.valid = true → regionsDisjoint s.cfg →
    (isHostCommand i = true ∨ i = .devConsume) → exec i s = .next t → slot < s.cfg.n → mayOwn s slot →
    inSlotRegion s.cfg slot a → readByte t.mem a = readByte s.mem a

/-- Handle conservation (R172): what a command takes in it holds or gives back, and nothing else; each handle leaves
exactly once. -/
def Obligations.HandleConservation : Prop :=
  ∀ (i : Instr) (s t : State), RingInv s → (isLiveCommand i = true ∨ i = .devConsume) → exec i s = .next t →
    (returnedHandles t.trace ++ heldHandles t).Perm (takenHandles i t ++ returnedHandles s.trace ++ heldHandles s)

/-- The mappings a slot holds after an accepted packet are those that the packet's `DmaMap`s answered, so its release undoes
each of them once, with the same length (R173, R79), on a queue whose two regions are apart. -/
def Obligations.AcceptedMappingsRecorded : Prop :=
  ∀ (h : Word) (frags : List Frag) (ol : Offload) (last : Bool) (s t : State), RingInv s → regionsDisjoint s.cfg →
    exec (.transmit h frags ol last) s = .next t → (∃ used stop, t.result = some (.accepted used stop)) →
    ∃ (addrs : List Word) (more : List Event) (e : PbEntry), addrs.length = frags.length ∧
      s.mapAnswers.take frags.length <+: addrs.map some ∧ t.trace = s.trace ++ mapEvents addrs frags ++ more ∧
      pbGet t s.q.writeIndex = some e ∧ e.handle = h ∧
      mappingsOf t.mem e = (addrs.zip frags).map fun p => (p.1, p.2.len)

/-- Queues are independent (R283): a step of one leaves the state of every other as it was, and takes its own as its
single-queue step does. That a block is a list of states, each with a memory and mapping answers of its own, is the model's
way of saying that nothing is shared (entry 22). -/
def Obligations.QueuesIndependent : Prop :=
  ∀ (k j : Nat) (before after : Block), blockStep k before = .next after →
    (j ≠ k → after[j]? = before[j]?) ∧
      ∃ s t, before[k]? = some s ∧ step s = .next t ∧ after[k]? = some t

end
end

