-- ==== Sys2Proof/Laws/Codec.lean ====
section
/-! SUPPORT. Little-endian bytes (R12) and where the fields of the layouts stand: the facts that the codec statements and
the reading back of descriptors and records rest on. -/

namespace Sys2Proof.Machine

/-! ### Little-endian numbers -/

theorem fromLE_leBytes (n v : Nat) : fromLE (leBytes n v) = v % 256 ^ n := by
  induction n generalizing v with
  | zero => simp [leBytes, fromLE, Nat.mod_one]
  | succ n ih =>
    simp only [leBytes, fromLE, ih, BitVec.toNat_ofNat]
    rw [show 256 ^ (n + 1) = 256 * 256 ^ n by ring, Nat.mod_mul]

theorem fromLE_lt (bs : List Byte) : fromLE bs < 256 ^ bs.length := by
  induction bs with
  | nil => simp [fromLE]
  | cons b bs ih =>
    have := b.isLt
    simp only [fromLE, List.length_cons, Nat.pow_succ]
    omega

theorem leBytes_fromLE (bs : List Byte) : leBytes bs.length (fromLE bs) = bs := by
  induction bs with
  | nil => rfl
  | cons b bs ih =>
    have hb := b.isLt
    simp only [fromLE, List.length_cons, leBytes]
    rw [show (b.toNat + 256 * fromLE bs) / 256 = fromLE bs by omega, ih]
    congr 1
    apply BitVec.eq_of_toNat_eq
    rw [BitVec.toNat_ofNat]
    omega

/-- A number that fits `n` bytes reads back from them. -/
theorem fromLE_leBytes_of_lt {n v : Nat} (h : v < 256 ^ n) : fromLE (leBytes n v) = v := by
  rw [fromLE_leBytes, Nat.mod_eq_of_lt h]

/-- A bit vector that fits `n` bytes reads back from them. -/
theorem ofNat_fromLE_leBytes {n w : Nat} (v : BitVec w) (h : 2 ^ w ≤ 256 ^ n) :
    BitVec.ofNat w (fromLE (leBytes n v.toNat)) = v := by
  rw [fromLE_leBytes_of_lt (Nat.lt_of_lt_of_le v.isLt h), BitVec.ofNat_toNat, BitVec.setWidth_eq]

@[simp] theorem leBytes_length' (n v : Nat) : (leBytes n v).length = n := leBytes_length n v

@[simp] theorem le8_length' (w : Word) : (le8 w).length = 8 := le8_length w

/-! ### Pieces of a byte list -/

/-- The piece that begins where its predecessors end. -/
theorem slice_append (pre mid post : List Byte) : slice (pre ++ (mid ++ post)) pre.length mid.length = mid := by
  simp [slice]

theorem word64_append (pre post : List Byte) (w : Word) {o : Nat} (h : pre.length = o) :
    word64 (pre ++ (le8 w ++ post)) o = w := by
  subst h
  have := slice_append pre (le8 w) post
  rw [le8_length] at this
  rw [word64, this, le8, ofNat_fromLE_leBytes w (by decide)]

/-- Eight bytes are the little-endian form of the word read from them. -/
theorem le8_word64 {bs : List Byte} {o : Nat} (h : o + 8 ≤ bs.length) : le8 (word64 bs o) = slice bs o 8 := by
  have hl : (slice bs o 8).length = 8 := by simp [slice]; omega
  have hlt := fromLE_lt (slice bs o 8)
  rw [hl] at hlt
  have := leBytes_fromLE (slice bs o 8)
  rw [hl] at this
  rw [le8, word64, BitVec.toNat_ofNat, Nat.mod_eq_of_lt (by simpa using hlt), this]

/-! ### Numbers of records (R113) -/

theorem nrec_mul (e : Nat) : e ≤ 4 * nrec e := by simp only [nrec]; omega

theorem nrec_le {e m : Nat} (h : e ≤ m) : nrec e ≤ nrec m := by simp only [nrec]; omega

theorem nrec_pos {e : Nat} (h : 1 ≤ e) : 1 ≤ nrec e := by simp only [nrec]; omega

theorem div4_lt_nrec {i e : Nat} (h : i < e) : i / 4 < nrec e := by simp only [nrec]; omega

end Sys2Proof.Machine
end

