-- ==== Sys2Proof/Laws/Index.lean ====
section
/-! SUPPORT. Index arithmetic (R203) without `mod`: each operation of Machine/Flags.lean by cases, and what follows from
it about windows of slots. -/

namespace Sys2Proof.Machine

theorem idxDiff_eq {n a b : Nat} (ha : a < n) (hb : b < n) :
    idxDiff n a b = if b ≤ a then a - b else a + n - b := by
  rw [idxDiff, Nat.mod_eq_of_lt hb]
  split
  · rw [show a + (n - b) = a - b + n by omega, Nat.add_mod_right, Nat.mod_eq_of_lt (by omega)]
  · rw [Nat.mod_eq_of_lt (by omega)]; omega

theorem idxInc_eq {n i : Nat} (hi : i < n) : idxInc n i = if i + 1 = n then 0 else i + 1 := by
  rw [idxInc]
  split
  · next h => simp [h]
  · exact Nat.mod_eq_of_lt (by omega)

theorem idxAdd_eq {n i k : Nat} (hi : i < n) (hk : k < n) : idxAdd n i k = if i + k < n then i + k else i + k - n := by
  rw [idxAdd]
  split
  · next h => exact Nat.mod_eq_of_lt h
  · rw [show i + k = i + k - n + n by omega, Nat.add_mod_right, Nat.mod_eq_of_lt (by omega)]; omega

theorem idxInc_lt {n : Nat} (hn : 0 < n) (i : Nat) : idxInc n i < n := Nat.mod_lt _ hn

theorem idxAdd_lt {n : Nat} (hn : 0 < n) (i k : Nat) : idxAdd n i k < n := Nat.mod_lt _ hn

theorem idxDiff_lt {n : Nat} (hn : 0 < n) (a b : Nat) : idxDiff n a b < n := Nat.mod_lt _ hn

theorem idxAdd_zero {n i : Nat} (hi : i < n) : idxAdd n i 0 = i := Nat.mod_eq_of_lt hi

theorem idxAdd_one (n i : Nat) : idxAdd n i 1 = idxInc n i := rfl

theorem idxAdd_add (n i j k : Nat) : idxAdd n (idxAdd n i j) k = idxAdd n i (j + k) := by
  simp [idxAdd, Nat.add_assoc]

theorem idxInc_idxAdd (n i k : Nat) : idxInc n (idxAdd n i k) = idxAdd n i (k + 1) := by
  rw [← idxAdd_one, idxAdd_add]

theorem idxDiff_self {n a : Nat} (ha : a < n) : idxDiff n a a = 0 := by simp [idxDiff_eq ha ha]

theorem idxDiff_eq_zero {n a b : Nat} (ha : a < n) (hb : b < n) : idxDiff n a b = 0 ↔ a = b := by
  rw [idxDiff_eq ha hb]; split <;> omega

/-- Going forward by the difference arrives. -/
theorem idxAdd_idxDiff {n a b : Nat} (ha : a < n) (hb : b < n) : idxAdd n b (idxDiff n a b) = a := by
  rw [idxAdd_eq hb (idxDiff_lt (by omega) a b), idxDiff_eq ha hb]
  split <;> split <;> omega

/-- The slot `k` forward from `b` is `k` slots from `b`. -/
theorem idxDiff_idxAdd {n b k : Nat} (hb : b < n) (hk : k < n) : idxDiff n (idxAdd n b k) b = k := by
  rw [idxDiff_eq (idxAdd_lt (by omega) b k) hb, idxAdd_eq hb hk]
  split <;> split <;> omega

/-- Moving the front on by `k` widens the window by `k`, while it fits. -/
theorem idxDiff_idxAdd_left {n a b k : Nat} (ha : a < n) (hb : b < n) (h : idxDiff n a b + k < n) :
    idxDiff n (idxAdd n a k) b = idxDiff n a b + k := by
  have hk : k < n := by omega
  rw [idxDiff_eq ha hb] at h
  rw [idxDiff_eq (idxAdd_lt (by omega) a k) hb, idxDiff_eq ha hb, idxAdd_eq ha hk]
  revert h
  split <;> split <;> split <;> omega

/-- Moving the rear on by `k` narrows the window by `k`, while it lasts. -/
theorem idxDiff_idxAdd_right {n a b k : Nat} (ha : a < n) (hb : b < n) (h : k ≤ idxDiff n a b) :
    idxDiff n a (idxAdd n b k) = idxDiff n a b - k := by
  have hk : k < n := Nat.lt_of_le_of_lt h (idxDiff_lt (by omega) a b)
  rw [idxDiff_eq ha hb] at h
  rw [idxDiff_eq ha (idxAdd_lt (by omega) b k), idxDiff_eq ha hb, idxAdd_eq hb hk]
  revert h
  split <;> split <;> split <;> omega

/-- A post widens the window by one. -/
theorem idxDiff_idxInc {n a b : Nat} (ha : a < n) (hb : b < n) (h : idxDiff n a b < n - 1) :
    idxDiff n (idxInc n a) b = idxDiff n a b + 1 := idxDiff_idxAdd_left (k := 1) ha hb (by omega)

/-- The window grown by its front slot: the slots of the old window and that slot. -/
theorem window_idxInc {n w f slot : Nat} (hw : w < n) (hf : f < n) (hs : slot < n) (h : idxDiff n w f < n - 1) :
    idxDiff n slot f < idxDiff n (idxInc n w) f ↔ slot = w ∨ idxDiff n slot f < idxDiff n w f := by
  rw [idxDiff_idxInc hw hf h, idxDiff_eq hs hf, idxDiff_eq hw hf]
  split <;> split <;> omega

/-- The window's first slot left out. -/
theorem window_drop {n w f slot : Nat} (hw : w < n) (hf : f < n) (hs : slot < n) (h : 0 < idxDiff n w f) :
    idxDiff n slot (idxInc n f) < idxDiff n w (idxInc n f) ↔ slot ≠ f ∧ idxDiff n slot f < idxDiff n w f := by
  have hi := idxInc_lt (show 0 < n by omega) f
  rw [idxDiff_eq hw hf] at h
  rw [idxDiff_eq hs hi, idxDiff_eq hw hi, idxDiff_eq hs hf, idxDiff_eq hw hf, idxInc_eq hf]
  revert h
  split <;> split <;> split <;> split <;> (try split) <;> omega

/-- The slot about to be posted is outside the window. -/
theorem front_not_in_window {n w f : Nat} : ¬ idxDiff n w f < idxDiff n w f := Nat.lt_irrefl _

/-- The test of R9 for a power of two is right. -/
theorem isPow2_iff {n : Nat} : isPow2 n = true ↔ ∃ k, n = 2 ^ k := by
  constructor
  · intro h
    simp only [isPow2, Bool.and_eq_true, bne_iff_ne, ne_eq, beq_iff_eq] at h
    obtain ⟨h0, h1⟩ := h
    refine ⟨n.log2, ?_⟩
    have h2 := Nat.log2_self_le h0
    by_contra hne
    have h3 : n - 1 ≠ 0 := by have := Nat.one_le_two_pow (n := n.log2); omega
    have h4 : (n - 1).log2 = n.log2 := by
      have := Nat.lt_log2_self (n := n)
      rw [Nat.log2_eq_iff h3]
      omega
    have h5 := congrArg (fun m => m.testBit n.log2) h1
    simp only [Nat.testBit_and, Nat.testBit_log2 h0, Nat.zero_testBit, Bool.true_and] at h5
    rw [← h4, Nat.testBit_log2 h3] at h5
    cases h5
  · rintro ⟨k, rfl⟩
    simp [isPow2, Nat.and_two_pow_sub_one_eq_mod]

end Sys2Proof.Machine
end

