-- ==== Sys2Proof/Laws/Memory.lean ====
section
/-! SUPPORT. The laws of the two tables (memory and pending buffers): read after write, a write leaves every other key
alone, and every operation keeps the canonical form. -/

namespace Sys2Proof.Machine

section Sparse

variable {α : Type}

/-! ### Canonical form, seen from the front -/

theorem sparseWf_cons {k : Nat} {v : α} {l : List (Nat × α)} :
    sparseWf ((k, v) :: l) ↔ (∀ p ∈ l, k < p.1) ∧ sparseWf l := by
  simp [sparseWf, List.pairwise_cons]

theorem sparseGet_eq_none_of_lt {k : Nat} {l : List (Nat × α)} (h : ∀ p ∈ l, k < p.1) : sparseGet k l = none := by
  induction l with
  | nil => rfl
  | cons p l ih =>
    obtain ⟨k', v⟩ := p
    have hk : k < k' := h (k', v) (by simp)
    simp [sparseGet, Nat.ne_of_lt hk, ih fun q hq => h q (List.mem_cons_of_mem _ hq)]

/-! ### Reading after listing or deleting -/

theorem sparseGet_put_self (k : Nat) (v : α) (l : List (Nat × α)) : sparseGet k (sparsePut k v l) = some v := by
  induction l with
  | nil => simp [sparsePut, sparseGet]
  | cons p l ih =>
    obtain ⟨k', v'⟩ := p
    simp only [sparsePut]
    split
    · simp [sparseGet]
    · split
      · simp [sparseGet]
      · next h => simp [sparseGet, h, ih]

theorem sparseGet_put_ne {k j : Nat} (h : j ≠ k) (v : α) (l : List (Nat × α)) :
    sparseGet j (sparsePut k v l) = sparseGet j l := by
  induction l with
  | nil => simp [sparsePut, sparseGet, h]
  | cons p l ih =>
    obtain ⟨k', v'⟩ := p
    simp only [sparsePut]
    split
    · simp [sparseGet, h]
    · split
      · next hk => subst hk; simp [sparseGet, h]
      · simp [sparseGet, ih]

theorem sparseGet_put (j k : Nat) (v : α) (l : List (Nat × α)) :
    sparseGet j (sparsePut k v l) = if j = k then some v else sparseGet j l := by
  split
  · next h => subst h; exact sparseGet_put_self _ v l
  · next h => exact sparseGet_put_ne h v l

theorem sparseGet_del_ne {k j : Nat} (h : j ≠ k) (l : List (Nat × α)) : sparseGet j (sparseDel k l) = sparseGet j l := by
  induction l with
  | nil => rfl
  | cons p l ih =>
    obtain ⟨k', v'⟩ := p
    simp only [sparseDel]
    split
    · next hk => subst hk; simp [sparseGet, h]
    · simp [sparseGet, ih]

theorem sparseGet_del_self {k : Nat} {l : List (Nat × α)} (h : sparseWf l) : sparseGet k (sparseDel k l) = none := by
  induction l with
  | nil => rfl
  | cons p l ih =>
    obtain ⟨k', v'⟩ := p
    obtain ⟨hlt, hl⟩ := sparseWf_cons.mp h
    simp only [sparseDel]
    split
    · next hk => subst hk; exact sparseGet_eq_none_of_lt hlt
    · next hk => simp [sparseGet, hk, ih hl]

theorem sparseGet_del {l : List (Nat × α)} (h : sparseWf l) (j k : Nat) :
    sparseGet j (sparseDel k l) = if j = k then none else sparseGet j l := by
  split
  · next hk => subst hk; exact sparseGet_del_self h
  · next hk => exact sparseGet_del_ne hk l

/-! ### Membership -/

theorem sparseGet_mem {k : Nat} {v : α} {l : List (Nat × α)} (h : sparseGet k l = some v) : (k, v) ∈ l := by
  induction l with
  | nil => simp [sparseGet] at h
  | cons p l ih =>
    obtain ⟨k', v'⟩ := p
    simp only [sparseGet] at h
    split at h
    · next hk => subst hk; simp_all
    · exact List.mem_cons_of_mem _ (ih h)

theorem sparseGet_of_mem {k : Nat} {v : α} {l : List (Nat × α)} (hl : sparseWf l) (h : (k, v) ∈ l) :
    sparseGet k l = some v := by
  induction l with
  | nil => simp at h
  | cons p l ih =>
    obtain ⟨k', v'⟩ := p
    obtain ⟨hlt, hl'⟩ := sparseWf_cons.mp hl
    rcases List.mem_cons.mp h with h | h
    · simp_all [sparseGet]
    · have hne : k ≠ k' := Nat.ne_of_gt (hlt (k, v) h)
      simp [sparseGet, hne, ih hl' h]

theorem mem_sparsePut {k : Nat} {v : α} {l : List (Nat × α)} {p : Nat × α} (h : p ∈ sparsePut k v l) :
    p = (k, v) ∨ p ∈ l := by
  induction l with
  | nil => simp_all [sparsePut]
  | cons q l ih =>
    obtain ⟨k', v'⟩ := q
    simp only [sparsePut] at h
    split at h
    · simpa using h
    · split at h
      · rcases List.mem_cons.mp h with h | h
        · exact .inl h
        · exact .inr (List.mem_cons_of_mem _ h)
      · rcases List.mem_cons.mp h with h | h
        · exact .inr (by simp [h])
        · exact (ih h).imp_right (List.mem_cons_of_mem _)

theorem mem_sparseDel {k : Nat} {l : List (Nat × α)} {p : Nat × α} (h : p ∈ sparseDel k l) : p ∈ l := by
  induction l with
  | nil => simp [sparseDel] at h
  | cons q l ih =>
    obtain ⟨k', v'⟩ := q
    simp only [sparseDel] at h
    split at h
    · exact List.mem_cons_of_mem _ h
    · rcases List.mem_cons.mp h with h | h
      · simp [h]
      · exact List.mem_cons_of_mem _ (ih h)

/-! ### The canonical form is kept -/

theorem sparseWf_put {l : List (Nat × α)} (h : sparseWf l) (k : Nat) (v : α) : sparseWf (sparsePut k v l) := by
  induction l with
  | nil => simp [sparsePut, sparseWf]
  | cons p l ih =>
    obtain ⟨k', v'⟩ := p
    obtain ⟨hlt, hl⟩ := sparseWf_cons.mp h
    simp only [sparsePut]
    split
    · next hk =>
      refine sparseWf_cons.mpr ⟨fun q hq => ?_, h⟩
      rcases List.mem_cons.mp hq with hq | hq
      · simpa [hq] using hk
      · exact Nat.lt_trans hk (hlt q hq)
    · split
      · next hk => subst hk; exact sparseWf_cons.mpr ⟨hlt, hl⟩
      · next hlt' hne =>
        refine sparseWf_cons.mpr ⟨fun q hq => ?_, ih hl⟩
        rcases mem_sparsePut hq with hq | hq
        · simp [hq]; omega
        · exact hlt q hq

theorem sparseWf_del {l : List (Nat × α)} (h : sparseWf l) (k : Nat) : sparseWf (sparseDel k l) := by
  induction l with
  | nil => exact h
  | cons p l ih =>
    obtain ⟨k', v'⟩ := p
    obtain ⟨hlt, hl⟩ := sparseWf_cons.mp h
    simp only [sparseDel]
    split
    · exact hl
    · exact sparseWf_cons.mpr ⟨fun q hq => hlt q (mem_sparseDel hq), ih hl⟩

/-- In canonical form, equal contents are equal lists. -/
theorem sparse_ext {l l' : List (Nat × α)} (h : sparseWf l) (h' : sparseWf l')
    (he : ∀ k, sparseGet k l = sparseGet k l') : l = l' := by
  induction l generalizing l' with
  | nil =>
    cases l' with
    | nil => rfl
    | cons p l' => have := he p.1; simp [sparseGet] at this
  | cons p l ih =>
    obtain ⟨k, v⟩ := p
    obtain ⟨hlt, hl⟩ := sparseWf_cons.mp h
    cases l' with
    | nil => have := he k; simp [sparseGet] at this
    | cons p' l' =>
      obtain ⟨k', v'⟩ := p'
      obtain ⟨hlt', hl'⟩ := sparseWf_cons.mp h'
      have hk : k = k' := by
        rcases Nat.lt_trichotomy k k' with hkk | hkk | hkk
        · have hn : sparseGet k ((k', v') :: l') = none :=
            sparseGet_eq_none_of_lt fun q hq => by
              rcases List.mem_cons.mp hq with rfl | hq
              · exact hkk
              · exact Nat.lt_trans hkk (hlt' q hq)
          have := he k; rw [hn] at this; simp [sparseGet] at this
        · exact hkk
        · have hn : sparseGet k' ((k, v) :: l) = none :=
            sparseGet_eq_none_of_lt fun q hq => by
              rcases List.mem_cons.mp hq with rfl | hq
              · exact hkk
              · exact Nat.lt_trans hkk (hlt q hq)
          have := he k'; rw [hn] at this; simp [sparseGet] at this
      subst hk
      have hv : v = v' := by have := he k; simpa [sparseGet] using this
      subst hv
      congr 1
      refine ih hl hl' fun j => ?_
      by_cases hj : j = k
      · subst hj
        rw [sparseGet_eq_none_of_lt hlt, sparseGet_eq_none_of_lt hlt']
      · have := he j; simpa [sparseGet, hj] using this

/-- Deleting what was just listed gives the table back. -/
theorem sparseDel_put {k : Nat} {v : α} {l : List (Nat × α)} (h : sparseWf l) (hk : sparseGet k l = none) :
    sparseDel k (sparsePut k v l) = l := by
  refine sparse_ext (sparseWf_del (sparseWf_put h k v) k) h fun j => ?_
  rw [sparseGet_del (sparseWf_put h k v)]
  split
  · next hj => subst hj; exact hk.symm
  · next hj => exact sparseGet_put_ne hj v l

end Sparse

/-! ### Memory -/

theorem wf_storeBytes {m : Memory} (h : m.wf) {a : Nat} {bs : List Byte} (hb : a + bs.length ≤ dmaSpace) :
    (storeBytes m a bs).wf := by
  induction bs generalizing m a with
  | nil => exact h
  | cons b bs ih =>
    simp only [List.length_cons] at hb
    refine ih ⟨sparseWf_put h.1 a b, fun c hc => ?_⟩ (by omega)
    rcases mem_sparsePut hc with rfl | hc
    · simp; omega
    · exact h.2 c hc

/-- A store leaves every byte outside it alone. -/
theorem readByte_storeBytes_outside (m : Memory) {a c : Nat} {bs : List Byte} (h : c < a ∨ a + bs.length ≤ c) :
    readByte (storeBytes m a bs) c = readByte m c := by
  induction bs generalizing m a with
  | nil => rfl
  | cons b bs ih =>
    simp only [List.length_cons] at h
    rw [storeBytes, ih _ (by omega), readByte, readByte, sparseGet_put_ne (by omega)]

/-- A byte just stored reads back. -/
theorem readByte_storeBytes_inside (m : Memory) {a i : Nat} {bs : List Byte} (h : i < bs.length) :
    readByte (storeBytes m a bs) (a + i) = bs[i] := by
  induction bs generalizing m a i with
  | nil => simp at h
  | cons b bs ih =>
    cases i with
    | zero =>
      rw [storeBytes, readByte_storeBytes_outside _ (.inl (by omega)), readByte, Nat.add_zero, sparseGet_put_self]
      rfl
    | succ i =>
      have := ih (sparsePut a b m) (a := a + 1) (i := i) (by simpa using h)
      simpa [storeBytes, Nat.add_assoc, Nat.add_comm 1 i] using this

theorem readBytes_getElem (m : Memory) {a n i : Nat} (h : i < (readBytes m a n).length) :
    (readBytes m a n)[i] = readByte m (a + i) := by
  induction n generalizing a i with
  | zero => simp [readBytes] at h
  | succ n ih =>
    cases i with
    | zero => rfl
    | succ i =>
      simp only [readBytes, List.getElem_cons_succ]
      rw [ih]
      congr 1
      omega

/-- Bytes just stored read back. -/
theorem readBytes_storeBytes_self (m : Memory) (a : Nat) (bs : List Byte) :
    readBytes (storeBytes m a bs) a bs.length = bs := by
  refine List.ext_getElem (readBytes_length _ _ _) fun i h _ => ?_
  rw [readBytes_getElem]
  exact readByte_storeBytes_inside m _

/-- Reading depends on the bytes read only. -/
theorem readBytes_congr {m m' : Memory} {a n : Nat} (h : ∀ c, a ≤ c → c < a + n → readByte m c = readByte m' c) :
    readBytes m a n = readBytes m' a n := by
  induction n generalizing a with
  | zero => rfl
  | succ n ih =>
    rw [readBytes, readBytes, h a (Nat.le_refl _) (by omega), ih fun c h1 h2 => h c (by omega) (by omega)]

theorem readBytes_storeBytes_outside (m : Memory) {a c n : Nat} {bs : List Byte}
    (h : c + n ≤ a ∨ a + bs.length ≤ c) : readBytes (storeBytes m a bs) c n = readBytes m c n :=
  readBytes_congr fun _ _ _ => readByte_storeBytes_outside m (by omega)

end Sys2Proof.Machine
end

