-- ==== Sys2Proof/Laws/State.lean ====
section
/-! SUPPORT. What each update of the state leaves in each field: one lemma per field per update, all by definition. -/

namespace Sys2Proof.Machine

/-! ### `State.withCfg` -/

@[simp] theorem State.withCfg_cfg (s : State) (c : Cfg) : (s.withCfg c).cfg = c := rfl
@[simp] theorem State.withCfg_q (s : State) (c : Cfg) : (s.withCfg c).q = s.q := rfl
@[simp] theorem State.withCfg_ctr (s : State) (c : Cfg) : (s.withCfg c).ctr = s.ctr := rfl
@[simp] theorem State.withCfg_pb (s : State) (c : Cfg) : (s.withCfg c).pb = s.pb := rfl
@[simp] theorem State.withCfg_mem (s : State) (c : Cfg) : (s.withCfg c).mem = s.mem := rfl
@[simp] theorem State.withCfg_dev (s : State) (c : Cfg) : (s.withCfg c).dev = s.dev := rfl
@[simp] theorem State.withCfg_port (s : State) (c : Cfg) : (s.withCfg c).port = s.port := rfl
@[simp] theorem State.withCfg_turns (s : State) (c : Cfg) : (s.withCfg c).turns = s.turns := rfl
@[simp] theorem State.withCfg_mapAnswers (s : State) (c : Cfg) : (s.withCfg c).mapAnswers = s.mapAnswers := rfl
@[simp] theorem State.withCfg_mapDraws (s : State) (c : Cfg) : (s.withCfg c).mapDraws = s.mapDraws := rfl
@[simp] theorem State.withCfg_params (s : State) (c : Cfg) : (s.withCfg c).params = s.params := rfl
@[simp] theorem State.withCfg_result (s : State) (c : Cfg) : (s.withCfg c).result = s.result := rfl
@[simp] theorem State.withCfg_trace (s : State) (c : Cfg) : (s.withCfg c).trace = s.trace := rfl

/-! ### `State.withQ` -/

@[simp] theorem State.withQ_cfg (s : State) (q : Queue) : (s.withQ q).cfg = s.cfg := rfl
@[simp] theorem State.withQ_q (s : State) (q : Queue) : (s.withQ q).q = q := rfl
@[simp] theorem State.withQ_ctr (s : State) (q : Queue) : (s.withQ q).ctr = s.ctr := rfl
@[simp] theorem State.withQ_pb (s : State) (q : Queue) : (s.withQ q).pb = s.pb := rfl
@[simp] theorem State.withQ_mem (s : State) (q : Queue) : (s.withQ q).mem = s.mem := rfl
@[simp] theorem State.withQ_dev (s : State) (q : Queue) : (s.withQ q).dev = s.dev := rfl
@[simp] theorem State.withQ_port (s : State) (q : Queue) : (s.withQ q).port = s.port := rfl
@[simp] theorem State.withQ_turns (s : State) (q : Queue) : (s.withQ q).turns = s.turns := rfl
@[simp] theorem State.withQ_mapAnswers (s : State) (q : Queue) : (s.withQ q).mapAnswers = s.mapAnswers := rfl
@[simp] theorem State.withQ_mapDraws (s : State) (q : Queue) : (s.withQ q).mapDraws = s.mapDraws := rfl
@[simp] theorem State.withQ_params (s : State) (q : Queue) : (s.withQ q).params = s.params := rfl
@[simp] theorem State.withQ_result (s : State) (q : Queue) : (s.withQ q).result = s.result := rfl
@[simp] theorem State.withQ_trace (s : State) (q : Queue) : (s.withQ q).trace = s.trace := rfl

/-! ### `State.withCtr` -/

@[simp] theorem State.withCtr_cfg (s : State) (c : Counters) : (s.withCtr c).cfg = s.cfg := rfl
@[simp] theorem State.withCtr_q (s : State) (c : Counters) : (s.withCtr c).q = s.q := rfl
@[simp] theorem State.withCtr_ctr (s : State) (c : Counters) : (s.withCtr c).ctr = c := rfl
@[simp] theorem State.withCtr_pb (s : State) (c : Counters) : (s.withCtr c).pb = s.pb := rfl
@[simp] theorem State.withCtr_mem (s : State) (c : Counters) : (s.withCtr c).mem = s.mem := rfl
@[simp] theorem State.withCtr_dev (s : State) (c : Counters) : (s.withCtr c).dev = s.dev := rfl
@[simp] theorem State.withCtr_port (s : State) (c : Counters) : (s.withCtr c).port = s.port := rfl
@[simp] theorem State.withCtr_turns (s : State) (c : Counters) : (s.withCtr c).turns = s.turns := rfl
@[simp] theorem State.withCtr_mapAnswers (s : State) (c : Counters) : (s.withCtr c).mapAnswers = s.mapAnswers := rfl
@[simp] theorem State.withCtr_mapDraws (s : State) (c : Counters) : (s.withCtr c).mapDraws = s.mapDraws := rfl
@[simp] theorem State.withCtr_params (s : State) (c : Counters) : (s.withCtr c).params = s.params := rfl
@[simp] theorem State.withCtr_result (s : State) (c : Counters) : (s.withCtr c).result = s.result := rfl
@[simp] theorem State.withCtr_trace (s : State) (c : Counters) : (s.withCtr c).trace = s.trace := rfl

/-! ### `State.withPb` -/

@[simp] theorem State.withPb_cfg (s : State) (p : PbTable) : (s.withPb p).cfg = s.cfg := rfl
@[simp] theorem State.withPb_q (s : State) (p : PbTable) : (s.withPb p).q = s.q := rfl
@[simp] theorem State.withPb_ctr (s : State) (p : PbTable) : (s.withPb p).ctr = s.ctr := rfl
@[simp] theorem State.withPb_pb (s : State) (p : PbTable) : (s.withPb p).pb = p := rfl
@[simp] theorem State.withPb_mem (s : State) (p : PbTable) : (s.withPb p).mem = s.mem := rfl
@[simp] theorem State.withPb_dev (s : State) (p : PbTable) : (s.withPb p).dev = s.dev := rfl
@[simp] theorem State.withPb_port (s : State) (p : PbTable) : (s.withPb p).port = s.port := rfl
@[simp] theorem State.withPb_turns (s : State) (p : PbTable) : (s.withPb p).turns = s.turns := rfl
@[simp] theorem State.withPb_mapAnswers (s : State) (p : PbTable) : (s.withPb p).mapAnswers = s.mapAnswers := rfl
@[simp] theorem State.withPb_mapDraws (s : State) (p : PbTable) : (s.withPb p).mapDraws = s.mapDraws := rfl
@[simp] theorem State.withPb_params (s : State) (p : PbTable) : (s.withPb p).params = s.params := rfl
@[simp] theorem State.withPb_result (s : State) (p : PbTable) : (s.withPb p).result = s.result := rfl
@[simp] theorem State.withPb_trace (s : State) (p : PbTable) : (s.withPb p).trace = s.trace := rfl

/-! ### `State.withMem` -/

@[simp] theorem State.withMem_cfg (s : State) (m : Memory) : (s.withMem m).cfg = s.cfg := rfl
@[simp] theorem State.withMem_q (s : State) (m : Memory) : (s.withMem m).q = s.q := rfl
@[simp] theorem State.withMem_ctr (s : State) (m : Memory) : (s.withMem m).ctr = s.ctr := rfl
@[simp] theorem State.withMem_pb (s : State) (m : Memory) : (s.withMem m).pb = s.pb := rfl
@[simp] theorem State.withMem_mem (s : State) (m : Memory) : (s.withMem m).mem = m := rfl
@[simp] theorem State.withMem_dev (s : State) (m : Memory) : (s.withMem m).dev = s.dev := rfl
@[simp] theorem State.withMem_port (s : State) (m : Memory) : (s.withMem m).port = s.port := rfl
@[simp] theorem State.withMem_turns (s : State) (m : Memory) : (s.withMem m).turns = s.turns := rfl
@[simp] theorem State.withMem_mapAnswers (s : State) (m : Memory) : (s.withMem m).mapAnswers = s.mapAnswers := rfl
@[simp] theorem State.withMem_mapDraws (s : State) (m : Memory) : (s.withMem m).mapDraws = s.mapDraws := rfl
@[simp] theorem State.withMem_params (s : State) (m : Memory) : (s.withMem m).params = s.params := rfl
@[simp] theorem State.withMem_result (s : State) (m : Memory) : (s.withMem m).result = s.result := rfl
@[simp] theorem State.withMem_trace (s : State) (m : Memory) : (s.withMem m).trace = s.trace := rfl

/-! ### `State.withDev` -/

@[simp] theorem State.withDev_cfg (s : State) (d : Device) : (s.withDev d).cfg = s.cfg := rfl
@[simp] theorem State.withDev_q (s : State) (d : Device) : (s.withDev d).q = s.q := rfl
@[simp] theorem State.withDev_ctr (s : State) (d : Device) : (s.withDev d).ctr = s.ctr := rfl
@[simp] theorem State.withDev_pb (s : State) (d : Device) : (s.withDev d).pb = s.pb := rfl
@[simp] theorem State.withDev_mem (s : State) (d : Device) : (s.withDev d).mem = s.mem := rfl
@[simp] theorem State.withDev_dev (s : State) (d : Device) : (s.withDev d).dev = d := rfl
@[simp] theorem State.withDev_port (s : State) (d : Device) : (s.withDev d).port = s.port := rfl
@[simp] theorem State.withDev_turns (s : State) (d : Device) : (s.withDev d).turns = s.turns := rfl
@[simp] theorem State.withDev_mapAnswers (s : State) (d : Device) : (s.withDev d).mapAnswers = s.mapAnswers := rfl
@[simp] theorem State.withDev_mapDraws (s : State) (d : Device) : (s.withDev d).mapDraws = s.mapDraws := rfl
@[simp] theorem State.withDev_params (s : State) (d : Device) : (s.withDev d).params = s.params := rfl
@[simp] theorem State.withDev_result (s : State) (d : Device) : (s.withDev d).result = s.result := rfl
@[simp] theorem State.withDev_trace (s : State) (d : Device) : (s.withDev d).trace = s.trace := rfl

/-! ### `State.withPort` -/

@[simp] theorem State.withPort_cfg (s : State) (bs : List Byte) : (s.withPort bs).cfg = s.cfg := rfl
@[simp] theorem State.withPort_q (s : State) (bs : List Byte) : (s.withPort bs).q = s.q := rfl
@[simp] theorem State.withPort_ctr (s : State) (bs : List Byte) : (s.withPort bs).ctr = s.ctr := rfl
@[simp] theorem State.withPort_pb (s : State) (bs : List Byte) : (s.withPort bs).pb = s.pb := rfl
@[simp] theorem State.withPort_mem (s : State) (bs : List Byte) : (s.withPort bs).mem = s.mem := rfl
@[simp] theorem State.withPort_dev (s : State) (bs : List Byte) : (s.withPort bs).dev = s.dev := rfl
@[simp] theorem State.withPort_port (s : State) (bs : List Byte) : (s.withPort bs).port = bs := rfl
@[simp] theorem State.withPort_turns (s : State) (bs : List Byte) : (s.withPort bs).turns = s.turns := rfl
@[simp] theorem State.withPort_mapAnswers (s : State) (bs : List Byte) : (s.withPort bs).mapAnswers = s.mapAnswers := rfl
@[simp] theorem State.withPort_mapDraws (s : State) (bs : List Byte) : (s.withPort bs).mapDraws = s.mapDraws := rfl
@[simp] theorem State.withPort_params (s : State) (bs : List Byte) : (s.withPort bs).params = s.params := rfl
@[simp] theorem State.withPort_result (s : State) (bs : List Byte) : (s.withPort bs).result = s.result := rfl
@[simp] theorem State.withPort_trace (s : State) (bs : List Byte) : (s.withPort bs).trace = s.trace := rfl

/-! ### `State.withTurns` -/

@[simp] theorem State.withTurns_cfg (s : State) (ts : List Turn) : (s.withTurns ts).cfg = s.cfg := rfl
@[simp] theorem State.withTurns_q (s : State) (ts : List Turn) : (s.withTurns ts).q = s.q := rfl
@[simp] theorem State.withTurns_ctr (s : State) (ts : List Turn) : (s.withTurns ts).ctr = s.ctr := rfl
@[simp] theorem State.withTurns_pb (s : State) (ts : List Turn) : (s.withTurns ts).pb = s.pb := rfl
@[simp] theorem State.withTurns_mem (s : State) (ts : List Turn) : (s.withTurns ts).mem = s.mem := rfl
@[simp] theorem State.withTurns_dev (s : State) (ts : List Turn) : (s.withTurns ts).dev = s.dev := rfl
@[simp] theorem State.withTurns_port (s : State) (ts : List Turn) : (s.withTurns ts).port = s.port := rfl
@[simp] theorem State.withTurns_turns (s : State) (ts : List Turn) : (s.withTurns ts).turns = ts := rfl
@[simp] theorem State.withTurns_mapAnswers (s : State) (ts : List Turn) : (s.withTurns ts).mapAnswers = s.mapAnswers := rfl
@[simp] theorem State.withTurns_mapDraws (s : State) (ts : List Turn) : (s.withTurns ts).mapDraws = s.mapDraws := rfl
@[simp] theorem State.withTurns_params (s : State) (ts : List Turn) : (s.withTurns ts).params = s.params := rfl
@[simp] theorem State.withTurns_result (s : State) (ts : List Turn) : (s.withTurns ts).result = s.result := rfl
@[simp] theorem State.withTurns_trace (s : State) (ts : List Turn) : (s.withTurns ts).trace = s.trace := rfl

/-! ### `State.withResult` -/

@[simp] theorem State.withResult_cfg (s : State) (r : Result) : (s.withResult r).cfg = s.cfg := rfl
@[simp] theorem State.withResult_q (s : State) (r : Result) : (s.withResult r).q = s.q := rfl
@[simp] theorem State.withResult_ctr (s : State) (r : Result) : (s.withResult r).ctr = s.ctr := rfl
@[simp] theorem State.withResult_pb (s : State) (r : Result) : (s.withResult r).pb = s.pb := rfl
@[simp] theorem State.withResult_mem (s : State) (r : Result) : (s.withResult r).mem = s.mem := rfl
@[simp] theorem State.withResult_dev (s : State) (r : Result) : (s.withResult r).dev = s.dev := rfl
@[simp] theorem State.withResult_port (s : State) (r : Result) : (s.withResult r).port = s.port := rfl
@[simp] theorem State.withResult_turns (s : State) (r : Result) : (s.withResult r).turns = s.turns := rfl
@[simp] theorem State.withResult_mapAnswers (s : State) (r : Result) : (s.withResult r).mapAnswers = s.mapAnswers := rfl
@[simp] theorem State.withResult_mapDraws (s : State) (r : Result) : (s.withResult r).mapDraws = s.mapDraws := rfl
@[simp] theorem State.withResult_params (s : State) (r : Result) : (s.withResult r).params = s.params := rfl
@[simp] theorem State.withResult_result (s : State) (r : Result) : (s.withResult r).result = some r := rfl
@[simp] theorem State.withResult_trace (s : State) (r : Result) : (s.withResult r).trace = s.trace := rfl

/-! ### `State.emit` -/

@[simp] theorem State.emit_cfg (s : State) (e : Event) : (s.emit e).cfg = s.cfg := rfl
@[simp] theorem State.emit_q (s : State) (e : Event) : (s.emit e).q = s.q := rfl
@[simp] theorem State.emit_ctr (s : State) (e : Event) : (s.emit e).ctr = s.ctr := rfl
@[simp] theorem State.emit_pb (s : State) (e : Event) : (s.emit e).pb = s.pb := rfl
@[simp] theorem State.emit_mem (s : State) (e : Event) : (s.emit e).mem = s.mem := rfl
@[simp] theorem State.emit_dev (s : State) (e : Event) : (s.emit e).dev = s.dev := rfl
@[simp] theorem State.emit_port (s : State) (e : Event) : (s.emit e).port = s.port := rfl
@[simp] theorem State.emit_turns (s : State) (e : Event) : (s.emit e).turns = s.turns := rfl
@[simp] theorem State.emit_mapAnswers (s : State) (e : Event) : (s.emit e).mapAnswers = s.mapAnswers := rfl
@[simp] theorem State.emit_mapDraws (s : State) (e : Event) : (s.emit e).mapDraws = s.mapDraws := rfl
@[simp] theorem State.emit_params (s : State) (e : Event) : (s.emit e).params = s.params := rfl
@[simp] theorem State.emit_result (s : State) (e : Event) : (s.emit e).result = s.result := rfl
@[simp] theorem State.emit_trace (s : State) (e : Event) : (s.emit e).trace = s.trace ++ [e] := rfl

/-! ### `State.emitAll` -/

@[simp] theorem State.emitAll_cfg (s : State) (es : List Event) : (s.emitAll es).cfg = s.cfg := rfl
@[simp] theorem State.emitAll_q (s : State) (es : List Event) : (s.emitAll es).q = s.q := rfl
@[simp] theorem State.emitAll_ctr (s : State) (es : List Event) : (s.emitAll es).ctr = s.ctr := rfl
@[simp] theorem State.emitAll_pb (s : State) (es : List Event) : (s.emitAll es).pb = s.pb := rfl
@[simp] theorem State.emitAll_mem (s : State) (es : List Event) : (s.emitAll es).mem = s.mem := rfl
@[simp] theorem State.emitAll_dev (s : State) (es : List Event) : (s.emitAll es).dev = s.dev := rfl
@[simp] theorem State.emitAll_port (s : State) (es : List Event) : (s.emitAll es).port = s.port := rfl
@[simp] theorem State.emitAll_turns (s : State) (es : List Event) : (s.emitAll es).turns = s.turns := rfl
@[simp] theorem State.emitAll_mapAnswers (s : State) (es : List Event) : (s.emitAll es).mapAnswers = s.mapAnswers := rfl
@[simp] theorem State.emitAll_mapDraws (s : State) (es : List Event) : (s.emitAll es).mapDraws = s.mapDraws := rfl
@[simp] theorem State.emitAll_params (s : State) (es : List Event) : (s.emitAll es).params = s.params := rfl
@[simp] theorem State.emitAll_result (s : State) (es : List Event) : (s.emitAll es).result = s.result := rfl
@[simp] theorem State.emitAll_trace (s : State) (es : List Event) : (s.emitAll es).trace = s.trace ++ es := rfl

/-! ### `advanceWrite` -/

@[simp] theorem advanceWrite_cfg (s : State) : (advanceWrite s).cfg = s.cfg := rfl
@[simp] theorem advanceWrite_q (s : State) :
    (advanceWrite s).q =
      { s.q with writeIndex := idxInc s.cfg.n s.q.writeIndex, fillCount := s.q.fillCount + 1 } := rfl
@[simp] theorem advanceWrite_ctr (s : State) : (advanceWrite s).ctr = { s.ctr with posted := s.ctr.posted + 1 } := rfl
@[simp] theorem advanceWrite_pb (s : State) : (advanceWrite s).pb = s.pb := rfl
@[simp] theorem advanceWrite_mem (s : State) : (advanceWrite s).mem = s.mem := rfl
@[simp] theorem advanceWrite_dev (s : State) : (advanceWrite s).dev = s.dev := rfl
@[simp] theorem advanceWrite_port (s : State) : (advanceWrite s).port = s.port := rfl
@[simp] theorem advanceWrite_turns (s : State) : (advanceWrite s).turns = s.turns := rfl
@[simp] theorem advanceWrite_mapAnswers (s : State) : (advanceWrite s).mapAnswers = s.mapAnswers := rfl
@[simp] theorem advanceWrite_mapDraws (s : State) : (advanceWrite s).mapDraws = s.mapDraws := rfl
@[simp] theorem advanceWrite_params (s : State) : (advanceWrite s).params = s.params := rfl
@[simp] theorem advanceWrite_result (s : State) : (advanceWrite s).result = s.result := rfl
@[simp] theorem advanceWrite_trace (s : State) : (advanceWrite s).trace = s.trace := rfl

/-! ### `signalStop` -/

@[simp] theorem signalStop_cfg (s : State) : (signalStop s).cfg = s.cfg := rfl
@[simp] theorem signalStop_q (s : State) : (signalStop s).q = s.q := rfl
@[simp] theorem signalStop_ctr (s : State) : (signalStop s).ctr = s.ctr := rfl
@[simp] theorem signalStop_pb (s : State) : (signalStop s).pb = s.pb := rfl
@[simp] theorem signalStop_mem (s : State) : (signalStop s).mem = s.mem := rfl
@[simp] theorem signalStop_dev (s : State) : (signalStop s).dev = s.dev := rfl
@[simp] theorem signalStop_port (s : State) : (signalStop s).port = s.port := rfl
@[simp] theorem signalStop_turns (s : State) : (signalStop s).turns = s.turns := rfl
@[simp] theorem signalStop_mapAnswers (s : State) : (signalStop s).mapAnswers = s.mapAnswers := rfl
@[simp] theorem signalStop_mapDraws (s : State) : (signalStop s).mapDraws = s.mapDraws := rfl
@[simp] theorem signalStop_params (s : State) : (signalStop s).params = s.params := rfl
@[simp] theorem signalStop_result (s : State) : (signalStop s).result = s.result := rfl
@[simp] theorem signalStop_trace (s : State) : (signalStop s).trace = s.trace ++ [.stop] := rfl

/-! ### `regWriteDB` -/

@[simp] theorem regWriteDB_cfg (c : BitVec 32) (s : State) : (regWriteDB c s).cfg = s.cfg := rfl
@[simp] theorem regWriteDB_q (c : BitVec 32) (s : State) : (regWriteDB c s).q = s.q := rfl
@[simp] theorem regWriteDB_ctr (c : BitVec 32) (s : State) : (regWriteDB c s).ctr = s.ctr := rfl
@[simp] theorem regWriteDB_pb (c : BitVec 32) (s : State) : (regWriteDB c s).pb = s.pb := rfl
@[simp] theorem regWriteDB_mem (c : BitVec 32) (s : State) : (regWriteDB c s).mem = s.mem := rfl
@[simp] theorem regWriteDB_dev (c : BitVec 32) (s : State) : (regWriteDB c s).dev = doorbell c s.dev := rfl
@[simp] theorem regWriteDB_port (c : BitVec 32) (s : State) : (regWriteDB c s).port = s.port := rfl
@[simp] theorem regWriteDB_turns (c : BitVec 32) (s : State) : (regWriteDB c s).turns = s.turns := rfl
@[simp] theorem regWriteDB_mapAnswers (c : BitVec 32) (s : State) : (regWriteDB c s).mapAnswers = s.mapAnswers := rfl
@[simp] theorem regWriteDB_mapDraws (c : BitVec 32) (s : State) : (regWriteDB c s).mapDraws = s.mapDraws := rfl
@[simp] theorem regWriteDB_params (c : BitVec 32) (s : State) : (regWriteDB c s).params = s.params := rfl
@[simp] theorem regWriteDB_result (c : BitVec 32) (s : State) : (regWriteDB c s).result = s.result := rfl
@[simp] theorem regWriteDB_trace (c : BitVec 32) (s : State) : (regWriteDB c s).trace = s.trace := rfl

/-! ### `writeDoorbell` -/

@[simp] theorem writeDoorbell_cfg (s : State) : (writeDoorbell s).cfg = s.cfg := rfl
@[simp] theorem writeDoorbell_q (s : State) : (writeDoorbell s).q = { s.q with fillCount := 0 } := rfl
@[simp] theorem writeDoorbell_ctr (s : State) : (writeDoorbell s).ctr = s.ctr := rfl
@[simp] theorem writeDoorbell_pb (s : State) : (writeDoorbell s).pb = s.pb := rfl
@[simp] theorem writeDoorbell_mem (s : State) : (writeDoorbell s).mem = s.mem := rfl
@[simp] theorem writeDoorbell_dev (s : State) : (writeDoorbell s).dev = doorbell s.q.fillCount s.dev := rfl
@[simp] theorem writeDoorbell_port (s : State) : (writeDoorbell s).port = s.port := rfl
@[simp] theorem writeDoorbell_turns (s : State) : (writeDoorbell s).turns = s.turns := rfl
@[simp] theorem writeDoorbell_mapAnswers (s : State) : (writeDoorbell s).mapAnswers = s.mapAnswers := rfl
@[simp] theorem writeDoorbell_mapDraws (s : State) : (writeDoorbell s).mapDraws = s.mapDraws := rfl
@[simp] theorem writeDoorbell_params (s : State) : (writeDoorbell s).params = s.params := rfl
@[simp] theorem writeDoorbell_result (s : State) : (writeDoorbell s).result = s.result := rfl
@[simp] theorem writeDoorbell_trace (s : State) :
    (writeDoorbell s).trace =
      s.trace ++ [.doorbellWrite s.q.fillCount] := rfl

/-! ### `sample` -/

@[simp] theorem sample_cfg (s : State) : (sample s).cfg = s.cfg := rfl
@[simp] theorem sample_q (s : State) :
    (sample s).q =
      { s.q with lastCount := s.dev.ic, deviceReadIndex := idxAdd s.cfg.n s.q.deviceReadIndex (sampleAdvance s) } := rfl
@[simp] theorem sample_ctr (s : State) : (sample s).ctr = s.ctr := rfl
@[simp] theorem sample_pb (s : State) : (sample s).pb = s.pb := rfl
@[simp] theorem sample_mem (s : State) : (sample s).mem = s.mem := rfl
@[simp] theorem sample_dev (s : State) : (sample s).dev = s.dev := rfl
@[simp] theorem sample_port (s : State) : (sample s).port = s.port := rfl
@[simp] theorem sample_turns (s : State) : (sample s).turns = s.turns := rfl
@[simp] theorem sample_mapAnswers (s : State) : (sample s).mapAnswers = s.mapAnswers := rfl
@[simp] theorem sample_mapDraws (s : State) : (sample s).mapDraws = s.mapDraws := rfl
@[simp] theorem sample_params (s : State) : (sample s).params = s.params := rfl
@[simp] theorem sample_result (s : State) : (sample s).result = s.result := rfl
@[simp] theorem sample_trace (s : State) : (sample s).trace = s.trace := rfl

/-! ### `advanceFlush` -/

@[simp] theorem advanceFlush_cfg (s : State) : (advanceFlush s).cfg = s.cfg := rfl
@[simp] theorem advanceFlush_q (s : State) :
    (advanceFlush s).q =
      { s.q with flushIndex := idxInc s.cfg.n s.q.flushIndex } := rfl
@[simp] theorem advanceFlush_ctr (s : State) : (advanceFlush s).ctr = s.ctr := rfl
@[simp] theorem advanceFlush_pb (s : State) : (advanceFlush s).pb = s.pb := rfl
@[simp] theorem advanceFlush_mem (s : State) : (advanceFlush s).mem = s.mem := rfl
@[simp] theorem advanceFlush_dev (s : State) : (advanceFlush s).dev = s.dev := rfl
@[simp] theorem advanceFlush_port (s : State) : (advanceFlush s).port = s.port := rfl
@[simp] theorem advanceFlush_turns (s : State) : (advanceFlush s).turns = s.turns := rfl
@[simp] theorem advanceFlush_mapAnswers (s : State) : (advanceFlush s).mapAnswers = s.mapAnswers := rfl
@[simp] theorem advanceFlush_mapDraws (s : State) : (advanceFlush s).mapDraws = s.mapDraws := rfl
@[simp] theorem advanceFlush_params (s : State) : (advanceFlush s).params = s.params := rfl
@[simp] theorem advanceFlush_result (s : State) : (advanceFlush s).result = s.result := rfl
@[simp] theorem advanceFlush_trace (s : State) : (advanceFlush s).trace = s.trace := rfl

/-! ### `signalRestart` -/

@[simp] theorem signalRestart_cfg (s : State) : (signalRestart s).cfg = s.cfg := rfl
@[simp] theorem signalRestart_q (s : State) : (signalRestart s).q = s.q := rfl
@[simp] theorem signalRestart_ctr (s : State) :
    (signalRestart s).ctr =
      { s.ctr with restart := s.ctr.restart + 1 } := rfl
@[simp] theorem signalRestart_pb (s : State) : (signalRestart s).pb = s.pb := rfl
@[simp] theorem signalRestart_mem (s : State) : (signalRestart s).mem = s.mem := rfl
@[simp] theorem signalRestart_dev (s : State) : (signalRestart s).dev = s.dev := rfl
@[simp] theorem signalRestart_port (s : State) : (signalRestart s).port = s.port := rfl
@[simp] theorem signalRestart_turns (s : State) : (signalRestart s).turns = s.turns := rfl
@[simp] theorem signalRestart_mapAnswers (s : State) : (signalRestart s).mapAnswers = s.mapAnswers := rfl
@[simp] theorem signalRestart_mapDraws (s : State) : (signalRestart s).mapDraws = s.mapDraws := rfl
@[simp] theorem signalRestart_params (s : State) : (signalRestart s).params = s.params := rfl
@[simp] theorem signalRestart_result (s : State) : (signalRestart s).result = s.result := rfl
@[simp] theorem signalRestart_trace (s : State) : (signalRestart s).trace = s.trace ++ [.restart] := rfl

/-! ### `countDrop` -/

@[simp] theorem countDrop_cfg (b : Bool) (s : State) : (countDrop b s).cfg = s.cfg := rfl
@[simp] theorem countDrop_q (b : Bool) (s : State) : (countDrop b s).q = s.q := rfl
@[simp] theorem countDrop_ctr (b : Bool) (s : State) :
    (countDrop b s).ctr =
      { s.ctr with dropped := s.ctr.dropped + 1, busy := if b then s.ctr.busy + 1 else s.ctr.busy } := rfl
@[simp] theorem countDrop_pb (b : Bool) (s : State) : (countDrop b s).pb = s.pb := rfl
@[simp] theorem countDrop_mem (b : Bool) (s : State) : (countDrop b s).mem = s.mem := rfl
@[simp] theorem countDrop_dev (b : Bool) (s : State) : (countDrop b s).dev = s.dev := rfl
@[simp] theorem countDrop_port (b : Bool) (s : State) : (countDrop b s).port = s.port := rfl
@[simp] theorem countDrop_turns (b : Bool) (s : State) : (countDrop b s).turns = s.turns := rfl
@[simp] theorem countDrop_mapAnswers (b : Bool) (s : State) : (countDrop b s).mapAnswers = s.mapAnswers := rfl
@[simp] theorem countDrop_mapDraws (b : Bool) (s : State) : (countDrop b s).mapDraws = s.mapDraws := rfl
@[simp] theorem countDrop_params (b : Bool) (s : State) : (countDrop b s).params = s.params := rfl
@[simp] theorem countDrop_result (b : Bool) (s : State) : (countDrop b s).result = s.result := rfl
@[simp] theorem countDrop_trace (b : Bool) (s : State) : (countDrop b s).trace = s.trace := rfl

/-! ### `createState` -/

@[simp] theorem createState_cfg (c : Cfg) (s : State) : (createState c s).cfg = c := rfl
@[simp] theorem createState_q (c : Cfg) (s : State) :
    (createState c s).q =
      { valid := true, writeIndex := 0, deviceReadIndex := 0, flushIndex := 0, fillCount := 0, lastCount := s.dev.ic } := rfl
@[simp] theorem createState_ctr (c : Cfg) (s : State) : (createState c s).ctr = zeroCounters := rfl
@[simp] theorem createState_pb (c : Cfg) (s : State) : (createState c s).pb = [] := rfl
@[simp] theorem createState_mem (c : Cfg) (s : State) : (createState c s).mem = s.mem := rfl
@[simp] theorem createState_dev (c : Cfg) (s : State) :
    (createState c s).dev =
      { s.dev with synced := deviceIdle s.dev } := rfl
@[simp] theorem createState_port (c : Cfg) (s : State) : (createState c s).port = s.port := rfl
@[simp] theorem createState_turns (c : Cfg) (s : State) : (createState c s).turns = s.turns := rfl
@[simp] theorem createState_mapAnswers (c : Cfg) (s : State) : (createState c s).mapAnswers = s.mapAnswers := rfl
@[simp] theorem createState_mapDraws (c : Cfg) (s : State) : (createState c s).mapDraws = s.mapDraws := rfl
@[simp] theorem createState_params (c : Cfg) (s : State) : (createState c s).params = s.params := rfl
@[simp] theorem createState_result (c : Cfg) (s : State) : (createState c s).result = s.result := rfl
@[simp] theorem createState_trace (c : Cfg) (s : State) : (createState c s).trace = s.trace := rfl

/-! ### `destroyState` -/

@[simp] theorem destroyState_cfg (s : State) : (destroyState s).cfg = s.cfg := rfl
@[simp] theorem destroyState_q (s : State) :
    (destroyState s).q =
      { s.q with deviceReadIndex := s.q.writeIndex, valid := false } := rfl
@[simp] theorem destroyState_ctr (s : State) : (destroyState s).ctr = s.ctr := rfl
@[simp] theorem destroyState_pb (s : State) : (destroyState s).pb = s.pb := rfl
@[simp] theorem destroyState_mem (s : State) : (destroyState s).mem = s.mem := rfl
@[simp] theorem destroyState_dev (s : State) : (destroyState s).dev = s.dev := rfl
@[simp] theorem destroyState_port (s : State) : (destroyState s).port = s.port := rfl
@[simp] theorem destroyState_turns (s : State) : (destroyState s).turns = s.turns := rfl
@[simp] theorem destroyState_mapAnswers (s : State) : (destroyState s).mapAnswers = s.mapAnswers := rfl
@[simp] theorem destroyState_mapDraws (s : State) : (destroyState s).mapDraws = s.mapDraws := rfl
@[simp] theorem destroyState_params (s : State) : (destroyState s).params = s.params := rfl
@[simp] theorem destroyState_result (s : State) : (destroyState s).result = s.result := rfl
@[simp] theorem destroyState_trace (s : State) : (destroyState s).trace = s.trace := rfl

/-! ### `resetDevice` -/

@[simp] theorem resetDevice_cfg (ic : BitVec 32) (s : State) : (resetDevice ic s).cfg = s.cfg := rfl
@[simp] theorem resetDevice_q (ic : BitVec 32) (s : State) : (resetDevice ic s).q = s.q := rfl
@[simp] theorem resetDevice_ctr (ic : BitVec 32) (s : State) : (resetDevice ic s).ctr = s.ctr := rfl
@[simp] theorem resetDevice_pb (ic : BitVec 32) (s : State) : (resetDevice ic s).pb = s.pb := rfl
@[simp] theorem resetDevice_mem (ic : BitVec 32) (s : State) : (resetDevice ic s).mem = s.mem := rfl
@[simp] theorem resetDevice_dev (ic : BitVec 32) (s : State) :
    (resetDevice ic s).dev =
      { s.dev with avail := 0, fetchIndex := 0, ic := ic, synced := false } := rfl
@[simp] theorem resetDevice_port (ic : BitVec 32) (s : State) : (resetDevice ic s).port = s.port := rfl
@[simp] theorem resetDevice_turns (ic : BitVec 32) (s : State) : (resetDevice ic s).turns = s.turns := rfl
@[simp] theorem resetDevice_mapAnswers (ic : BitVec 32) (s : State) :
    (resetDevice ic s).mapAnswers =
      s.mapAnswers := rfl
@[simp] theorem resetDevice_mapDraws (ic : BitVec 32) (s : State) : (resetDevice ic s).mapDraws = s.mapDraws := rfl
@[simp] theorem resetDevice_params (ic : BitVec 32) (s : State) : (resetDevice ic s).params = s.params := rfl
@[simp] theorem resetDevice_result (ic : BitVec 32) (s : State) : (resetDevice ic s).result = s.result := rfl
@[simp] theorem resetDevice_trace (ic : BitVec 32) (s : State) : (resetDevice ic s).trace = s.trace := rfl

/-! ### Two updates of the same field -/

@[simp] theorem State.withCfg_withCfg (s : State) (a b : Cfg) : (s.withCfg a).withCfg b = s.withCfg b := rfl
@[simp] theorem State.withQ_withQ (s : State) (a b : Queue) : (s.withQ a).withQ b = s.withQ b := rfl
@[simp] theorem State.withCtr_withCtr (s : State) (a b : Counters) : (s.withCtr a).withCtr b = s.withCtr b := rfl
@[simp] theorem State.withPb_withPb (s : State) (a b : PbTable) : (s.withPb a).withPb b = s.withPb b := rfl
@[simp] theorem State.withMem_withMem (s : State) (a b : Memory) : (s.withMem a).withMem b = s.withMem b := rfl
@[simp] theorem State.withDev_withDev (s : State) (a b : Device) : (s.withDev a).withDev b = s.withDev b := rfl
@[simp] theorem State.withPort_withPort (s : State) (a b : List Byte) : (s.withPort a).withPort b = s.withPort b := rfl
@[simp] theorem State.withTurns_withTurns (s : State) (a b : List Turn) : (s.withTurns a).withTurns b = s.withTurns b := rfl
@[simp] theorem State.withResult_withResult (s : State) (a b : Result) : (s.withResult a).withResult b = s.withResult b := rfl

end Sys2Proof.Machine
end

