-- ==== Sys2Proof/Laws/Ops.lean ====
section
/-! SUPPORT. One lemma per shared operation that says everything it can do: if it answers a value and a state, then how
they arise. A proof about an instruction cites these and does not unfold the operation. -/

namespace Sys2Proof.Machine

/-! ### Outcomes -/

theorem Res.bind_ok {α β : Type} {x : Res α} {k : α → State → Res β} {b : β} {t : State} (h : x.bind k = .ok b t) :
    ∃ a s, x = .ok a s ∧ k a s = .ok b t := by
  cases x with
  | ok a s => exact ⟨a, s, rfl, h⟩
  | raise r s => simp [Res.bind] at h
  | fault f => simp [Res.bind] at h
  | refuse r => simp [Res.bind] at h

theorem Res.bind_raise {α β : Type} {x : Res α} {k : α → State → Res β} {r : Result} {t : State}
    (h : x.bind k = .raise r t) : x = .raise r t ∨ ∃ a s, x = .ok a s ∧ k a s = .raise r t := by
  cases x with
  | ok a s => exact .inr ⟨a, s, rfl, h⟩
  | raise r' s => exact .inl (by simpa [Res.bind] using h)
  | fault f => simp [Res.bind] at h
  | refuse r => simp [Res.bind] at h

theorem Res.cannotFail_ok {α : Type} {x : Res α} {a : α} {t : State} (h : x.cannotFail = .ok a t) : x = .ok a t := by
  cases x <;> simp_all [Res.cannotFail]

theorem Res.cannotFail_raise {α : Type} {x : Res α} {r : Result} {t : State} : x.cannotFail ≠ .raise r t := by
  cases x <;> simp [Res.cannotFail]

/-- A command that has a next state ended with a value or with an error result. -/
theorem Res.finish_next {α : Type} {f : α → Result} {x : Res α} {t : State} (h : x.finish f = .next t) :
    (∃ a s, x = .ok a s ∧ t = s.withResult (f a)) ∨ ∃ r s, x = .raise r s ∧ t = s.withResult r := by
  cases x with
  | ok a s => exact .inl ⟨a, s, rfl, by simpa [Res.finish] using h.symm⟩
  | raise r s => exact .inr ⟨r, s, rfl, by simpa [Res.finish] using h.symm⟩
  | fault f => simp [Res.finish] at h
  | refuse r => simp [Res.finish] at h

theorem Res.finishDevice_next {x : Res Unit} {t : State} (h : x.finishDevice = .next t) :
    (∃ u, x = .ok u t) ∨ ∃ r, x = .raise r t := by
  cases x with
  | ok u s => exact .inl ⟨u, by simp_all [Res.finishDevice]⟩
  | raise r s => exact .inr ⟨r, by simp_all [Res.finishDevice]⟩
  | fault f => simp [Res.finishDevice] at h
  | refuse r => simp [Res.finishDevice] at h

@[simp] theorem requireValid_of_valid {α : Type} {s : State} (h : s.q.valid = true) (x : Res α) :
    requireValid s x = x := by simp [requireValid, h]

@[simp] theorem requireValid_of_not {α : Type} {s : State} (h : s.q.valid = false) (x : Res α) :
    requireValid s x = .refuse .queueNotValid := by simp [requireValid, h]

theorem requireValid_ok {α : Type} {s : State} {x : Res α} {a : α} {t : State} (h : requireValid s x = .ok a t) :
    s.q.valid = true ∧ x = .ok a t := by
  cases hv : s.q.valid <;> simp_all [requireValid]

theorem requireValid_raise {α : Type} {s : State} {x : Res α} {r : Result} {t : State}
    (h : requireValid s x = .raise r t) : s.q.valid = true ∧ x = .raise r t := by
  cases hv : s.q.valid <;> simp_all [requireValid]

theorem requireSlot_eq {α : Type} {slot : Nat} {s : State} (hv : s.q.valid = true) (hs : slot < s.cfg.n) (x : Res α) :
    requireSlot slot s x = x := by simp [requireSlot, requireValid, hv, hs]

theorem requireSlot_ok {α : Type} {slot : Nat} {s : State} {x : Res α} {a : α} {t : State}
    (h : requireSlot slot s x = .ok a t) : s.q.valid = true ∧ slot < s.cfg.n ∧ x = .ok a t := by
  obtain ⟨hv, h⟩ := requireValid_ok h
  split at h
  · next hs => exact ⟨hv, hs, h⟩
  · cases h

theorem requireSlot_raise {α : Type} {slot : Nat} {s : State} {x : Res α} {r : Result} {t : State}
    (h : requireSlot slot s x = .raise r t) : s.q.valid = true ∧ slot < s.cfg.n ∧ x = .raise r t := by
  obtain ⟨hv, h⟩ := requireValid_raise h
  split at h
  · next hs => exact ⟨hv, hs, h⟩
  · cases h

/-! ### Memory -/

theorem memWrite_ok {a : Nat} {bs : List Byte} {s t : State} {u : Unit} (h : memWrite a bs s = .ok u t) :
    a + bs.length ≤ dmaSpace ∧ t = s.withMem (storeBytes s.mem a bs) := by
  simp only [memWrite] at h
  split at h
  · next hb => exact ⟨hb, by simpa using h.symm⟩
  · cases h

theorem memWrite_not_raise {a : Nat} {bs : List Byte} {s t : State} {r : Result} : memWrite a bs s ≠ .raise r t := by
  simp only [memWrite]; split <;> simp

theorem memRead_ok {a n : Nat} {s t : State} {b : Bytes n} (h : memRead a n s = .ok b t) :
    a + n ≤ dmaSpace ∧ b.val = readBytes s.mem a n ∧ t = s := by
  simp only [memRead] at h
  split at h
  · next hb => cases h; exact ⟨hb, rfl, rfl⟩
  · cases h

theorem readEntries_ok {base count : Nat} {s t : State} {es : List (Word × BitVec 16)}
    (h : readEntries base count s = .ok es t) :
    base + 40 * nrec count ≤ dmaSpace ∧ es = (List.range count).map (entryInMem s.mem base) ∧ t = s := by
  simp only [readEntries] at h
  split at h
  · next hb => cases h; exact ⟨hb, rfl, rfl⟩
  · cases h

theorem readEntries_not_raise {base count : Nat} {s t : State} {r : Result} : readEntries base count s ≠ .raise r t := by
  simp only [readEntries]; split <;> simp

/-- An entry read back depends on the bytes of its record only. -/
theorem entryInMem_congr {m m' : Memory} {base e : Nat}
    (h : ∀ c, base + 40 * (e / 4) ≤ c → c < base + 40 * (e / 4) + 40 → readByte m c = readByte m' c) :
    entryInMem m base e = entryInMem m' base e := by
  simp only [entryInMem, readBytes_congr h]

/-! ### Scatter-gather records -/

theorem writeRecords_not_raise {base : Nat} {es : List (Word × BitVec 16)} {k r : Nat} {s t : State} {x : Result} :
    writeRecords base es k r s ≠ .raise x t := by
  induction k generalizing r s with
  | zero => simp [writeRecords]
  | succ k ih =>
    intro h
    rcases Res.bind_raise h with h | ⟨_, _, _, h⟩
    · exact memWrite_not_raise h
    · exact ih h

/-- Writing records changes memory alone, and only the bytes of those records. -/
theorem writeRecords_ok {base : Nat} {es : List (Word × BitVec 16)} {k r : Nat} {s t : State} {u : Unit}
    (h : writeRecords base es k r s = .ok u t) :
    t = s.withMem t.mem ∧ (s.mem.wf → t.mem.wf) ∧
      (∀ c, c < base + 40 * r ∨ base + 40 * (r + k) ≤ c → readByte t.mem c = readByte s.mem c) ∧
      ∀ i, r ≤ i → i < r + k → readBytes t.mem (base + 40 * i) 40 = (encSg (sgRecordAt es i)).val := by
  induction k generalizing r s with
  | zero => cases h; exact ⟨rfl, id, fun _ _ => rfl, fun i h1 h2 => by omega⟩
  | succ k ih =>
    obtain ⟨_, s1, h1, h2⟩ := Res.bind_ok h
    obtain ⟨hb, rfl⟩ := memWrite_ok h1
    obtain ⟨e1, e2, e3, e4⟩ := ih h2
    have hl : (encSg (sgRecordAt es r)).val.length = 40 := (encSg (sgRecordAt es r)).property
    rw [State.withMem_withMem] at e1
    simp only [State.withMem_mem] at e2 e3
    have hw' : s.mem.wf → t.mem.wf := fun hw => e2 (wf_storeBytes hw hb)
    refine ⟨e1, hw', fun c hc => ?_, fun i h1 h2 => ?_⟩
    · rw [e3 c (by omega), readByte_storeBytes_outside _ (by omega)]
    · rcases Nat.eq_or_lt_of_le h1 with rfl | hlt
      · rw [readBytes_congr (m' := storeBytes s.mem (base + 40 * r) (encSg (sgRecordAt es r)).val)
          fun c h3 h4 => e3 c (.inl (by omega))]
        have := readBytes_storeBytes_self s.mem (base + 40 * r) (encSg (sgRecordAt es r)).val
        rwa [hl] at this
      · exact e4 i hlt (by omega)

/-- Records that end inside the DMA space are written. -/
theorem writeRecords_completes {base : Nat} {es : List (Word × BitVec 16)} {k r : Nat} {s : State}
    (h : base + 40 * (r + k) ≤ dmaSpace) : ∃ t, writeRecords base es k r s = .ok () t := by
  induction k generalizing r s with
  | zero => exact ⟨s, rfl⟩
  | succ k ih =>
    have hl : (encSg (sgRecordAt es r)).val.length = 40 := (encSg (sgRecordAt es r)).property
    obtain ⟨t, ht⟩ := ih (r := r + 1) (s := s.withMem (storeBytes s.mem (base + 40 * r) (encSg (sgRecordAt es r)).val))
      (by omega)
    refine ⟨t, ?_⟩
    rw [writeRecords, memWrite, if_pos (by omega)]
    exact ht

/-- Everything `SG_ACQUIRE` can do (R151). -/
theorem sgAcquire_ok {slot : Nat} {s t : State} {g : Word × Nat} (h : sgAcquire slot s = .ok g t) :
    s.q.valid = true ∧ slot < s.cfg.n ∧ g = (groupAddr s.cfg slot, s.cfg.sgpp) ∧ t = s := by
  obtain ⟨hv, hs, h⟩ := requireSlot_ok h
  cases h; exact ⟨hv, hs, rfl, rfl⟩

/-- Everything `SG_FILL` can do (R152). -/
theorem sgFill_ok {slot : Nat} {es : List (Word × BitVec 16)} {s t : State} {r : Nat × Nat × Word}
    (h : sgFill slot es s = .ok r t) :
    s.q.valid = true ∧ slot < s.cfg.n ∧ pbTag s slot = .none ∧ 1 ≤ es.length ∧ es.length ≤ 4 * s.cfg.sgpp ∧
      r = (es.length, nrec es.length, groupAddr s.cfg slot) ∧
      writeRecords (sgAddr s.cfg slot 0) es (nrec es.length) 0 s = .ok () t := by
  obtain ⟨hv, hs, h⟩ := requireSlot_ok h
  split at h
  · cases h
  · next ht =>
    split at h
    · cases h
    · next hn =>
      obtain ⟨_, s', h1, h2⟩ := Res.bind_ok h
      cases h2
      simp only [bne_iff_ne, ne_eq, Decidable.not_not] at ht
      simp only [decide_eq_true_eq, Bool.or_eq_true, not_or, Nat.not_lt] at hn
      exact ⟨hv, hs, ht, by omega, by omega, rfl, h1⟩

/-! ### Pending-buffer table -/

theorem pbTag_eq_none {s : State} {slot : Nat} : pbTag s slot = .none ↔ pbGet s slot = none := by
  simp only [pbTag]
  split
  · next h => simp [h]
  · next e h => cases hk : e.kind <;> simp [PbKind.tag, h]

/-- Everything `PB_RECORD` can do (R166). -/
theorem pbRecord_ok {slot : Nat} {a : RecordArgs} {s t : State} {u : Unit} (h : pbRecord slot a s = .ok u t) :
    s.q.valid = true ∧ slot < s.cfg.n ∧ recordOperandsOk s.cfg slot a = true ∧ pbGet s slot = none ∧
      t = s.withPb (sparsePut slot (entryOf s.cfg slot a) s.pb) := by
  obtain ⟨hv, hs, h⟩ := requireSlot_ok h
  split at h
  · cases h
  · next ho =>
    split at h
    · cases h
    · next hg => cases h; exact ⟨hv, hs, by simpa using ho, hg, rfl⟩

theorem pbRecord_raise {slot : Nat} {a : RecordArgs} {s t : State} {r : Result} (h : pbRecord slot a s = .raise r t) :
    r = .pbAlreadyInFlight slot ∧ t = s ∧ (pbGet s slot).isSome := by
  obtain ⟨hv, hs, h⟩ := requireSlot_raise h
  split at h
  · cases h
  · split at h
    · next hg => cases h; exact ⟨rfl, rfl, by simp [hg]⟩
    · cases h

theorem entryMappings_ok {e : PbEntry} {s t : State} {ms : List (Word × Nat)} (h : entryMappings e s = .ok ms t) :
    ms = mappingsOf s.mem e ∧ t = s := by
  cases hk : e.kind with
  | single => simp only [entryMappings, hk] at h; cases h; simp [mappingsOf, hk]
  | gather a =>
    simp only [entryMappings, hk] at h
    obtain ⟨es, s', h1, h2⟩ := Res.bind_ok h
    obtain ⟨_, rfl, rfl⟩ := readEntries_ok h1
    cases h2
    simp [mappingsOf, hk, List.map_map, Function.comp_def]

theorem entryMappings_not_raise {e : PbEntry} {s t : State} {r : Result} : entryMappings e s ≠ .raise r t := by
  intro h
  simp only [entryMappings] at h
  split at h
  · cases h
  · rcases Res.bind_raise h with h | ⟨_, _, _, h⟩
    · exact readEntries_not_raise h
    · cases h

/-- A sound entry of a legal queue can be released: its record group lies inside the DMA space. -/
theorem entryMappings_completes {e : PbEntry} {s : State}
    (h : ∀ a, e.kind = .gather a → a.toNat + 40 * nrec e.nent.toNat ≤ dmaSpace) :
    entryMappings e s = .ok (mappingsOf s.mem e) s := by
  cases hk : e.kind with
  | single => simp [entryMappings, mappingsOf, hk]
  | gather a =>
    simp only [entryMappings, mappingsOf, hk]
    rw [readEntries, if_pos (h a hk)]
    simp [Res.bind, List.map_map, Function.comp_def]

/-- Everything `PB_RELEASE` can do (R170). -/
theorem pbRelease_ok {slot : Nat} {s t : State} {r : Word × BitVec 16 × BitVec 14} (h : pbRelease slot s = .ok r t) :
    s.q.valid = true ∧ slot < s.cfg.n ∧ ∃ e, pbGet s slot = some e ∧ r = (e.handle, e.len, e.nent) ∧
      t = (s.withPb (sparseDel slot s.pb)).emitAll (releaseEvents s.mem e) := by
  obtain ⟨hv, hs, h⟩ := requireSlot_ok h
  split at h
  · cases h
  · next e he =>
    obtain ⟨ms, s', h1, h2⟩ := Res.bind_ok h
    obtain ⟨rfl, rfl⟩ := entryMappings_ok h1
    cases h2
    exact ⟨hv, hs, e, he, rfl, rfl⟩

theorem pbRelease_raise {slot : Nat} {s t : State} {r : Result} (h : pbRelease slot s = .raise r t) :
    r = .pbNotInFlight slot ∧ t = s ∧ pbGet s slot = none := by
  obtain ⟨hv, hs, h⟩ := requireSlot_raise h
  split at h
  · next hg => cases h; exact ⟨rfl, rfl, hg⟩
  · next e he =>
    rcases Res.bind_raise h with h | ⟨_, _, _, h⟩
    · exact absurd h entryMappings_not_raise
    · cases h

/-- A live, sound entry is released. -/
theorem pbRelease_completes {slot : Nat} {s : State} {e : PbEntry} (hv : s.q.valid = true) (hs : slot < s.cfg.n)
    (he : pbGet s slot = some e) (hm : ∀ a, e.kind = .gather a → a.toNat + 40 * nrec e.nent.toNat ≤ dmaSpace) :
    pbRelease slot s =
      .ok (e.handle, e.len, e.nent) ((s.withPb (sparseDel slot s.pb)).emitAll (releaseEvents s.mem e)) := by
  rw [pbRelease, requireSlot_eq hv hs, he]
  simp only [entryMappings_completes hm, Res.bind, releaseEvents]

/-! ### Ring -/

/-- Everything `RING_POST` can do (R185). -/
theorem ringPost_ok {desc : Bytes 64} {s t : State} {r : Nat × Bool} (h : ringPost desc s = .ok r t) :
    s.q.valid = true ∧ isFull s = false ∧ slotAddr s.cfg s.q.writeIndex + 64 ≤ dmaSpace ∧
      ∃ s1, s1 = advanceWrite (s.withMem (storeBytes s.mem (slotAddr s.cfg s.q.writeIndex) desc.val)) ∧
        r = (s.q.writeIndex, isFull s1) ∧ t = if isFull s1 then signalStop s1 else s1 := by
  obtain ⟨hv, h⟩ := requireValid_ok h
  split at h
  · cases h
  · next hf =>
    obtain ⟨_, s1, h1, h2⟩ := Res.bind_ok h
    obtain ⟨hb, rfl⟩ := memWrite_ok h1
    refine ⟨hv, by simpa using hf, by rw [← desc.property]; exact hb, _, rfl, ?_⟩
    dsimp only at h2
    split at h2
    · next hfull => cases h2; simp [hfull]
    · next hfull => cases h2; simp [hfull]

theorem ringPost_raise {desc : Bytes 64} {s t : State} {r : Result} (h : ringPost desc s = .raise r t) :
    r = .queueFull ∧ t = s ∧ isFull s = true := by
  obtain ⟨hv, h⟩ := requireValid_raise h
  split at h
  · next hf => cases h; exact ⟨rfl, rfl, hf⟩
  · rcases Res.bind_raise h with h | ⟨_, _, _, h⟩
    · exact absurd h memWrite_not_raise
    · dsimp only at h
      split at h <;> cases h

/-- Everything `RING_ANNOUNCE` can do (R190). -/
theorem ringAnnounce_ok {force : Bool} {s t : State} {c : BitVec 32} (h : ringAnnounce force s = .ok c t) :
    s.q.valid = true ∧
      ((announceDue force s = true ∧ c = s.q.fillCount ∧ t = writeDoorbell s) ∨
        (announceDue force s = false ∧ c = 0 ∧ t = s)) := by
  obtain ⟨hv, h⟩ := requireValid_ok h
  split at h
  · next hd => cases h; exact ⟨hv, .inl ⟨hd, rfl, rfl⟩⟩
  · next hd => cases h; exact ⟨hv, .inr ⟨by simpa using hd, rfl, rfl⟩⟩

theorem ringAnnounce_not_raise {force : Bool} {s t : State} {r : Result} : ringAnnounce force s ≠ .raise r t := by
  intro h
  obtain ⟨_, h⟩ := requireValid_raise h
  split at h <;> cases h

/-- What one release leaves: the table without the slot, the events, the flush index one on, the counters. -/
def afterRelease (counted : Bool) (e : PbEntry) (s : State) : State :=
  let s2 := advanceFlush ((s.withPb (sparseDel s.q.flushIndex s.pb)).emitAll (releaseEvents s.mem e))
  if counted then s2.withCtr (countCompletion e.len e.nent s2.ctr) else s2

/-- The release loop, one slot at a time (R197). -/
theorem releaseSlots_ok {counted : Bool} {k : Nat} {s t : State} {u : Unit} (h : releaseSlots counted (k + 1) s = .ok u t) :
    s.q.valid = true ∧ s.q.flushIndex < s.cfg.n ∧ ∃ e, pbGet s s.q.flushIndex = some e ∧
      releaseSlots counted k (afterRelease counted e s) = .ok u t := by
  obtain ⟨r, s1, h1, h2⟩ := Res.bind_ok h
  obtain ⟨hv, hs, e, he, rfl, rfl⟩ := pbRelease_ok (Res.cannotFail_ok h1)
  exact ⟨hv, hs, e, he, h2⟩

theorem releaseSlots_not_raise {counted : Bool} {k : Nat} {s t : State} {r : Result} :
    releaseSlots counted k s ≠ .raise r t := by
  induction k generalizing s with
  | zero => simp [releaseSlots]
  | succ k ih =>
    intro h
    rcases Res.bind_raise h with h | ⟨_, _, _, h⟩
    · exact Res.cannotFail_raise h
    · exact ih h

/-- What the release loop leaves untouched, and where it takes the flush index. -/
theorem releaseSlots_frame {counted : Bool} {k : Nat} {s t : State} {u : Unit} (h : releaseSlots counted k s = .ok u t) :
    t.cfg = s.cfg ∧ t.mem = s.mem ∧ t.dev = s.dev ∧ t.port = s.port ∧ t.turns = s.turns ∧
      t.mapAnswers = s.mapAnswers ∧ t.mapDraws = s.mapDraws ∧ t.result = s.result ∧
      (s.q.flushIndex < s.cfg.n → t.q = { s.q with flushIndex := idxAdd s.cfg.n s.q.flushIndex k }) ∧
      (counted = false → t.ctr = s.ctr) := by
  induction k generalizing s with
  | zero =>
    cases h
    exact ⟨rfl, rfl, rfl, rfl, rfl, rfl, rfl, rfl, fun hf => by rw [idxAdd_zero hf], fun _ => rfl⟩
  | succ k ih =>
    obtain ⟨_, hs, e, _, h2⟩ := releaseSlots_ok h
    obtain ⟨a1, a2, a3, a4, a5, a6, a7, a8, a9, a10⟩ := ih h2
    cases counted <;>
      refine ⟨a1, a2, a3, a4, a5, a6, a7, a8, fun _ => ?_, fun hc => ?_⟩ <;>
      first
        | (rw [a9 (idxInc_lt (by simp; omega) _)]
           simp only [afterRelease, advanceFlush_q, advanceFlush_cfg, State.emitAll_q, State.withPb_q, State.emitAll_cfg,
             State.withPb_cfg, State.withCtr_q, State.withCtr_cfg, if_true, if_false, Bool.false_eq_true]
           rw [← idxAdd_one, idxAdd_add, Nat.add_comm 1 k])
        | exact a10 hc
        | cases hc

/-- The release loop changes no argument of the machine. -/
theorem releaseSlots_params {counted : Bool} {k : Nat} {s t : State} {u : Unit}
    (h : releaseSlots counted k s = .ok u t) : t.params = s.params := by
  induction k generalizing s with
  | zero => cases h; rfl
  | succ k ih =>
    obtain ⟨_, _, e, _, h2⟩ := releaseSlots_ok h
    exact (ih h2).trans (by cases counted <;> rfl)

/-- The release loop takes entries out of the table only. -/
theorem releaseSlots_pb {counted : Bool} {k : Nat} {s t : State} {u : Unit} (h : releaseSlots counted k s = .ok u t) :
    (s.pb.wf → t.pb.wf) ∧ ∀ p ∈ t.pb, p ∈ s.pb := by
  induction k generalizing s with
  | zero => cases h; exact ⟨id, fun _ hp => hp⟩
  | succ k ih =>
    obtain ⟨_, _, e, _, h2⟩ := releaseSlots_ok h
    obtain ⟨a1, a2⟩ := ih h2
    have hpb : (afterRelease counted e s).pb = sparseDel s.q.flushIndex s.pb := by cases counted <;> rfl
    rw [hpb] at a1 a2
    exact ⟨fun hw => a1 (sparseWf_del hw _), fun p hp => mem_sparseDel (a2 p hp)⟩

/-- Everything `RING_RECLAIM` can do (R195). -/
theorem ringReclaim_ok {s t : State} {r : Nat × Bool} (h : ringReclaim s = .ok r t) :
    s.q.valid = true ∧ ∃ s2,
      releaseSlots true (idxDiff s.cfg.n (sample s).q.deviceReadIndex s.q.flushIndex) (sample s) = .ok () s2 ∧
        r = (idxDiff s.cfg.n (sample s).q.deviceReadIndex s.q.flushIndex, !isFull s2) ∧
        t = restartPhase (isFull s) s2 := by
  obtain ⟨hv, h⟩ := requireValid_ok h
  obtain ⟨_, s2, h1, h2⟩ := Res.bind_ok h
  cases h2
  exact ⟨hv, s2, h1, rfl, rfl⟩

theorem ringReclaim_not_raise {s t : State} {r : Result} : ringReclaim s ≠ .raise r t := by
  intro h
  obtain ⟨_, h⟩ := requireValid_raise h
  rcases Res.bind_raise h with h | ⟨_, _, _, h⟩
  · exact releaseSlots_not_raise h
  · cases h

/-! ### Controller -/

/-- Everything `CREATE_QUEUE` can do (R210). -/
theorem createQueue_ok {a : CreateArgs} {s t : State} {u : Unit} (h : createQueue a s = .ok u t) :
    s.q.valid = false ∧ ∃ ringBase sgBase, createCheck a = .ok (ringBase, sgBase) ∧
      t = createState (cfgOf a ringBase sgBase) s := by
  simp only [createQueue] at h
  split at h
  · cases h
  · next hv =>
    split at h
    · cases h
    · next b hb => cases h; exact ⟨by simpa using hv, b.1, b.2, hb, rfl⟩

theorem createQueue_raise {a : CreateArgs} {s t : State} {r : Result} (h : createQueue a s = .raise r t) :
    s.q.valid = false ∧ createCheck a = .error r ∧ t = s := by
  simp only [createQueue] at h
  split at h
  · cases h
  · next hv =>
    split at h
    · next r' hr => cases h; exact ⟨by simpa using hv, hr, rfl⟩
    · cases h

/-- A configuration that `CREATE_QUEUE` lets pass is legal. -/
theorem createCheck_legal {a : CreateArgs} {b : Word × Word} (h : createCheck a = .ok b) : (cfgOf a b.1 b.2).legal := by
  simp only [createCheck] at h
  split at h
  · cases h
  · next h1 =>
    split at h
    · cases h
    · next h2 =>
      split at h
      · cases h
      · next h3 =>
        split at h
        · cases h
        · split at h
          · cases h
          · next rb sb hr =>
            split at h
            · cases h
            · next h5 =>
              cases h
              simp only [Bool.not_eq_true', Bool.or_eq_true, decide_eq_true_eq, not_or, Bool.not_eq_false,
                Nat.not_lt] at h1 h2 h3 h5
              simp only [Cfg.legal, cfgOf]
              exact ⟨h1.1.1, h1.1.2, h1.2, h2.1, h2.2, trivial, h3.1, h3.2, by simpa using h5⟩

/-- Everything a `DmaMap` can do (R80): it answers, the answer is used up, and the event is recorded. -/
theorem dmaMap_eq {buf : Word} {len : Nat} {s t : State} {a : Option Word} (h : dmaMap buf len s = (a, t)) :
    ∃ as d, t = { s with mapAnswers := as, mapDraws := d, trace := s.trace ++ [.dmaMap buf len a] } := by
  simp only [dmaMap] at h
  split at h
  · cases h; exact ⟨_, _, rfl⟩
  · next hn => cases h; exact ⟨[], s.mapDraws + 1, by simp [hn]⟩

/-- A packet whose fragments all map: only the oracle's inputs and the trace change. -/
theorem mapFrags_ok {fs : List Frag} {done : List (Word × Nat)} {s t : State} {addrs : List Word}
    (h : mapFrags fs done s = .ok addrs t) :
    ∃ new as d, new.length = fs.length ∧ addrs = done.reverse.map Prod.fst ++ new ∧
      t = { s with mapAnswers := as, mapDraws := d, trace := s.trace ++ mapEvents new fs } := by
  induction fs generalizing done s with
  | nil => cases h; exact ⟨[], t.mapAnswers, t.mapDraws, rfl, by simp, by simp [mapEvents]⟩
  | cons f fs ih =>
    simp only [mapFrags] at h
    split at h
    · next addr s1 hd =>
      obtain ⟨as, d, rfl⟩ := dmaMap_eq hd
      obtain ⟨new, as', d', hl, ha, ht⟩ := ih h
      refine ⟨addr :: new, as', d', by simp [hl], by simp [ha], ?_⟩
      rw [ht]
      simp [mapEvents]
    · cases h

/-- A packet one of whose fragments fails to map: the mappings made are undone, the drop is counted (R219). -/
theorem mapFrags_raise {fs : List Frag} {done : List (Word × Nat)} {s t : State} {r : Result}
    (h : mapFrags fs done s = .raise r t) :
    ∃ i es as d, r = .mapping (some i) ∧
      t = countDrop false { s with mapAnswers := as, mapDraws := d, trace := s.trace ++ es } := by
  induction fs generalizing done s with
  | nil => cases h
  | cons f fs ih =>
    simp only [mapFrags] at h
    split at h
    · next addr s1 hd =>
      obtain ⟨as, d, rfl⟩ := dmaMap_eq hd
      obtain ⟨i, es, as', d', hr, ht⟩ := ih h
      refine ⟨i, [.dmaMap f.buf f.len (some addr)] ++ es, as', d', hr, ?_⟩
      rw [ht]
      simp
    · next s1 hd =>
      obtain ⟨as, d, rfl⟩ := dmaMap_eq hd
      cases h
      refine ⟨done.length, [.dmaMap f.buf f.len none] ++ unmapEvents done, as, d, rfl, ?_⟩
      simp [State.emitAll]

theorem mapFrags_not_stop {fs : List Frag} {done : List (Word × Nat)} {s : State} :
    (∀ f, mapFrags fs done s ≠ .fault f) ∧ ∀ r, mapFrags fs done s ≠ .refuse r := by
  induction fs generalizing done s with
  | nil => simp [mapFrags]
  | cons f fs ih =>
    simp only [mapFrags]
    split
    · exact ih
    · simp [raiseError]

/-- The form of a packet: nothing but memory changes, and only in the slot's record group. -/
theorem chooseForm_ok {slot : Nat} {addrs : List Word} {frags : List Frag} {s t : State} {form : TxForm}
    (h : chooseForm slot addrs frags s = .ok form t) :
    (frags.length = 1 ∧ t = s ∧
        form = { dptr := addrs.headD 0, gsz := 0, gather := 0, used := 0, type := .single, sg := none }) ∨
      (frags.length ≠ 1 ∧ ∃ g s1 r, sgAcquire slot s = .ok g s1 ∧
        sgFill slot (gatherEntriesOf addrs frags) s1 = .ok r t ∧
        form = { dptr := r.2.2, gsz := BitVec.ofNat 14 r.1, gather := 1, used := r.2.1, type := .gather, sg := some g.1 }) := by
  simp only [chooseForm] at h
  split at h
  · next h1 => cases h; exact .inl ⟨h1, rfl, rfl⟩
  · next h1 =>
    obtain ⟨g, s1, ha, h⟩ := Res.bind_ok h
    obtain ⟨r, s2, hf, h⟩ := Res.bind_ok h
    cases h
    exact .inr ⟨h1, g, s1, r, ha, hf, rfl⟩

/-- Everything the last steps of `TRANSMIT` can do (R215 steps 4 to 6). -/
theorem commitPacket_ok {handle : Word} {addrs : List Word} {frags : List Frag} {ol : Offload} {last : Bool}
    {s t : State} {r : Nat × Bool} (h : commitPacket handle addrs frags ol last s = .ok r t) :
    ∃ form s1 p s2 s3 c, chooseForm s.q.writeIndex addrs frags s = .ok form s1 ∧
      ringPost (descriptorOf s1.cfg (totalLen frags) ol form.gsz form.gather form.dptr) s1 = .ok p s2 ∧
      pbRecord p.1 (recordArgsOf handle addrs frags form) s2 = .ok () s3 ∧
      ringAnnounce (forceAnnounce s3.cfg last p.2) s3 = .ok c t ∧ r = (1 + form.used, p.2) := by
  obtain ⟨form, s1, h1, h⟩ := Res.bind_ok h
  obtain ⟨p, s2, h2, h⟩ := Res.bind_ok h
  obtain ⟨_, s3, h3, h⟩ := Res.bind_ok h
  obtain ⟨c, s4, h4, h⟩ := Res.bind_ok h
  cases h
  exact ⟨form, s1, p, s2, s3, c, h1, Res.cannotFail_ok h2, Res.cannotFail_ok h3, h4, rfl⟩

/-- Everything `TRANSMIT` can do when it accepts (R215). -/
theorem transmit_ok {handle : Word} {frags : List Frag} {ol : Offload} {last : Bool} {s t : State} {r : Nat × Bool}
    (h : transmit handle frags ol last s = .ok r t) :
    s.q.valid = true ∧ txPrecondition s.params.offloadRule s.cfg frags ol = none ∧ isFull s = false ∧
      ∃ addrs s1, mapFrags frags [] s = .ok addrs s1 ∧ commitPacket handle addrs frags ol last s1 = .ok r t := by
  obtain ⟨hv, h⟩ := requireValid_ok h
  split at h
  · cases h
  · next hp =>
    split at h
    · cases h
    · next hf =>
      obtain ⟨addrs, s1, h1, h2⟩ := Res.bind_ok h
      exact ⟨hv, hp, by simpa using hf, addrs, s1, h1, h2⟩

/-- Everything `TRANSMIT` can do when it does not accept (R217 to R219). -/
theorem transmit_raise {handle : Word} {frags : List Frag} {ol : Offload} {last : Bool} {s t : State} {r : Result}
    (h : transmit handle frags ol last s = .raise r t) :
    s.q.valid = true ∧
      ((∃ reason, txPrecondition s.params.offloadRule s.cfg frags ol = some reason ∧ r = .precondition reason ∧ t = s) ∨
        (txPrecondition s.params.offloadRule s.cfg frags ol = none ∧ isFull s = true ∧ r = .queueFull ∧ t = countDrop true s) ∨
        (txPrecondition s.params.offloadRule s.cfg frags ol = none ∧ isFull s = false ∧ ((mapFrags frags [] s = .raise r t) ∨
          ∃ addrs s1, mapFrags frags [] s = .ok addrs s1 ∧
            commitPacket handle addrs frags ol last s1 = .raise r t))) := by
  obtain ⟨hv, h⟩ := requireValid_raise h
  refine ⟨hv, ?_⟩
  split at h
  · next reason hp => cases h; exact .inl ⟨reason, hp, rfl, rfl⟩
  · next hp =>
    split at h
    · next hf => cases h; exact .inr (.inl ⟨hp, hf, rfl, rfl⟩)
    · next hf => exact .inr (.inr ⟨hp, by simpa using hf, Res.bind_raise h⟩)

/-- The last steps of `TRANSMIT` return no error (R175, R215). -/
theorem commitPacket_not_raise {handle : Word} {addrs : List Word} {frags : List Frag} {ol : Offload} {last : Bool}
    {s t : State} {r : Result} : commitPacket handle addrs frags ol last s ≠ .raise r t := by
  intro h
  rcases Res.bind_raise h with h | ⟨form, s1, _, h⟩
  · simp only [chooseForm] at h
    split at h
    · cases h
    · rcases Res.bind_raise h with h | ⟨g, s1, _, h⟩
      · obtain ⟨_, _, h⟩ := requireSlot_raise h
        cases h
      · rcases Res.bind_raise h with h | ⟨_, _, _, h⟩
        · obtain ⟨_, _, h⟩ := requireSlot_raise h
          split at h
          · cases h
          · split at h
            · cases h
            · rcases Res.bind_raise h with h | ⟨_, _, _, h⟩
              · exact writeRecords_not_raise h
              · cases h
        · cases h
  · rcases Res.bind_raise h with h | ⟨p, s2, _, h⟩
    · exact Res.cannotFail_raise h
    · rcases Res.bind_raise h with h | ⟨_, s3, _, h⟩
      · exact Res.cannotFail_raise h
      · rcases Res.bind_raise h with h | ⟨_, _, _, h⟩
        · exact ringAnnounce_not_raise h
        · cases h

/-- Everything `DESTROY_QUEUE` can do (R230). -/
theorem destroyQueue_ok {s t : State} {u : Unit} (h : destroyQueue s = .ok u t) :
    s.q.valid = true ∧ ∃ s1, releaseSlots false (idxDiff s.cfg.n s.q.writeIndex s.q.flushIndex) s = .ok () s1 ∧
      t = destroyState s1 := by
  obtain ⟨hv, h⟩ := requireValid_ok h
  obtain ⟨_, s1, h1, h2⟩ := Res.bind_ok h
  cases h2
  exact ⟨hv, s1, h1, rfl⟩

theorem destroyQueue_not_raise {s t : State} {r : Result} : destroyQueue s ≠ .raise r t := by
  intro h
  obtain ⟨_, h⟩ := requireValid_raise h
  rcases Res.bind_raise h with h | ⟨_, _, _, h⟩
  · exact releaseSlots_not_raise h
  · cases h

/-! ### Device -/

theorem requireDevice_ok {α : Type} {s : State} {x : Res α} {a : α} {t : State} (h : requireDevice s x = .ok a t) :
    s.dev.avail ≠ 0 ∧ s.q.valid = true ∧ s.dev.synced = true ∧ x = .ok a t := by
  simp only [requireDevice] at h
  split at h
  · cases h
  · next ha =>
    split at h
    · cases h
    · next hv => simp only [Bool.not_eq_true', Bool.and_eq_false_iff, not_or, Bool.not_eq_false] at hv; exact ⟨ha, hv.1, hv.2, h⟩

theorem requireDevice_raise {α : Type} {s : State} {x : Res α} {r : Result} {t : State}
    (h : requireDevice s x = .raise r t) : x = .raise r t := by
  simp only [requireDevice] at h
  split at h
  · cases h
  · split at h
    · cases h
    · exact h

theorem descBuffers_ok {gather : Bool} {d : TxDesc} {s t : State} {bufs : List (Word × BitVec 16)}
    (h : descBuffers gather d s = .ok bufs t) :
    t = s ∧ bufs = if gather then (List.range d.gsz.toNat).map (entryInMem s.mem d.dptr.toNat) else [(d.dptr, d.tlen)] := by
  simp only [descBuffers] at h
  split at h
  · next hg => obtain ⟨_, rfl, rfl⟩ := readEntries_ok h; simp [hg]
  · next hg => cases h; simp [hg]

/-- Everything the consumption of a descriptor can do (R243). -/
theorem consumeDesc_ok {gather : Bool} {d : TxDesc} {s t : State} {u : Unit} (h : consumeDesc gather d s = .ok u t) :
    s.dev.avail ≠ 0 ∧ s.q.valid = true ∧ s.dev.synced = true ∧ undefinedDesc gather d = false ∧
      ∃ bufs, descBuffers gather d s = .ok bufs s ∧
        t = (s.emit (packetEvent s.dev.fetchIndex bufs d)).withDev (advanceDevice s.cfg.n s.dev) := by
  obtain ⟨ha, hv, hy, h⟩ := requireDevice_ok h
  split at h
  · cases h
  · next hu =>
    obtain ⟨bufs, s1, h1, h2⟩ := Res.bind_ok h
    obtain ⟨rfl, _⟩ := descBuffers_ok h1
    cases h2
    exact ⟨ha, hv, hy, by simpa using hu, bufs, h1, rfl⟩

theorem consumeDesc_not_raise {gather : Bool} {d : TxDesc} {s t : State} {r : Result} :
    consumeDesc gather d s ≠ .raise r t := by
  intro h
  have h := requireDevice_raise h
  split at h
  · cases h
  · rcases Res.bind_raise h with h | ⟨_, _, _, h⟩
    · simp only [descBuffers] at h
      split at h
      · exact readEntries_not_raise h
      · cases h
    · cases h

theorem deviceFetch_ok {s t : State} {b : Bytes 64} (h : deviceFetch s = .ok b t) :
    s.dev.avail ≠ 0 ∧ s.q.valid = true ∧ s.dev.synced = true ∧ t = s ∧
      b.val = readBytes s.mem (slotAddr s.cfg s.dev.fetchIndex) 64 := by
  obtain ⟨ha, hv, hy, h⟩ := requireDevice_ok h
  obtain ⟨_, hb, rfl⟩ := memRead_ok h
  exact ⟨ha, hv, hy, rfl, hb⟩

theorem deviceFetch_not_raise {s t : State} {r : Result} : deviceFetch s ≠ .raise r t := by
  intro h
  have h := requireDevice_raise h
  simp only [memRead] at h
  split at h <;> cases h

/-- Everything `DEV_CONSUME` can do (R243). -/
theorem devConsume_ok {s t : State} {u : Unit} (h : devConsume s = .ok u t) :
    ∃ b, deviceFetch s = .ok b s ∧ consumeDesc (isGatherForm (decInstr b).ih) (txDescOf (decInstr b)) s = .ok u t := by
  obtain ⟨b, s1, h1, h2⟩ := Res.bind_ok h
  obtain ⟨_, _, _, rfl, _⟩ := deviceFetch_ok h1
  exact ⟨b, h1, h2⟩

theorem devConsume_not_raise {s t : State} {r : Result} : devConsume s ≠ .raise r t := by
  intro h
  rcases Res.bind_raise h with h | ⟨_, _, _, h⟩
  · exact deviceFetch_not_raise h
  · exact consumeDesc_not_raise h

end Sys2Proof.Machine
end

