-- ==== Sys2Proof/Laws/Fairness.lean ====
section
/-! SUPPORT. The liveness assumption of the spec at work (R248): on a queue the device follows, a weakly fair run consumes an
announced descriptor. Before it, what each kind of step does to the device's count of announced descriptors. -/

namespace Sys2Proof.Machine

/-! ### What the operations leave of the device -/

theorem memWrite_dev {a : Nat} {bs : List Byte} {s t : State} {u : Unit} (h : memWrite a bs s = .ok u t) :
    t.dev = s.dev := by
  obtain ⟨_, rfl⟩ := memWrite_ok h; rfl

theorem writeRecords_dev {base : Nat} {es : List (Word × BitVec 16)} {k r : Nat} {s t : State} {u : Unit}
    (h : writeRecords base es k r s = .ok u t) : t.dev = s.dev := by
  rw [(writeRecords_ok h).1]; rfl

theorem sgFill_dev {slot : Nat} {es : List (Word × BitVec 16)} {s t : State} {r : Nat × Nat × Word}
    (h : sgFill slot es s = .ok r t) : t.dev = s.dev := writeRecords_dev (sgFill_ok h).2.2.2.2.2.2

theorem chooseForm_dev {slot : Nat} {addrs : List Word} {frags : List Frag} {s t : State} {form : TxForm}
    (h : chooseForm slot addrs frags s = .ok form t) : t.dev = s.dev := by
  obtain ⟨_, rfl, _⟩ | ⟨_, g, s1, r, ha, hf, _⟩ := chooseForm_ok h
  · rfl
  · obtain ⟨_, _, _, rfl⟩ := sgAcquire_ok ha
    exact sgFill_dev hf

theorem pbRecord_dev {slot : Nat} {a : RecordArgs} {s t : State} {u : Unit} (h : pbRecord slot a s = .ok u t) :
    t.dev = s.dev := by
  obtain ⟨_, _, _, _, rfl⟩ := pbRecord_ok h; rfl

theorem pbRelease_dev {slot : Nat} {s t : State} {r : Word × BitVec 16 × BitVec 14} (h : pbRelease slot s = .ok r t) :
    t.dev = s.dev := by
  obtain ⟨_, _, _, _, _, rfl⟩ := pbRelease_ok h; rfl

theorem ringPost_dev {desc : Bytes 64} {s t : State} {r : Nat × Bool} (h : ringPost desc s = .ok r t) :
    t.dev = s.dev := by
  obtain ⟨_, _, _, s1, rfl, _, rfl⟩ := ringPost_ok h
  split <;> rfl

theorem ringReclaim_dev {s t : State} {r : Nat × Bool} (h : ringReclaim s = .ok r t) : t.dev = s.dev := by
  obtain ⟨_, s2, h1, _, rfl⟩ := ringReclaim_ok h
  rw [restartPhase]
  split <;> exact (releaseSlots_frame h1).2.2.1

theorem destroyQueue_dev {s t : State} {u : Unit} (h : destroyQueue s = .ok u t) : t.dev = s.dev := by
  obtain ⟨_, s1, h1, rfl⟩ := destroyQueue_ok h
  exact (releaseSlots_frame h1).2.2.1

theorem mapFrags_dev {fs : List Frag} {done : List (Word × Nat)} {s t : State} {addrs : List Word}
    (h : mapFrags fs done s = .ok addrs t) : t.dev = s.dev := by
  obtain ⟨_, _, _, _, _, rfl⟩ := mapFrags_ok h; rfl

/-- An announce adds to the device's count or leaves it (R190, R242). -/
theorem ringAnnounce_avail {force : Bool} {s t : State} {c : BitVec 32} (h : ringAnnounce force s = .ok c t) :
    s.dev.avail ≤ t.dev.avail := by
  obtain ⟨_, ⟨_, _, rfl⟩ | ⟨_, _, rfl⟩⟩ := ringAnnounce_ok h
  · simp [doorbell]
  · exact Nat.le_refl _

theorem createQueue_avail {a : CreateArgs} {s t : State} {u : Unit} (h : createQueue a s = .ok u t) :
    s.dev.avail ≤ t.dev.avail := by
  obtain ⟨_, _, _, _, rfl⟩ := createQueue_ok h
  exact Nat.le_refl _

theorem transmit_avail {handle : Word} {frags : List Frag} {ol : Offload} {last : Bool} {s t : State} {r : Nat × Bool}
    (h : transmit handle frags ol last s = .ok r t) : s.dev.avail ≤ t.dev.avail := by
  obtain ⟨_, _, _, addrs, s1, h1, h2⟩ := transmit_ok h
  obtain ⟨form, s2, p, s3, s4, c, a1, a2, a3, a4, _⟩ := commitPacket_ok h2
  have := ringAnnounce_avail a4
  rwa [pbRecord_dev a3, ringPost_dev a2, chooseForm_dev a1, mapFrags_dev h1] at this

theorem transmit_raise_dev {handle : Word} {frags : List Frag} {ol : Offload} {last : Bool} {s t : State} {r : Result}
    (h : transmit handle frags ol last s = .raise r t) : t.dev = s.dev := by
  obtain ⟨_, ⟨_, _, _, rfl⟩ | ⟨_, _, _, rfl⟩ | ⟨_, _, h | ⟨_, _, _, h⟩⟩⟩ := transmit_raise h
  · rfl
  · rfl
  · obtain ⟨_, _, _, _, _, rfl⟩ := mapFrags_raise h; rfl
  · exact absurd h commitPacket_not_raise

/-! ### The device's count over one instruction -/

/-- An operation that takes nothing from the device's count, whether it returns a value or an error. -/
theorem Res.finish_avail {α : Type} {f : α → Result} {x : Res α} {n : Nat} {t : State} (h : x.finish f = .next t)
    (hok : ∀ a u, x = .ok a u → n ≤ u.dev.avail) (hraise : ∀ r u, x = .raise r u → n ≤ u.dev.avail) :
    n ≤ t.dev.avail := by
  obtain ⟨a, u, hx, rfl⟩ | ⟨r, u, hx, rfl⟩ := Res.finish_next h
  · exact hok a u hx
  · exact hraise r u hx

/-- A device step consumes one announced descriptor and counts it (R243). -/
theorem exec_deviceStep {i : Instr} {s t : State} (hi : isDeviceStep i = true) (h : exec i s = .next t) :
    t.dev = advanceDevice s.cfg.n s.dev ∧ s.dev.avail ≠ 0 := by
  have hc : ∀ {g : Bool} {d : TxDesc} {u : Unit}, consumeDesc g d s = .ok u t →
      t.dev = advanceDevice s.cfg.n s.dev ∧ s.dev.avail ≠ 0 := by
    intro g d u hx
    obtain ⟨ha, _, _, _, _, _, rfl⟩ := consumeDesc_ok hx
    exact ⟨rfl, ha⟩
  cases i with
  | devConsume =>
    obtain ⟨u, hx⟩ | ⟨r, hx⟩ := Res.finishDevice_next h
    · obtain ⟨_, _, hx⟩ := devConsume_ok hx
      exact hc hx
    · exact absurd hx devConsume_not_raise
  | txiSingle d | txiGather d =>
    obtain ⟨u, hx⟩ | ⟨r, hx⟩ := Res.finishDevice_next h
    · exact hc hx
    · exact absurd hx consumeDesc_not_raise
  | _ => simp [isDeviceStep, Decode.opId] at hi

/-- No other instruction takes a descriptor from the device's count (R240, R242). -/
theorem exec_other_avail {i : Instr} {s t : State} (hi : isDeviceStep i = false) (h : exec i s = .next t) :
    s.dev.avail ≤ t.dev.avail := by
  cases i with
  | createQueue a =>
    refine Res.finish_avail h (fun _ _ => createQueue_avail) fun r u hx => ?_
    obtain ⟨_, _, rfl⟩ := createQueue_raise hx
    exact Nat.le_refl _
  | transmit handle frags ol last =>
    exact Res.finish_avail h (fun _ _ => transmit_avail) fun r u hx => by rw [transmit_raise_dev hx]
  | reclaim =>
    refine Res.finish_avail h (fun _ u hx => ?_) fun r u hx => ?_
    · rw [ringReclaim_dev (requireValid_ok hx).2]
    · exact absurd (requireValid_raise hx).2 ringReclaim_not_raise
  | announce =>
    refine Res.finish_avail h (fun _ u hx => ?_) fun r u hx => ?_
    · exact ringAnnounce_avail (requireValid_ok hx).2
    · exact absurd (requireValid_raise hx).2 ringAnnounce_not_raise
  | stats =>
    refine Res.finish_avail h (fun _ u hx => ?_) fun r u hx => ?_
    · cases (requireValid_ok hx).2; exact Nat.le_refl _
    · cases (requireValid_raise hx).2
  | destroyQueue =>
    refine Res.finish_avail h (fun _ u hx => ?_) fun r u hx => ?_
    · rw [destroyQueue_dev hx]
    · exact absurd hx destroyQueue_not_raise
  | sgAcquire slot =>
    refine Res.finish_avail h (fun _ u hx => ?_) fun r u hx => ?_
    · obtain ⟨_, _, _, rfl⟩ := sgAcquire_ok hx; exact Nat.le_refl _
    · cases (requireSlot_raise hx).2.2
  | sgFill slot es =>
    refine Res.finish_avail h (fun _ u hx => by rw [sgFill_dev hx]) fun r u hx => ?_
    obtain ⟨_, _, hx⟩ := requireSlot_raise hx
    split at hx
    · cases hx
    · split at hx
      · cases hx
      · rcases Res.bind_raise hx with hx | ⟨_, _, _, hx⟩
        · exact absurd hx writeRecords_not_raise
        · cases hx
  | pbRecord slot a =>
    refine Res.finish_avail h (fun _ u hx => by rw [pbRecord_dev hx]) fun r u hx => ?_
    obtain ⟨_, rfl, _⟩ := pbRecord_raise hx; exact Nat.le_refl _
  | pbRelease slot =>
    refine Res.finish_avail h (fun _ u hx => by rw [pbRelease_dev hx]) fun r u hx => ?_
    obtain ⟨_, rfl, _⟩ := pbRelease_raise hx; exact Nat.le_refl _
  | ringPost desc =>
    refine Res.finish_avail h (fun _ u hx => by rw [ringPost_dev hx]) fun r u hx => ?_
    obtain ⟨_, rfl, _⟩ := ringPost_raise hx; exact Nat.le_refl _
  | ringAnnounce force =>
    exact Res.finish_avail h (fun _ _ => ringAnnounce_avail) fun r u hx => absurd hx ringAnnounce_not_raise
  | ringReclaim =>
    refine Res.finish_avail h (fun _ u hx => ?_) fun r u hx => absurd hx ringReclaim_not_raise
    rw [ringReclaim_dev hx]
  | devDoorbell count => cases h; simp [doorbell]
  | devConsume | txiSingle d | txiGather d => simp [isDeviceStep, Decode.opId] at hi
  | encIh _ | decIh _ | encTxm _ | decTxm _ _ | encSg _ | decSg _ | encInstr _ | decInstr _ =>
    cases h; exact Nat.le_refl _

/-! ### Over one step and over a run -/

theorem fetchPort_dev {s : State} :
    (∀ i u, fetchPort s = .run i u → u.dev = s.dev) ∧ ∀ u, fetchPort s = .idle u → u.dev = s.dev := by
  simp only [fetchPort]
  split
  · simp
  · split
    · simp
    · simp

theorem fetchDescriptor_dev {s : State} :
    (∀ i u, fetchDescriptor s = .run i u → u.dev = s.dev) ∧ ∀ u, fetchDescriptor s = .idle u → u.dev = s.dev := by
  simp only [fetchDescriptor]
  cases hd : deviceFetch s with
  | ok b s1 => obtain ⟨_, _, _, rfl, _⟩ := deviceFetch_ok hd; simp
  | raise r s1 => exact absurd hd deviceFetch_not_raise
  | fault f => simp
  | refuse r => simp

/-- The fetch leaves the device as it is, but for the turn that resets it (R296). -/
theorem fetch_dev {s : State} :
    (∀ i u, fetch s = .run i u → u.dev = s.dev) ∧
      ∀ u, fetch s = .idle u → u.dev = s.dev ∨ u.dev.synced = false := by
  simp only [fetch]
  split
  · exact ⟨fetchPort_dev.1, fun u hu => .inl (fetchPort_dev.2 u hu)⟩
  · next ts _ =>
    exact ⟨(fetchPort_dev (s := s.withTurns ts)).1, fun u hu => .inl ((fetchPort_dev (s := s.withTurns ts)).2 u hu)⟩
  · next ts _ =>
    exact ⟨(fetchDescriptor_dev (s := s.withTurns ts)).1,
      fun u hu => .inl ((fetchDescriptor_dev (s := s.withTurns ts)).2 u hu)⟩
  · exact ⟨fun _ _ h => by simp at h, fun u hu => .inr (by simp only [Fetched.idle.injEq] at hu; subst hu; rfl)⟩

/-- A step of the device consumes one announced descriptor and counts it (R243). -/
theorem step_device {s t : State} (hd : takesDeviceStep s = true) (h : step s = .next t) :
    t.dev.ic = s.dev.ic + 1 ∧ t.dev.avail + 1 = s.dev.avail := by
  simp only [takesDeviceStep] at hd
  simp only [step] at h
  split at hd
  · next i u hf =>
    rw [hf] at h
    obtain ⟨e, ha⟩ := exec_deviceStep hd h
    rw [fetch_dev.1 i u hf] at e ha
    rw [e]
    exact ⟨rfl, Nat.sub_add_cancel (Nat.one_le_iff_ne_zero.mpr ha)⟩
  all_goals cases hd

/-- Any other step leaves the device's count at least as it was, unless the device is reset (R296). -/
theorem step_other {s t : State} (hd : takesDeviceStep s = false) (h : step s = .next t) :
    s.dev.avail ≤ t.dev.avail ∨ t.dev.synced = false := by
  simp only [takesDeviceStep] at hd
  simp only [step] at h
  split at h
  · next u hf =>
    cases h
    exact (fetch_dev.2 t hf).imp_left fun e => by rw [e]
  · next i u hf =>
    rw [hf] at hd
    exact .inl (by rw [← fetch_dev.1 i u hf]; exact exec_other_avail hd h)
  all_goals cases h

@[simp] theorem arrive_dev (a : Arrival) (s : State) : (arrive a s).dev = s.dev := rfl

/-- What weak fairness gives (R248): while the queue lives on, an announced descriptor that waits is followed by a consumed
one, so the instruction count goes up. -/
theorem fair_run_consumes {input : Nat → Arrival} {run : Nat → State} {n : Nat} (hr : isRun input run)
    (hf : weaklyFair input run) (hlive : ∀ m, n ≤ m → (run m).q.valid = true ∧ (run m).dev.synced = true)
    (hn : (run n).dev.avail ≠ 0) :
    ∃ m, n ≤ m ∧ (run (m + 1)).dev.ic = (run m).dev.ic + 1 ∧ (run (m + 1)).dev.avail + 1 = (run m).dev.avail := by
  by_cases hd : ∃ m, n ≤ m ∧ takesDeviceStep (arrive (input m) (run m)) = true
  · obtain ⟨m, hm, hd⟩ := hd
    have := step_device hd (hr m)
    exact ⟨m, hm, by simpa using this.1, by simpa using this.2⟩
  · refine absurd (hf n fun m hm => ⟨?_, hlive m hm⟩) hd
    induction m, hm using Nat.le_induction with
    | base => exact hn
    | succ m hm ih =>
      have h0 : takesDeviceStep (arrive (input m) (run m)) = false := by
        cases hx : takesDeviceStep (arrive (input m) (run m)) with
        | false => rfl
        | true => exact absurd ⟨m, hm, hx⟩ hd
      rcases step_other h0 (hr m) with h1 | h1
      · have : (run m).dev.avail ≤ (run (m + 1)).dev.avail := by simpa using h1
        omega
      · rw [(hlive (m + 1) (by omega)).2] at h1
        cases h1

end Sys2Proof.Machine
end

