-- ==== Sys2Proof/Laws/PerInstr.lean ====
section
/-! SUPPORT. Facts about every instruction as syntax, one lemma per constructor: which format it is written in and what
selects it there (R117, R108). -/

namespace Sys2Proof.Laws.EncodingSelector

open Sys2Proof Sys2Proof.Decode

/-- An instruction with an operation identifier is written in the command port, its identifier first; one without is a
64-byte descriptor (R117). -/
def Statement (i : Instr) : Prop :=
  match opId i with
  | some op => formatOf i = .op8 ∧ encode i = op :: encodeOperands i
  | none => formatOf i = .ih64 ∧ (encode i).length = 64

theorem createQueue (a : CreateArgs) : Statement (.createQueue a) := ⟨rfl, rfl⟩
theorem transmit (handle : Word) (frags : List Frag) (ol : Offload) (last : Bool) :
    Statement (.transmit handle frags ol last) := ⟨rfl, rfl⟩
theorem reclaim : Statement .reclaim := ⟨rfl, rfl⟩
theorem announce : Statement .announce := ⟨rfl, rfl⟩
theorem stats : Statement .stats := ⟨rfl, rfl⟩
theorem destroyQueue : Statement .destroyQueue := ⟨rfl, rfl⟩
theorem encIh (f : IhFields) : Statement (.encIh f) := ⟨rfl, rfl⟩
theorem decIh (ih : Word) : Statement (.decIh ih) := ⟨rfl, rfl⟩
theorem encTxm (m : TxmFields) : Statement (.encTxm m) := ⟨rfl, rfl⟩
theorem decTxm (txm0 txm1 : Word) : Statement (.decTxm txm0 txm1) := ⟨rfl, rfl⟩
theorem encSg (r : SgRecord) : Statement (.encSg r) := ⟨rfl, rfl⟩
theorem decSg (b : Bytes 40) : Statement (.decSg b) := ⟨rfl, rfl⟩
theorem encInstr (w : InstrWords) : Statement (.encInstr w) := ⟨rfl, rfl⟩
theorem decInstr (b : Bytes 64) : Statement (.decInstr b) := ⟨rfl, rfl⟩
theorem sgAcquire (slot : Nat) : Statement (.sgAcquire slot) := ⟨rfl, rfl⟩
theorem sgFill (slot : Nat) (entries : List (Word × BitVec 16)) : Statement (.sgFill slot entries) := ⟨rfl, rfl⟩
theorem pbRecord (slot : Nat) (a : RecordArgs) : Statement (.pbRecord slot a) := ⟨rfl, rfl⟩
theorem pbRelease (slot : Nat) : Statement (.pbRelease slot) := ⟨rfl, rfl⟩
theorem ringPost (desc : Bytes 64) : Statement (.ringPost desc) := ⟨rfl, rfl⟩
theorem ringAnnounce (force : Bool) : Statement (.ringAnnounce force) := ⟨rfl, rfl⟩
theorem ringReclaim : Statement .ringReclaim := ⟨rfl, rfl⟩
theorem devDoorbell (count : BitVec 32) : Statement (.devDoorbell count) := ⟨rfl, rfl⟩
theorem devConsume : Statement .devConsume := ⟨rfl, rfl⟩
theorem txiSingle (d : TxDesc) :
    Statement (.txiSingle d) := ⟨rfl, (Machine.encInstr (Machine.wordsOfTxDesc 0 d)).property⟩
theorem txiGather (d : TxDesc) :
    Statement (.txiGather d) := ⟨rfl, (Machine.encInstr (Machine.wordsOfTxDesc 1 d)).property⟩

end Sys2Proof.Laws.EncodingSelector
end

