-- ==== Sys2Proof/Laws/Regions.lean ====
section
/-! SUPPORT. Where the addresses of a legal queue lie (R62, R63, R67), and what follows: posts, fills and releases of such
a queue stay inside the DMA space, and regions of different slots are apart. -/

namespace Sys2Proof.Machine

theorem sgArea_le {c : Cfg} (h : c.legal) : c.sgBase.toNat + 40 * c.sgpp * c.n ≤ dmaSpace := by
  have := h.2.2.2.2.2.2.2.2
  simp only [badBase, Bool.or_eq_false_iff, decide_eq_false_iff_not, Nat.not_lt] at this
  exact this.2

theorem ring_le {c : Cfg} (h : c.legal) : c.ringBase.toNat + 64 * c.n ≤ dmaSpace := by
  have := h.2.2.2.2.2.2.2.2
  simp only [badBase, Bool.or_eq_false_iff, decide_eq_false_iff_not, Nat.not_lt] at this
  exact this.1.2

theorem sgpp_pos {c : Cfg} (h : c.legal) : 1 ≤ c.sgpp := by
  rw [h.2.2.2.2.2.1]; exact nrec_pos h.2.2.2.1

theorem maxf_le {c : Cfg} (h : c.legal) : c.maxf ≤ 4 * c.sgpp := by
  rw [h.2.2.2.2.2.1]; exact nrec_mul _

theorem nrec_le_of_le {e k : Nat} (h : e ≤ 4 * k) : nrec e ≤ k := by simp only [nrec]; omega

/-- A slot's descriptor lies inside the ring. -/
theorem slotAddr_bounds {c : Cfg} {slot : Nat} (hs : slot < c.n) :
    c.ringBase.toNat ≤ slotAddr c slot ∧ slotAddr c slot + 64 ≤ c.ringBase.toNat + 64 * c.n := by
  constructor <;> simp only [slotAddr] <;> omega

/-- A slot's record group lies inside the scatter-gather area. -/
theorem sgAddr_bounds {c : Cfg} {slot : Nat} (hs : slot < c.n) :
    c.sgBase.toNat ≤ sgAddr c slot 0 ∧ sgAddr c slot 0 + 40 * c.sgpp ≤ c.sgBase.toNat + 40 * c.sgpp * c.n := by
  have h1 : c.sgpp * slot + c.sgpp ≤ c.sgpp * c.n := by
    rw [← Nat.mul_succ]; exact Nat.mul_le_mul_left _ hs
  have h2 : 40 * c.sgpp * c.n = 40 * (c.sgpp * c.n) := by ring
  constructor <;> simp only [sgAddr, Nat.add_zero] <;> omega

/-- The 64-bit address of a group is its place in memory: no wrap (R63). -/
theorem groupAddr_toNat {c : Cfg} (h : c.legal) {slot : Nat} (hs : slot < c.n) :
    (groupAddr c slot).toNat = sgAddr c slot 0 := by
  have h1 := sgArea_le h
  have h2 := sgpp_pos h
  have h3 := sgAddr_bounds hs
  simp only [dmaSpace] at h1
  simp only [groupAddr, BitVec.toNat_ofNat]
  exact Nat.mod_eq_of_lt (by omega)

/-- Groups of different slots are apart. -/
theorem sgAddr_apart {c : Cfg} {i j : Nat} (h : i ≠ j) :
    sgAddr c i 0 + 40 * c.sgpp ≤ sgAddr c j 0 ∨ sgAddr c j 0 + 40 * c.sgpp ≤ sgAddr c i 0 := by
  simp only [sgAddr, Nat.add_zero]
  rcases Nat.lt_or_gt_of_ne h with h | h
  · left
    have : c.sgpp * i + c.sgpp ≤ c.sgpp * j := by rw [← Nat.mul_succ]; exact Nat.mul_le_mul_left _ h
    omega
  · right
    have : c.sgpp * j + c.sgpp ≤ c.sgpp * i := by rw [← Nat.mul_succ]; exact Nat.mul_le_mul_left _ h
    omega

/-- Descriptors of different slots are apart. -/
theorem slotAddr_apart {c : Cfg} {i j : Nat} (h : i ≠ j) :
    slotAddr c i + 64 ≤ slotAddr c j ∨ slotAddr c j + 64 ≤ slotAddr c i := by
  simp only [slotAddr]; omega

/-- A sound entry's records lie inside the DMA space. -/
theorem entrySound_gather {c : Cfg} (h : c.legal) {slot : Nat} (hs : slot < c.n) {e : PbEntry}
    (he : entrySound c slot e = true) {a : Word} (hk : e.kind = .gather a) :
    a.toNat + 40 * nrec e.nent.toNat ≤ dmaSpace := by
  simp only [entrySound, hk, Bool.and_eq_true, beq_iff_eq, decide_eq_true_eq] at he
  obtain ⟨⟨rfl, _⟩, hm⟩ := he
  have h1 := maxf_le h
  have h2 := nrec_le_of_le (Nat.le_trans hm h1)
  have h3 := sgAddr_bounds hs
  have h4 := sgArea_le h
  rw [groupAddr_toNat h hs]
  omega

/-- A post on a ring that is not full succeeds. -/
theorem ringPost_completes {desc : Bytes 64} {s : State} (hv : s.q.valid = true) (hf : isFull s = false)
    (hb : slotAddr s.cfg s.q.writeIndex + 64 ≤ dmaSpace) :
    ringPost desc s = .ok (s.q.writeIndex, fillsRing s)
      (if fillsRing s then
        signalStop (advanceWrite (s.withMem (storeBytes s.mem (slotAddr s.cfg s.q.writeIndex) desc.val)))
      else advanceWrite (s.withMem (storeBytes s.mem (slotAddr s.cfg s.q.writeIndex) desc.val))) := by
  have hl := desc.property
  have he : isFull (advanceWrite (s.withMem (storeBytes s.mem (slotAddr s.cfg s.q.writeIndex) desc.val))) = fillsRing s := rfl
  rw [ringPost, requireValid_of_valid hv, hf, if_neg (by simp), memWrite, if_pos (by rw [hl]; exact hb)]
  simp only [Res.bind, he]
  cases fillsRing s <;> rfl

/-- `SG_FILL` of a free slot of a legal queue succeeds. -/
theorem sgFill_completes {slot : Nat} {es : List (Word × BitVec 16)} {s : State} (hv : s.q.valid = true)
    (hl : s.cfg.legal) (hs : slot < s.cfg.n) (hp : pbGet s slot = none) (h1 : 1 ≤ es.length)
    (h2 : es.length ≤ 4 * s.cfg.sgpp) :
    ∃ t, writeRecords (sgAddr s.cfg slot 0) es (nrec es.length) 0 s = .ok () t ∧
      sgFill slot es s = .ok (es.length, nrec es.length, groupAddr s.cfg slot) t := by
  have h3 := sgAddr_bounds hs
  have h4 := sgArea_le hl
  have h5 := nrec_le_of_le h2
  have hb : sgAddr s.cfg slot 0 + 40 * (0 + nrec es.length) ≤ dmaSpace := by omega
  obtain ⟨t, ht⟩ := writeRecords_completes (es := es) (s := s) hb
  refine ⟨t, ht, ?_⟩
  have htag : (pbTag s slot != .none) = false := by simp [pbTag_eq_none.mpr hp]
  rw [sgFill, requireSlot_eq hv hs, htag, if_neg (by simp),
    if_neg (by simp only [Bool.or_eq_true, decide_eq_true_eq]; omega), ht]
  rfl

/-- A packet whose answers are all fixed maps to them. -/
theorem mapFrags_fixed {fs : List Frag} {addrs : List Word} {rest : List (Option Word)} {done : List (Word × Nat)}
    {s : State} (hl : addrs.length = fs.length) (ha : s.mapAnswers = addrs.map some ++ rest) :
    mapFrags fs done s = .ok (done.reverse.map Prod.fst ++ addrs)
      { s with mapAnswers := rest, trace := s.trace ++ mapEvents addrs fs } := by
  induction fs generalizing done addrs s with
  | nil =>
    have : addrs = [] := List.length_eq_zero_iff.mp hl
    subst this
    simp only [List.map_nil, List.nil_append] at ha
    simp [mapFrags, mapEvents, ← ha]
  | cons f fs ih =>
    cases addrs with
    | nil => simp at hl
    | cons a addrs =>
      simp only [List.map_cons, List.cons_append] at ha
      simp only [mapFrags, dmaMap, ha]
      rw [ih (addrs := addrs) (by simpa using hl) rfl]
      simp [mapEvents]

end Sys2Proof.Machine
end

