-- ==== Sys2Proof/Laws/Release.lean ====
section
/-! SUPPORT. The release loop of `RING_RECLAIM` and `DESTROY_QUEUE` as a whole (R197, R230): it completes on live sound
slots, and what it leaves of the table, the trace and the counters. -/

namespace Sys2Proof.Machine

/-! ### The slots of a window -/

theorem slotsFrom_succ {n f : Nat} (hf : f < n) (k : Nat) : slotsFrom n f (k + 1) = f :: slotsFrom n (idxInc n f) k := by
  simp only [slotsFrom, List.range_succ_eq_map, List.map_cons, List.map_map, Nat.add_zero, Nat.mod_eq_of_lt hf]
  congr 1
  refine List.map_congr_left fun i _ => ?_
  simp only [Function.comp_apply, idxInc, Nat.mod_add_mod]
  congr 1
  omega

/-- The slots of a window are those fewer than `k` slots on. -/
theorem mem_slotsFrom {n f k slot : Nat} (hf : f < n) (hk : k < n) (hs : slot < n) :
    slot ∈ slotsFrom n f k ↔ idxDiff n slot f < k := by
  simp only [slotsFrom, List.mem_map, List.mem_range]
  constructor
  · rintro ⟨i, hi, rfl⟩
    have := idxDiff_idxAdd (n := n) (b := f) (k := i) hf (by omega)
    simp only [idxAdd] at this
    omega
  · intro h
    exact ⟨_, h, idxAdd_idxDiff hs hf⟩

theorem lt_of_mem_slotsFrom {n f k slot : Nat} (hf : f < n) (h : slot ∈ slotsFrom n f k) : slot < n := by
  simp only [slotsFrom, List.mem_map] at h
  obtain ⟨i, _, rfl⟩ := h
  exact Nat.mod_lt _ (by omega)

theorem not_mem_slotsFrom_next {n f k : Nat} (hf : f < n) (hk : k + 1 < n + 1) :
    f ∉ slotsFrom n (idxInc n f) k := by
  simp only [slotsFrom, List.mem_map, List.mem_range]
  rintro ⟨i, hi, h⟩
  have h1 : (idxInc n f + i) % n = idxAdd n f (1 + i) := by rw [← idxAdd_add]; rfl
  rw [h1, idxAdd_eq hf (by omega)] at h
  split at h <;> omega

/-! ### The loop -/

theorem releaseEvents_congr {m m' : Memory} (h : m = m') (e : PbEntry) : releaseEvents m e = releaseEvents m' e := by
  rw [h]

theorem entriesFrom_succ {s : State} {f k : Nat} {e : PbEntry} (hf : f < s.cfg.n) (he : pbGet s f = some e) :
    entriesFrom s f (k + 1) = e :: entriesFrom s (idxInc s.cfg.n f) k := by
  simp [entriesFrom, slotsFrom_succ hf, he]

/-- Entries of slots that a change of the table did not touch are the same. -/
theorem entriesFrom_congr {s s' : State} {f k : Nat} (hc : s'.cfg.n = s.cfg.n)
    (h : ∀ slot ∈ slotsFrom s.cfg.n f k, pbGet s' slot = pbGet s slot) : entriesFrom s' f k = entriesFrom s f k := by
  simp only [entriesFrom, hc]
  exact List.filterMap_congr h

/-- The release loop on live slots whose records lie inside the DMA space. -/
theorem releaseSlots_completes {counted : Bool} {k : Nat} {s : State} (hv : s.q.valid = true)
    (hf : s.q.flushIndex < s.cfg.n) (hk : k ≤ s.cfg.n) (hw : s.pb.wf)
    (hlive : ∀ slot ∈ slotsFrom s.cfg.n s.q.flushIndex k, ∃ e, pbGet s slot = some e ∧
      ∀ a, e.kind = .gather a → a.toNat + 40 * nrec e.nent.toNat ≤ dmaSpace) :
    ∃ t, releaseSlots counted k s = .ok () t ∧
      (∀ slot, pbGet t slot = if slot ∈ slotsFrom s.cfg.n s.q.flushIndex k then none else pbGet s slot) ∧
      t.trace = s.trace ++ (entriesFrom s s.q.flushIndex k).flatMap (releaseEvents s.mem) ∧
      t.ctr = if counted then (entriesFrom s s.q.flushIndex k).foldl (fun c e => countCompletion e.len e.nent c) s.ctr
        else s.ctr := by
  induction k generalizing s with
  | zero => exact ⟨s, rfl, by simp [slotsFrom], by simp [entriesFrom, slotsFrom], by simp [entriesFrom, slotsFrom]⟩
  | succ k ih =>
    have hmem : s.q.flushIndex ∈ slotsFrom s.cfg.n s.q.flushIndex (k + 1) := by simp [slotsFrom_succ hf]
    obtain ⟨e, he, hm⟩ := hlive _ hmem
    have hrel := pbRelease_completes hv hf he hm
    have hnot := not_mem_slotsFrom_next hf (k := k) (by omega)
    -- the state after the first release
    have hpb : (afterRelease counted e s).pb = sparseDel s.q.flushIndex s.pb := by cases counted <;> rfl
    have hq : (afterRelease counted e s).q = { s.q with flushIndex := idxInc s.cfg.n s.q.flushIndex } := by
      cases counted <;> rfl
    have hc : (afterRelease counted e s).cfg = s.cfg := by cases counted <;> rfl
    have hmm : (afterRelease counted e s).mem = s.mem := by cases counted <;> rfl
    have htr : (afterRelease counted e s).trace = s.trace ++ releaseEvents s.mem e := by cases counted <;> rfl
    have hctr : (afterRelease counted e s).ctr = if counted then countCompletion e.len e.nent s.ctr else s.ctr := by
      cases counted <;> rfl
    have hget : ∀ slot, slot ≠ s.q.flushIndex → pbGet (afterRelease counted e s) slot = pbGet s slot := by
      intro slot hne
      simp only [pbGet, hpb]
      exact sparseGet_del_ne hne _
    have hsame : ∀ slot ∈ slotsFrom s.cfg.n (idxInc s.cfg.n s.q.flushIndex) k,
        pbGet (afterRelease counted e s) slot = pbGet s slot := fun slot hs => hget slot fun h => hnot (h ▸ hs)
    obtain ⟨t, h1, h2, h3, h4⟩ := ih (s := afterRelease counted e s) (by rw [hq]; exact hv)
      (by rw [hq, hc]; exact idxInc_lt (by omega) _) (by rw [hc]; omega) (by rw [hpb]; exact sparseWf_del hw _)
      (by
        rw [hq, hc]
        intro slot hs
        rw [hsame slot hs]
        exact hlive slot (by rw [slotsFrom_succ hf]; exact List.mem_cons_of_mem _ hs))
    rw [hq, hc] at h2
    rw [hq, htr, hmm, entriesFrom_congr (by rw [hc]) hsame] at h3
    rw [hq, hctr, entriesFrom_congr (by rw [hc]) hsame] at h4
    refine ⟨t, ?_, fun slot => ?_, ?_, ?_⟩
    · rw [releaseSlots, hrel]
      exact h1
    · rw [h2]
      simp only [slotsFrom_succ hf, List.mem_cons]
      by_cases hs : slot = s.q.flushIndex
      · subst hs
        simp only [hnot, if_false, true_or, if_true]
        simp only [pbGet, hpb]
        exact sparseGet_del_self hw
      · simp only [hs, false_or, hget slot hs]
    · rw [h3, entriesFrom_succ hf he, List.flatMap_cons, List.append_assoc]
    · rw [h4, entriesFrom_succ hf he, List.foldl_cons]
      cases counted <;> rfl

/-- The completion counters after several releases, as sums (R197, R38). -/
theorem foldl_countCompletion (es : List PbEntry) (c : Counters) :
    es.foldl (fun c e => countCompletion e.len e.nent c) c =
      { c with
        completed := c.completed + BitVec.ofNat 64 es.length
        bytes := c.bytes + BitVec.ofNat 64 (es.map fun e => e.len.toNat).sum
        sgEntries := c.sgEntries + BitVec.ofNat 64 (es.map fun e => e.nent.toNat).sum } := by
  induction es generalizing c with
  | nil => simp
  | cons e es ih =>
    rw [List.foldl_cons, ih]
    have h : ∀ {w : Nat} (a : BitVec 64) (b : BitVec w) (n : Nat),
        a + b.setWidth 64 + BitVec.ofNat 64 n = a + BitVec.ofNat 64 (b.toNat + n) := by
      intro w a b n
      rw [BitVec.add_assoc]
      congr 1
      apply BitVec.eq_of_toNat_eq
      simp
    have h1 : ∀ (a : BitVec 64) (n : Nat), a + 1 + BitVec.ofNat 64 n = a + BitVec.ofNat 64 (n + 1) := by
      intro a n
      rw [BitVec.add_assoc]
      congr 1
      apply BitVec.eq_of_toNat_eq
      simp [Nat.add_comm]
    simp only [countCompletion, List.map_cons, List.sum_cons, List.length_cons, h, h1]

end Sys2Proof.Machine
end

