-- ==== Sys2Proof/Laws/Rules.lean ====
section
/-! SUPPORT. The checks of Machine/Operands.lean say what the rules say: `OFFLOAD_VALID` (R213, R115) and the encodings of
R114, in the words of Safety.lean. -/

namespace Sys2Proof.Machine

/-- `OFFLOAD_VALID` admits exactly the requests of `offloadAllowed`. -/
theorem offloadValid_iff (rule : OffloadRule) (ol : Offload) : offloadValid rule ol = true ↔ offloadAllowed rule ol := by
  cases rule <;>
    simp only [offloadValid, offloadFits, Bool.and_eq_true, decide_eq_true_eq, and_assoc, Bool.not_eq_true',
      beq_iff_eq, List.all_eq_true, bne_iff_ne, Bool.and_eq_false_imp, Nat.div_eq_zero_iff, ne_eq]
  simp

/-- A descriptor has no meaning at the device exactly in the cases R114 lists. -/
theorem undefinedDesc_iff (gather : Bool) (d : TxDesc) : undefinedDesc gather d = true ↔ unproducedDesc gather d := by
  have hg : d.gsz.toNat < 2 ↔ d.gsz = 0 ∨ d.gsz = 1 := by
    rw [← BitVec.toNat_inj, ← BitVec.toNat_inj]; simp; omega
  have hf : d.txm.olFlags >>> 7 ≠ 0 ↔ 128 ≤ d.txm.olFlags.toNat := by
    rw [ne_eq, ← BitVec.toNat_inj]
    simp only [BitVec.toNat_ushiftRight, Nat.shiftRight_eq_div_pow, BitVec.ofNat_eq_ofNat, BitVec.toNat_ofNat]
    omega
  cases gather <;>
    simp only [undefinedDesc, unproducedDesc, Bool.or_eq_true, Bool.and_eq_true, bne_iff_ne, Bool.not_eq_true',
      Bool.or_eq_false_iff, decide_eq_true_eq, olSet, olBit, ↓reduceIte, Bool.false_eq_true, Bool.true_eq_false,
      false_and, true_and, false_or, or_assoc, and_assoc, hg, hf]

end Sys2Proof.Machine
end

