-- ==== Sys2Proof/Tests/Slice0.lean ====
section
/-! SUPPORT. The model's own tests. Expected values are the vectors of 95_test_vectors.md (V-..., S..., P...) or are worked
out by hand from the rule named; the witnesses at the end show that the hypotheses of each statement can be met. -/

set_option Elab.async false -- one thread: each of the many small evaluations would otherwise take one of its own

namespace Sys2Proof.Tests

open Sys2Proof.Machine

/-! ### Small states and what is read of an outcome -/

/-- A live queue of `n` slots at the addresses of the vectors, write index `w`, flush and device-read index `f`. -/
def queueAt (n maxf thr w f : Nat) : State :=
  { State.reset with
    cfg := { State.reset.cfg with n := n, maxf := maxf, sgpp := nrec maxf, fillThreshold := thr
                                  ringBase := 0x10000000, sgBase := 0x20000000 }
    q := { State.reset.q with valid := true, writeIndex := w, deviceReadIndex := f, flushIndex := f }
    dev := { State.reset.dev with synced := true } }

/-- The same queue with `fill` unannounced descriptors. -/
def withFill (fill : BitVec 32) (s : State) : State := { s with q := { s.q with fillCount := fill } }

/-- The same queue with the count register at `ic` and the last sample at `last`. -/
def withCount (ic last : BitVec 32) (s : State) : State :=
  { s with dev := { s.dev with ic := ic }, q := { s.q with lastCount := last } }

/-- The same device with `avail` announced descriptors and its fetch position at `fetch`. -/
def withDevice (avail fetch : Nat) (s : State) : State :=
  { s with dev := { s.dev with avail := avail, fetchIndex := fetch } }

/-- A live single-buffer entry. -/
def single (h dma : Word) (len : BitVec 16) : PbEntry := { kind := .single, handle := h, dma := dma, len := len, nent := 0 }

/-- A live gathered entry. -/
def gathered (sg h dma : Word) (len : BitVec 16) (nent : BitVec 14) : PbEntry :=
  { kind := .gather sg, handle := h, dma := dma, len := len, nent := nent }

/-- The next state of an outcome, if it has one. -/
def next? : Host.Outcome State Fault Refusal → Option State
  | .next s => some s
  | .fault _ => none
  | .refused _ => none

/-- The refusal of an outcome, if it is one. -/
def refusal? : Host.Outcome State Fault Refusal → Option Refusal
  | .refused r => some r
  | .next _ => none
  | .fault _ => none

/-- The fault of an outcome, if it is one. -/
def fault? : Host.Outcome State Fault Refusal → Option Fault
  | .fault f => some f
  | .next _ => none
  | .refused _ => none

/-- The result of an instruction. -/
def resultOf (i : Instr) (s : State) : Option Result := (next? (exec i s)).bind (·.result)

/-- The events of an instruction on a state with an empty trace. -/
def eventsOf (i : Instr) (s : State) : Option (List Event) := (next? (exec i s)).map (·.trace)

theorem next_of {o : Host.Outcome State Fault Refusal} (h : (next? o).isSome = true) : ∃ t, o = .next t := by
  cases o with
  | next t => exact ⟨t, rfl⟩
  | fault f => cases h
  | refused r => cases h

theorem next_with {o : Host.Outcome State Fault Refusal} (p : State → Bool) (h : (next? o).any p = true) :
    ∃ t, o = .next t ∧ p t = true := by
  cases o with
  | next t => exact ⟨t, rfl, h⟩
  | fault f => cases h
  | refused r => cases h

/-- Operands of `CREATE_QUEUE` as the vectors of section 2.9 write them. -/
def createOf (n maxf thr pkind fsz : Nat) (region : Region) : CreateArgs :=
  { capacity := n, maxFragments := maxf, fillThreshold := thr, pkind := pkind, fsz := fsz, region := region
    db := 0, ic := 0, il := 0, announceOnFull := false }

/-- The region of the vectors. -/
def usualRegion : Region := .ok 0x10000000 0x20000000

/-- No offload requested. -/
def noOffload : Offload := { flags := 0, segSize := 0, segCount := 0 }

/-- A descriptor's fields, everything but address, lengths and offload zero. -/
def txDesc (dptr : Word) (tlen : BitVec 16) (gsz : BitVec 14) : TxDesc :=
  { dptr := dptr, tlen := tlen, rsvd := 0, pkind := 0, fsz := 0, gsz := gsz, rsvd3 := 0
    txm := { olFlags := 0, segSize := 0, segCount := 0, mrsvd1 := 0, mrsvd2 := 0 }
    exhdr0 := 0, exhdr1 := 0, exhdr2 := 0, exhdr3 := 0 }

/-- Zero bytes, `Z(n)` of the vectors. -/
def z (n : Nat) : List Byte := List.replicate n 0

/-- The 64 bytes of V-IN-1. -/
def bytesIn1 : Bytes 64 := ⟨[0x00, 0xC0, 0xAB, 0, 0, 0, 0, 0, 0x3C, 0, 0, 0, 0, 0, 0, 0] ++ z 48, rfl⟩

/-- The 64 bytes of V-IN-2. -/
def bytesIn2 : Bytes 64 := ⟨[0, 0, 0, 0x20, 0, 0, 0, 0, 0xDC, 0x05, 0, 0, 0, 0, 0x05, 0x40] ++ z 48, rfl⟩

/-- The 64 bytes of V-IN-3. -/
def bytesIn3 : Bytes 64 :=
  ⟨[0x28, 0, 0, 0x20, 0, 0, 0, 0, 0xDE, 0x05, 0, 0, 0x10, 0x08, 0x02, 0x40, 0x2A, 0, 0xA8, 0x05, 0x03, 0, 0, 0] ++ z 40,
    rfl⟩

/-- The 40 bytes of V-SG-1. -/
def bytesSg1 : Bytes 40 :=
  ⟨[0x64, 0, 0xC8, 0, 0x2C, 0x01, 0x90, 0x01, 0, 0xA0, 0, 0, 0, 0, 0, 0, 0, 0xB0, 0, 0, 0, 0, 0, 0,
    0, 0xC0, 0, 0, 0, 0, 0, 0, 0, 0xD0, 0, 0, 0, 0, 0, 0], rfl⟩

/-- The 40 bytes of V-SG-2. -/
def bytesSg2 : Bytes 40 := ⟨[0xF4, 0x01, 0, 0, 0, 0, 0, 0, 0, 0xE0, 0, 0, 0, 0, 0, 0] ++ z 24, rfl⟩

/-! ### Well-formedness: an ill-formed term for each check -/

theorem test_wf_capacity : (Instr.createQueue (createOf (2 ^ 64) 1 1 0 0 .fail)).wf = false := by decide
theorem test_wf_max_fragments : (Instr.createQueue (createOf 8 (2 ^ 64) 1 0 0 .fail)).wf = false := by decide
theorem test_wf_fill_threshold : (Instr.createQueue (createOf 8 1 (2 ^ 64) 0 0 .fail)).wf = false := by decide
theorem test_wf_pkind : (Instr.createQueue (createOf 8 1 1 (2 ^ 64) 0 .fail)).wf = false := by decide
theorem test_wf_fsz : (Instr.createQueue (createOf 8 1 1 0 (2 ^ 64) .fail)).wf = false := by decide
theorem test_wf_create : (Instr.createQueue (createOf (2 ^ 64 - 1) 1 1 0 0 .fail)).wf = true := by decide
theorem test_wf_fragment_length : (Instr.transmit 0 [⟨0, 2 ^ 64⟩] noOffload false).wf = false := by decide
theorem test_wf_flags : (Instr.transmit 0 [] ⟨2 ^ 64, 0, 0⟩ false).wf = false := by decide
theorem test_wf_seg_size : (Instr.transmit 0 [] ⟨0, 2 ^ 64, 0⟩ false).wf = false := by decide
theorem test_wf_seg_count : (Instr.transmit 0 [] ⟨0, 0, 2 ^ 64⟩ false).wf = false := by decide
theorem test_wf_fragment_count : (Instr.transmit 0 (List.replicate dmaSpace ⟨0, 0⟩) noOffload false).wf = false := by
  rw [Instr.wf, List.length_replicate]; rfl
theorem test_wf_acquire_slot : (Instr.sgAcquire (2 ^ 64)).wf = false := by decide
theorem test_wf_fill_slot : (Instr.sgFill (2 ^ 64) []).wf = false := by decide
theorem test_wf_fill_entries : (Instr.sgFill 0 (List.replicate dmaSpace (0, 0))).wf = false := by
  rw [Instr.wf, List.length_replicate]; rfl
theorem test_wf_record_slot : (Instr.pbRecord (2 ^ 64) ⟨0, 0, none, .single, 0, 0⟩).wf = false := by decide
theorem test_wf_release_slot : (Instr.pbRelease (2 ^ 64)).wf = false := by decide

/-! ### Decoding: words written out from R117 (identifiers), R92 and R95 (descriptors) -/

/-- What the decoder makes of a command, all of it taken. -/
def decoded (bs : List Byte) : Option Instr :=
  match Decode.decode .op8 bs with
  | .ok (i, []) => some i
  | _ => none

/-- What the decoder makes of a descriptor. -/
def decodedDesc (b : Bytes 64) : Option Instr :=
  match Decode.decode .ih64 b.val with
  | .ok (i, []) => some i
  | _ => none

theorem test_decode_create_queue :
    decoded ([0x00, 8, 0, 0, 0, 0, 0, 0, 0, 6, 0, 0, 0, 0, 0, 0, 0, 7, 0, 0, 0, 0, 0, 0, 0, 1, 0, 0, 0, 0, 0, 0, 0,
      2, 0, 0, 0, 0, 0, 0, 0, 1, 0, 0, 0, 0x10, 0, 0, 0, 0, 0, 0, 0, 0x20, 0, 0, 0, 0, 3, 0, 0, 0, 0, 0, 0, 0,
      4, 0, 0, 0, 0, 0, 0, 0, 5, 0, 0, 0, 0, 0, 0, 0, 1]) =
      some (.createQueue { createOf 8 6 7 1 2 usualRegion with db := 3, ic := 4, il := 5, announceOnFull := true }) := by
  decide +kernel
theorem test_decode_create_queue_no_region :
    decoded ([0x00] ++ z 40 ++ [0] ++ z 24 ++ [0]) = some (.createQueue (createOf 0 0 0 0 0 .fail)) := by decide +kernel
theorem test_decode_transmit :
    decoded ([0x01, 0xB2, 0, 0, 0, 0, 0, 0, 0, 2, 0, 0, 0, 0, 0, 0, 0, 0, 0xA0, 0, 0, 0, 0, 0, 0, 100, 0, 0, 0, 0, 0, 0, 0,
      0, 0xB0, 0, 0, 0, 0, 0, 0, 200, 0, 0, 0, 0, 0, 0, 0, 0x2A, 0, 0, 0, 0, 0, 0, 0, 0xA8, 5, 0, 0, 0, 0, 0, 0,
      3, 0, 0, 0, 0, 0, 0, 0, 1]) =
      some (.transmit 0xB2 [⟨0xA000, 100⟩, ⟨0xB000, 200⟩] ⟨0x2A, 1448, 3⟩ true) := by decide +kernel
theorem test_decode_reclaim : decoded [0x02] = some .reclaim := by decide +kernel
theorem test_decode_announce : decoded [0x03] = some .announce := by decide +kernel
theorem test_decode_stats : decoded [0x04] = some .stats := by decide +kernel
theorem test_decode_destroy_queue : decoded [0x05] = some .destroyQueue := by decide +kernel
theorem test_decode_enc_ih :
    decoded [0x10, 0x34, 0x12, 0xDE, 0xBC, 0x0A, 0x15, 0x2A, 0x55, 0x15, 1, 0] =
      some (.encIh ⟨0x1234, 0xABCDE, 0x15, 0x2A, 0x1555, 1, 0⟩) := by decide +kernel
theorem test_decode_dec_ih :
    decoded [0x11, 0x34, 0x12, 0xDE, 0xBC, 0x5A, 0xA9, 0x55, 0x55] = some (.decIh 0x5555A95ABCDE1234) := by decide +kernel
theorem test_decode_enc_txm :
    decoded ([0x12, 0x2A, 0, 0xA8, 5, 3, 0, 1, 0] ++ z 7 ++ [9]) = some (.encTxm ⟨0x2A, 1448, 3, 1, 0x0900000000000000⟩) := by
  decide +kernel
theorem test_decode_dec_txm :
    decoded ([0x13, 0x2A, 0, 0xA8, 5, 3, 0, 0, 0, 1] ++ z 7) = some (.decTxm 0x0000000305A8002A 1) := by decide +kernel
theorem test_decode_enc_sg : decoded (0x14 :: bytesSg1.val) =
    some (.encSg ⟨100, 200, 300, 400, 0xA000, 0xB000, 0xC000, 0xD000⟩) := by decide +kernel
theorem test_decode_dec_sg : decoded (0x15 :: bytesSg1.val) = some (.decSg bytesSg1) := by decide +kernel
theorem test_decode_enc_instr : decoded (0x16 :: bytesIn3.val) =
    some (.encInstr ⟨0x20000028, 0x40020810000005DE, 0x0000000305A8002A, 0, 0, 0, 0, 0⟩) := by decide +kernel
theorem test_decode_dec_instr : decoded (0x17 :: bytesIn3.val) = some (.decInstr bytesIn3) := by decide +kernel
theorem test_decode_sg_acquire : decoded ([0x20, 3] ++ z 7) = some (.sgAcquire 3) := by decide +kernel
theorem test_decode_sg_fill :
    decoded ([0x21, 3] ++ z 7 ++ [1] ++ z 7 ++ [0, 0xA0, 0, 0, 0, 0, 0, 0, 0x64, 1]) = some (.sgFill 3 [(0xA000, 356)]) := by
  decide +kernel
theorem test_decode_pb_record :
    decoded ([0x30, 1] ++ z 7 ++ [0xB2] ++ z 7 ++ [0, 0xA0] ++ z 6 ++ [1, 0x28, 0, 0, 0x20, 0, 0, 0, 0, 2, 0x2C, 1, 2, 0]) =
      some (.pbRecord 1 ⟨0xB2, 0xA000, some 0x20000028, .gather, 300, 2⟩) := by decide +kernel
theorem test_decode_pb_release : decoded ([0x31, 2] ++ z 7) = some (.pbRelease 2) := by decide +kernel
theorem test_decode_ring_post : decoded (0x40 :: bytesIn1.val) = some (.ringPost bytesIn1) := by decide +kernel
theorem test_decode_ring_announce : decoded [0x41, 1] = some (.ringAnnounce true) := by decide +kernel
theorem test_decode_ring_reclaim : decoded [0x42] = some .ringReclaim := by decide +kernel
theorem test_decode_dev_doorbell : decoded [0x50, 3, 0, 0, 1] = some (.devDoorbell 0x01000003) := by decide +kernel
theorem test_decode_dev_consume : decoded [0x51] = some .devConsume := by decide +kernel
/-- V-FORM-1. -/
theorem test_decode_txi_single : decodedDesc bytesIn1 = some (.txiSingle (txDesc 0xABC000 60 0)) := by decide +kernel
/-- V-FORM-2. -/
theorem test_decode_txi_gather : decodedDesc bytesIn2 = some (.txiGather (txDesc 0x20000000 1500 5)) := by decide +kernel
/-- V-FORM-3: the tag, the front size and the metadata as well. -/
theorem test_decode_txi_gather_offload : decodedDesc bytesIn3 = some (.txiGather
    { txDesc 0x20000028 1502 2 with pkind := 1, fsz := 2, txm := ⟨0x2A, 1448, 3, 0, 0⟩ }) := by decide +kernel
/-- R280: `op` 0x06 is not assigned. -/
theorem test_decode_unassigned : Decode.decodeOp8 [0x06] = .error (.unassignedOp 0x06) := rfl
/-- R141: a field value that does not fit its width is refused. -/
theorem test_decode_range : decoded [0x10, 0, 0, 0, 0, 0x10, 0, 0, 0, 0, 0, 0] = none := by decide +kernel
/-- The words of the opcode table: `op` alone for OP8, the header word's bit 62 for IH64. -/
theorem test_table_word_reclaim : decodeTableWord 8 0x02 = some .reclaim := by decide +kernel
theorem test_table_word_gather : decodeTableWord 64 0x4000000000000000 = some (.txiGather (txDesc 0 0 0)) := by
  decide +kernel

/-! ### Codec (V-IH, V-TXM, V-SG, V-IN) -/

theorem test_enc_ih_13 : encIh ⟨0x1234, 0xABCDE, 0x15, 0x2A, 0x1555, 1, 0⟩ = 0x5555A95ABCDE1234 := by decide +kernel
theorem test_enc_ih_9 : encIh ⟨0, 0, 0, 0, 0, 0, 1⟩ = 0x8000000000000000 := by decide +kernel
theorem test_dec_ih_14 : decIh 0x40070D5000001234 = ⟨0x1234, 0, 21, 3, 7, 1, 0⟩ := by decide +kernel
theorem test_dec_ih_3 : decIh 0x7FFF00000000FFFF = ⟨65535, 0, 0, 0, 16383, 1, 0⟩ := by decide +kernel
theorem test_enc_txm_9 : encTxm ⟨0x29, 1448, 45, 0, 0⟩ = (0x0000002D05A80029, 0) := by decide +kernel
theorem test_enc_txm_10 : encTxm ⟨0, 0, 0, 1, 0x0102030405060708⟩ = (0x0001000000000000, 0x0102030405060708) := by
  decide +kernel
theorem test_dec_txm_2 : decTxm 0x0000FFFFFFFF007F 0 = ⟨0x7F, 65535, 65535, 0, 0⟩ := by decide +kernel
theorem test_enc_sg_1 : encSg ⟨100, 200, 300, 400, 0xA000, 0xB000, 0xC000, 0xD000⟩ = bytesSg1 := by decide +kernel
theorem test_dec_sg_6 : decSg ⟨[0, 0, 0, 0, 0, 0, 0xEF, 0xBE] ++ z 24 ++ [8, 7, 6, 5, 4, 3, 2, 1], rfl⟩ =
    ⟨0, 0, 0, 0xBEEF, 0, 0, 0, 0x0102030405060708⟩ := by decide +kernel
theorem test_enc_instr_3 :
    encInstr ⟨0x20000028, 0x40020810000005DE, 0x0000000305A8002A, 0, 0, 0, 0, 0⟩ = bytesIn3 := by decide +kernel
/-- V-IN-4, the last word of the placement probe. -/
theorem test_dec_instr_4 : (decInstr ⟨z 56 ++ [0x71, 0x72, 0x73, 0x74, 0x75, 0x76, 0x77, 0x78], rfl⟩).exhdr3 =
    0x7877767574737271 := by decide +kernel
theorem test_dec_instr_2 : decInstr bytesIn2 = ⟨0x20000000, 0x40050000000005DC, 0, 0, 0, 0, 0, 0⟩ := by decide +kernel

/-! ### Pool and pending table (V-SGP, V-PB) -/

/-- V-SGP-2. -/
theorem test_sg_acquire : resultOf (.sgAcquire 3) (queueAt 4 6 1 0 0) = some (.group 0x200000F0 2) := by decide +kernel
/-- V-SGP-4. -/
theorem test_sg_acquire_largest : resultOf (.sgAcquire 1) (queueAt 2 16383 1 0 0) = some (.group 0x20028000 4096) := by
  decide +kernel
/-- R152: entry 4 opens the second record; positions past the last entry are zero. -/
theorem test_sg_fill : ((next? (exec (.sgFill 1 [(0xA000, 100), (0xB000, 200), (0xC000, 300), (0xD000, 400), (0xE000, 500)])
    (queueAt 4 6 1 0 0))).map fun t =>
      (t.result, readBytes t.mem 0x20000050 40, readBytes t.mem 0x20000078 40)) =
    some (some (.filled 5 2 0x20000050), bytesSg1.val, bytesSg2.val) := by decide +kernel
/-- V-SGP-9. -/
theorem test_sg_fill_too_many :
    refusal? (exec (.sgFill 0 (List.replicate 5 (0, 0))) (queueAt 4 4 1 0 0)) = some .entryCount := by decide +kernel
/-- V-PB-1. -/
theorem test_pb_record : ((next? (exec (.pbRecord 2 ⟨0xA1, 0xABC000, none, .single, 60, 0⟩) (queueAt 4 4 1 0 0))).map
    fun t => (t.result, t.pb)) = some (some .done, [(2, single 0xA1 0xABC000 60)]) := by decide +kernel
/-- V-PB-2. -/
theorem test_pb_record_live : ((next? (exec (.pbRecord 2 ⟨0xA2, 0xDEF000, none, .single, 61, 0⟩)
    { queueAt 4 4 1 0 0 with pb := [(2, single 0xA1 0xABC000 60)] })).map fun t => (t.result, t.pb)) =
    some (some (.pbAlreadyInFlight 2), [(2, single 0xA1 0xABC000 60)]) := by decide +kernel
/-- V-PB-7. -/
theorem test_pb_release_gather : ((next? (exec (.pbRelease 1)
    { queueAt 4 4 1 0 0 with
      pb := [(1, gathered 0x20000028 0xB2 0xA000 300 2)]
      mem := storeBytes [] 0x20000028 bytesSg1.val })).map fun t => (t.result, t.pb, t.trace)) =
    some (some (.released 0xB2 300 2), [], [.dmaUnmap 0xA000 100, .dmaUnmap 0xB000 200, .handleReturn 0xB2]) := by
  decide +kernel
/-- V-PB-3. -/
theorem test_pb_release_single : eventsOf (.pbRelease 2)
    { queueAt 4 4 1 0 0 with pb := [(2, single 0xA1 0xABC000 60)] } =
    some [.dmaUnmap 0xABC000 60, .handleReturn 0xA1] := by decide +kernel

/-! ### Ring (V-RG) -/

/-- V-RG-1. -/
theorem test_ring_post : ((next? (exec (.ringPost bytesIn1) (withFill 2 (queueAt 8 1 4 6 0)))).map fun t =>
    (t.result, t.q.writeIndex, t.trace, readBytes t.mem 0x10000180 64)) =
    some (some (.posted 6 true), 7, [.stop], bytesIn1.val) := by decide +kernel
/-- V-RG-3. -/
theorem test_ring_post_wrap : ((next? (exec (.ringPost bytesIn1) (queueAt 8 1 4 7 3))).map fun t =>
    (t.result, t.q.writeIndex, t.q.fillCount, inflight t)) = some (some (.posted 7 false), 0, 1, 5) := by decide +kernel
/-- V-RG-6. -/
theorem test_ring_announce_below :
    resultOf (.ringAnnounce false) (withFill 3 (queueAt 8 1 4 3 0)) = some (.announced 0) := by decide +kernel
/-- V-RG-7. -/
theorem test_ring_announce_forced : ((next? (exec (.ringAnnounce true) (withFill 3 (queueAt 8 1 4 3 0)))).map fun t =>
    (t.result, t.q.fillCount, t.dev.avail, t.trace)) = some (some (.announced 3), 0, 3, [.doorbellWrite 3]) := by
  decide +kernel

/-- Three live entries of 60 bytes in the slots given. -/
def threeLive (a b c : Nat) : PbTable := [(a, single 1 10 60), (b, single 2 20 60), (c, single 3 30 60)]

/-- V-RG-11, with the three oldest of the seven entries written out. -/
theorem test_ring_reclaim : ((next? (exec .ringReclaim
    { withCount 3 0 (queueAt 8 1 4 7 0) with pb := threeLive 0 1 2 })).map fun t =>
      (t.result, t.q, t.ctr.completed, t.ctr.bytes, t.ctr.restart)) =
    some (some (.reclaimed 3 true), ⟨true, 7, 3, 3, 0, 3⟩, 3, 180, 1) := by decide +kernel
/-- V-RG-17: three slots over the end of the ring, oldest first. -/
theorem test_ring_reclaim_wrap : ((next? (exec .ringReclaim
    { withCount 6 3 (queueAt 4 1 4 2 3) with pb := threeLive 0 1 3 })).map fun t => (t.q.flushIndex, t.pb, t.trace)) =
    some (2, [], [.dmaUnmap 30 60, .handleReturn 3, .dmaUnmap 10 60, .handleReturn 1, .dmaUnmap 20 60, .handleReturn 2,
      .restart]) := by decide +kernel

/-! ### Host commands (V-CQ, V-TX, V-AN, V-ST, V-DQ) -/

/-- V-CQ-17. -/
theorem test_create_queue : ((next? (exec (.createQueue (createOf 8 6 1 0 0 usualRegion))
    (withCount 0x12345678 0 State.reset))).map fun t => (t.result, t.q, t.cfg.sgpp)) =
    some (some .done, ⟨true, 0, 0, 0, 0, 0x12345678⟩, 2) := by decide +kernel
/-- V-CQ-12 and V-CQ-13: a ring past, and exactly at, the end of the space. -/
theorem test_create_queue_base :
    (resultOf (.createQueue (createOf 2 1 1 0 0 (.ok 0xFFFFFFFFFFFFFFC0 0x20000000))) State.reset,
      resultOf (.createQueue (createOf 2 1 1 0 0 (.ok 0xFFFFFFFFFFFFFF80 0x20000000))) State.reset) =
      (some (.precondition .badBase), some .done) := by decide +kernel
/-- P4 line 8: one ring slot and one record, the ring full, the doorbell rung. -/
theorem test_transmit_gather : ((next? (exec (.transmit 0x25 [⟨0x100, 65533⟩, ⟨0x200, 1⟩, ⟨0x300, 1⟩] ⟨0x45, 1472, 2⟩ false)
    { queueAt 2 3 1 0 0 with mapAnswers := [some 0xAA000, some 0xBB000, some 0xAA000] })).map fun t =>
      (t.result, readBytes t.mem 0x10000000 24, t.pb, t.dev.avail)) =
    some (some (.accepted 2 true),
      [0, 0, 0, 0x20, 0, 0, 0, 0, 0xFF, 0xFF, 0, 0, 0, 0, 3, 0x40, 0x45, 0, 0xC0, 5, 2, 0, 0, 0],
      [(0, gathered 0x20000000 0x25 0xAA000 65535 3)], 1) := by decide +kernel
/-- P4 line 6: the mappings undone in descending order. -/
theorem test_transmit_rollback : ((next? (exec (.transmit 0x24 [⟨0x100, 65533⟩, ⟨0x200, 1⟩, ⟨0x300, 1⟩] noOffload false)
    { queueAt 2 3 1 0 0 with mapAnswers := [some 0xAA000, some 0xBB000, none] })).map fun t =>
      (t.result, t.ctr.dropped, t.trace.drop 3)) =
    some (some (.mapping (some 2)), 1, [.dmaUnmap 0xBB000 1, .dmaUnmap 0xAA000 65533]) := by decide +kernel
/-- Scenario A: three of seven consumed. -/
theorem test_reclaim : resultOf .reclaim { withCount 3 0 (queueAt 8 1 4 7 0) with pb := threeLive 0 1 2 } =
    some (.reclaimed 3 true) := by decide +kernel
/-- V-RG-13. -/
theorem test_reclaim_nothing : resultOf .reclaim (queueAt 8 1 4 7 0) = some (.reclaimed 0 false) := by decide +kernel
/-- V-AN-1. -/
theorem test_announce : ((next? (exec .announce (withFill 2 (queueAt 8 1 4 2 0)))).map fun t => (t.result, t.trace)) =
    some (some (.announced 2), [.doorbellWrite 2]) := by decide +kernel
/-- V-AN-2. -/
theorem test_announce_nothing : resultOf .announce (queueAt 8 1 4 2 0) = some (.announced 0) := by decide +kernel
/-- V-ST-2. -/
theorem test_stats : resultOf .stats { queueAt 8 1 1 7 0 with ctr := ⟨7, 0, 1, 0, 0, 1, 0⟩ } =
    some (.stats ⟨7, 0, 1, 0, 0, 1, 0⟩) := by decide +kernel
/-- V-ST-3. -/
theorem test_stats_no_queue : refusal? (exec .stats State.reset) = some .queueNotValid := by decide +kernel
/-- V-DQ-2, with `threeLive` for the entries. -/
theorem test_destroy_queue : ((next? (exec .destroyQueue { queueAt 4 1 3 2 3 with pb := threeLive 0 1 3 })).map fun t =>
    (t.q.valid, t.q.flushIndex, t.q.deviceReadIndex, t.ctr.completed, t.trace.length)) = some (false, 2, 2, 0, 6) := by
  decide +kernel

/-! ### Device (V-DV) -/

/-- V-DV-1. -/
theorem test_dev_doorbell : ((next? (exec (.devDoorbell 3) (withDevice 2 0 (queueAt 4 1 1 0 0)))).map fun t => t.dev.avail) =
    some 5 := by decide +kernel
/-- V-DV-4. -/
theorem test_dev_consume_gather : eventsOf .devConsume { withDevice 1 0 (queueAt 4 6 1 1 0) with
      mem := storeBytes (storeBytes (storeBytes [] 0x10000000 bytesIn2.val) 0x20000000 bytesSg1.val) 0x20000028
        bytesSg2.val } =
    some [.txPacket 0 [(0xA000, 100), (0xB000, 200), (0xC000, 300), (0xD000, 400), (0xE000, 500)] 1500 0 0
      ⟨0, 0, 0, 0, 0⟩] := by decide +kernel
/-- V-DV-5: fetch index and count wrap. -/
theorem test_dev_consume_wrap : ((next? (exec .devConsume { withCount 0xFFFFFFFF 0 (withDevice 1 3 (queueAt 4 6 1 0 3)) with
      mem := storeBytes [] 0x100000C0 bytesIn1.val })).map fun t => (t.dev.fetchIndex, t.dev.avail, t.dev.ic)) =
    some (0, 0, 0) := by decide +kernel
/-- V-DV-3. -/
theorem test_txi_single : eventsOf (.txiSingle (txDesc 0xABC000 60 0)) (withDevice 1 0 (queueAt 4 1 1 1 0)) =
    some [.txPacket 0 [(0xABC000, 60)] 60 0 0 ⟨0, 0, 0, 0, 0⟩] := by decide +kernel
/-- V-FORM-4: `gsz = 0` has no meaning. -/
theorem test_txi_gather_undefined :
    refusal? (exec (.txiGather (txDesc 0 0 0)) (withDevice 1 0 (queueAt 4 1 1 1 0))) = some .undefinedDescriptor := by
  decide +kernel
/-- V-FORM-3's form with its one record. -/
theorem test_txi_gather : eventsOf (.txiGather (txDesc 0x20000028 300 2))
    { withDevice 1 2 (queueAt 4 4 1 3 2) with mem := storeBytes [] 0x20000028 bytesSg1.val } =
    some [.txPacket 2 [(0xA000, 100), (0xB000, 200)] 300 0 0 ⟨0, 0, 0, 0, 0⟩] := by decide +kernel

/-! ### The step -/

/-- A command of the port runs as its instruction, and its bytes are gone. -/
theorem test_step_command : ((next? (step ({ queueAt 4 1 1 0 0 with port := [0x04, 0x02] }))).map fun t =>
    (t.result, t.port)) = some (some (.stats ⟨0, 0, 0, 0, 0, 0, 0⟩), [0x02]) := by decide +kernel
/-- The very next step runs a placed word, right after reset. -/
theorem test_placed_dec_ih : ((next? (step (State.reset.withFetchWord 8 0x11))).map fun t => (t.result, t.port, t.turns)) =
    some (some (.headerFields ⟨0, 0, 0, 0, 0, 0, 0⟩), [], []) := by decide +kernel
theorem test_placed_txi_single : ((next? (step (State.reset.withFetchWord 64 0x3C))).map fun t => (t.trace, t.turns)) =
    some ([.txPacket 0 [(0, 60)] 60 0 0 ⟨0, 0, 0, 0, 0⟩], []) := by decide +kernel

/-! ### Witnesses: concrete states and operands that meet the hypotheses of each statement together -/

/-- DecodeEncodeRoundTrip: an operand at the largest value the port carries. -/
theorem witness_round_trip : (Instr.sgFill (2 ^ 64 - 1) [(0xFFFFFFFFFFFFFFFF, 0xFFFF)]).wf = true := by decide

/-- DecodedBytesAreTheEncoding: a command and a descriptor that decode. -/
theorem witness_decoded_bytes : Decode.decode .op8 [0x41, 1, 7] = .ok (.ringAnnounce true, [7]) ∧
    ∃ i rest, Decode.decode .ih64 (bytesIn2.val ++ [7]) = .ok (i, rest) := ⟨rfl, _, _, rfl⟩

/-- UnassignedOpRefused: identifiers at the ends of the gaps of R117. -/
theorem witness_unassigned_op : ∀ op ∈ [0x06#8, 0x0F, 0x18, 0x1F, 0x22, 0x32, 0x43, 0x4F, 0x52, 0xFF],
    op.toNat ∉ [0x00, 0x01, 0x02, 0x03, 0x04, 0x05, 0x10, 0x11, 0x12, 0x13, 0x14, 0x15, 0x16, 0x17, 0x20, 0x21, 0x30,
      0x31, 0x40, 0x41, 0x42, 0x50, 0x51] ∧ (State.reset.withPort [op]).turns = [] ∧
      (State.reset.withPort [op]).port = op :: [] := by decide

/-- StepRunsCommand: no turn scheduled, and the port's turn. -/
theorem witness_step_command : Decode.decode .op8 (State.reset.withPort [0x04]).port = .ok (.stats, []) ∧
    (State.reset.withPort [0x04]).turns = [] ∧
    ((State.reset.withPort [0x04]).withTurns [.port, .device]).turns = .port :: [.device] := ⟨rfl, rfl, rfl⟩

/-- A device that has one announced descriptor in the last slot of a ring of four. -/
def deviceReady : State := { withDevice 1 3 (queueAt 4 6 1 0 3) with turns := [.device] }

/-- StepRunsDescriptor. -/
theorem witness_step_descriptor : deviceReady.turns = .device :: [] ∧ deviceReady.dev.avail ≠ 0 ∧
    deviceReady.q.valid = true ∧ deviceReady.dev.synced = true ∧
    slotAddr deviceReady.cfg deviceReady.dev.fetchIndex + 64 ≤ dmaSpace ∧
    ∃ b : Bytes 64, b.val = readBytes deviceReady.mem (slotAddr deviceReady.cfg deviceReady.dev.fetchIndex) 64 :=
  ⟨rfl, by decide, rfl, rfl, by decide, ⟨_, readBytes_length _ _ 64⟩, rfl⟩

/-- IdleStepChangesNothing. -/
theorem witness_idle : (queueAt 2 1 1 0 0).turns = [] ∧ (queueAt 2 1 1 0 0).port = [] := ⟨rfl, rfl⟩

/-- SgAcquireGroup: the last slot, of the smallest and of the largest ring. -/
theorem witness_sg_acquire : (queueAt 2 16383 1 0 0).q.valid = true ∧ (queueAt 2 16383 1 0 0).cfg.legal ∧
    1 < (queueAt 2 16383 1 0 0).cfg.n ∧ (queueAt 2147483648 1 1 0 0).cfg.legal ∧
    2147483647 < (queueAt 2147483648 1 1 0 0).cfg.n := by decide +kernel

/-- SgFillWritesEntries: one entry, and as many as the group holds. -/
theorem witness_sg_fill : ∀ es ∈ [[(0xA000#64, 100#16)], List.replicate 8 (0xA000, 100)],
    (queueAt 4 6 1 0 0).q.valid = true ∧ (queueAt 4 6 1 0 0).cfg.legal ∧ 3 < (queueAt 4 6 1 0 0).cfg.n ∧
      pbGet (queueAt 4 6 1 0 0) 3 = none ∧ 1 ≤ es.length ∧ es.length ≤ 4 * (queueAt 4 6 1 0 0).cfg.sgpp := by
  decide +kernel

/-- Operands of `PB_RECORD` for slot 1 of the vectors' queue: a single buffer, a gathered one with the fewest entries. -/
def recordSingle : RecordArgs := ⟨0xA1, 0xABC000, none, .single, 60, 0⟩
def recordGather : RecordArgs := ⟨0xB2, 0xA000, some 0x20000028, .gather, 300, 1⟩

/-- A queue of four slots whose slot 1 holds a gathered, slot 2 a single-buffer entry. -/
def twoLive : State :=
  { queueAt 4 4 1 3 1 with pb := [(1, gathered 0x20000028 0xB2 0xA000 300 2), (2, single 0xA1 0xABC000 60)] }

/-- PbRecordFree and PbRecordLive: both types, a free slot and a live one. -/
theorem witness_pb_record : ∀ a ∈ [recordSingle, recordGather], (queueAt 4 4 1 0 0).q.valid = true ∧
    1 < (queueAt 4 4 1 0 0).cfg.n ∧
    ((a.type = .single ∧ a.sg = none ∧ a.nent = 0) ∨
      (a.type = .gather ∧ a.sg = some (groupAddr (queueAt 4 4 1 0 0).cfg 1) ∧ 1 ≤ a.nent.toNat)) ∧
    pbGet (queueAt 4 4 1 0 0) 1 = none ∧ (pbGet twoLive 1).isSome = true ∧ twoLive.cfg = (queueAt 4 4 1 0 0).cfg ∧
    twoLive.q.valid = true := by decide +kernel

/-- PbReleaseLive: a single-buffer entry, and a gathered one. -/
theorem witness_pb_release : twoLive.q.valid = true ∧ 2 < twoLive.cfg.n ∧ twoLive.pb.wf ∧
    pbGet twoLive 2 = some (single 0xA1 0xABC000 60) ∧
    (∀ a, (single 0xA1 0xABC000 60).kind = .gather a → a.toNat + 40 * ((0 + 3) / 4) ≤ dmaSpace) ∧
    pbGet twoLive 1 = some (gathered 0x20000028 0xB2 0xA000 300 2) ∧
    ∀ a, (gathered 0x20000028 0xB2 0xA000 300 2).kind = .gather a → a.toNat + 40 * ((2 + 3) / 4) ≤ dmaSpace := by
  refine ⟨rfl, by decide, by decide, by decide, fun a h => (by cases h), by decide, fun a h => ?_⟩
  cases h; decide

/-- PbReleaseFree. -/
theorem witness_pb_release_free : twoLive.q.valid = true ∧ 3 < twoLive.cfg.n ∧ pbGet twoLive 3 = none := by decide

/-- A queue with the largest groups, the second of which ends with the space. -/
def groupsAtEnd : State :=
  { queueAt 2 16383 1 0 0 with cfg := { (queueAt 2 16383 1 0 0).cfg with sgBase := 0xFFFFFFFFFFFB0000 } }

/-- Operands of `PB_RECORD` for the second slot of that queue: a gathered buffer with the most entries. -/
def recordLargest : RecordArgs := ⟨0xB2, 0xA000, some 0xFFFFFFFFFFFD8000, .gather, 300, 16383⟩

/-- RecordThenRelease: a single buffer; a gathered one whose group ends with the space. -/
theorem witness_record_then_release :
    (∀ c ∈ [((queueAt 4 4 1 0 0), 3, recordSingle), (groupsAtEnd, 1, recordLargest)],
      c.1.pb.wf ∧ pbGet c.1 c.2.1 = none ∧
        (c.2.2.type = .gather → sgAddr c.1.cfg c.2.1 0 + 40 * ((c.2.2.nent.toNat + 3) / 4) ≤ dmaSpace)) ∧
    (∃ t, exec (.pbRecord 3 recordSingle) (queueAt 4 4 1 0 0) = .next t) ∧
      ∃ t, exec (.pbRecord 1 recordLargest) groupsAtEnd = .next t :=
  ⟨by decide +kernel, next_of (by decide +kernel), next_of (by decide +kernel)⟩

/-- RequireLinesRefused, clause by clause: no queue; the first slot out of range; a live slot; no entry and one too many;
operands that do not agree (the group of another slot, a gathered record of no entry). -/
theorem witness_require_lines : State.reset.q.valid = false ∧ Instr.ringReclaim ∈ [Instr.sgAcquire 0, .ringReclaim] ∧
    twoLive.q.valid = true ∧ twoLive.cfg.n ≤ 4 ∧ 1 < twoLive.cfg.n ∧ (pbGet twoLive 1).isSome = true ∧
    pbGet twoLive 3 = none ∧ 4 * twoLive.cfg.sgpp < (List.replicate 5 (0xA000#64, 100#16)).length ∧
    (∀ a ∈ [RecordArgs.mk 1 2 (some 0x20000000) .gather 300 2, ⟨1, 2, some 0x20000028, .gather, 300, 0⟩,
        ⟨1, 2, none, .single, 60, 1⟩],
      ¬((a.type = .single ∧ a.sg = none ∧ a.nent = 0) ∨
        (a.type = .gather ∧ a.sg = some (groupAddr twoLive.cfg 1) ∧ 1 ≤ a.nent.toNat))) := by decide +kernel

/-- RingPostAccepted: the last slot and the post that fills the ring; RingPostFull: the ring one post later. -/
theorem witness_ring_post : (∀ s ∈ [queueAt 4 1 1 3 2, queueAt 2 1 1 1 1, queueAt 8 1 4 6 0],
    s.q.valid = true ∧ s.cfg.legal ∧ s.q.writeIndex < s.cfg.n ∧ isFull s = false) ∧
    (queueAt 8 1 4 7 0).q.valid = true ∧ isFull (queueAt 8 1 4 7 0) = true := by decide +kernel

/-- PostTransitions: from empty, from active to full, and from empty to full on the smallest ring. -/
theorem witness_post_transitions : ∀ s ∈ [queueAt 8 1 4 0 0, queueAt 8 1 4 6 0, queueAt 2 1 1 0 0],
    RingInv s ∧ ∃ t, exec (.ringPost bytesIn1) s = .next t ∧
      (t.result == some (.posted s.q.writeIndex (fillsRing s))) = true := by
  intro s hs
  simp only [List.mem_cons, List.not_mem_nil, or_false] at hs
  obtain rfl | rfl | rfl := hs <;> exact ⟨by decide +kernel, next_with _ (by decide +kernel)⟩

/-- AnnounceRingsDoorbell: at the threshold, forced below it; below it, and nothing to announce. -/
theorem witness_announce : (∀ s ∈ [withFill 4 (queueAt 8 1 4 4 0), withFill 1 (queueAt 8 1 4 4 0)],
      s.q.valid = true ∧ s.q.fillCount ≠ 0) ∧
    (withFill 4 (queueAt 8 1 4 4 0)).cfg.fillThreshold ≤ (withFill 4 (queueAt 8 1 4 4 0)).q.fillCount.toNat ∧
    (withFill 3 (queueAt 8 1 4 4 0)).q.fillCount.toNat < (withFill 3 (queueAt 8 1 4 4 0)).cfg.fillThreshold ∧
    (withFill 0 (queueAt 8 1 4 4 0)).q.fillCount = 0 := by decide +kernel

/-- ReclaimReleasesConsumed: both of two slots, a single and a gathered one; none. -/
theorem witness_reclaim : ∀ s ∈ [withCount 2 0 twoLive, withCount 0 0 twoLive, withCount 5 0 twoLive],
    s.q.valid = true ∧ s.pb.wf ∧ QueueInv s ∧
    (∀ slot ∈ slotsFrom 4 1 (min (s.dev.ic - s.q.lastCount).toNat (idxDiff 4 3 1)),
      ((pbGet s slot).any fun e => entrySound s.cfg slot e) = true) := by decide +kernel

/-- TableMismatchRefused: a slot in flight whose entry is free, and a free slot whose entry is live. -/
theorem witness_table_mismatch : (withCount 1 0 (queueAt 4 1 1 1 0)).q.valid = true ∧
    QueueInv (withCount 1 0 (queueAt 4 1 1 1 0)) ∧ (withCount 1 0 (queueAt 4 1 1 1 0)).dev.ic ≠ 0 ∧
    inflight (withCount 1 0 (queueAt 4 1 1 1 0)) ≠ 0 ∧ pbGet (withCount 1 0 (queueAt 4 1 1 1 0)) 0 = none ∧
    QueueInv { queueAt 4 1 1 0 0 with pb := [(0, single 1 2 3)], mapAnswers := [some 0x5000] } ∧
    admissible .specDefault (queueAt 4 1 1 0 0).cfg [⟨0x5000, 60⟩] noOffload ∧
    (queueAt 4 1 1 0 0).params.offloadRule = .specDefault ∧
    isFull { queueAt 4 1 1 0 0 with pb := [(0, single 1 2 3)], mapAnswers := [some 0x5000] } = false := by decide +kernel

/-- ReclaimIdempotent, on a full ring and on an empty one. -/
theorem witness_reclaim_idempotent : ∀ s ∈ [withCount 9 9 (queueAt 8 1 4 7 0), withCount 9 9 (queueAt 8 1 4 7 7)],
    s.q.valid = true ∧ QueueInv s ∧ s.dev.ic = s.q.lastCount := by decide +kernel

/-- RestartOnEdgeOnly and ReclaimFreesWhatItReports: a reclaim that ends a full ring, and one that does not. -/
theorem witness_reclaim_next : ∀ ic ∈ [1#32, 0],
    RingInv { withCount ic 0 (queueAt 2 1 1 1 0) with pb := [(0, single 1 2 3)] } ∧
    ∃ t, exec .reclaim { withCount ic 0 (queueAt 2 1 1 1 0) with pb := [(0, single 1 2 3)] } = .next t := by
  intro ic hic
  simp only [List.mem_cons, List.not_mem_nil, or_false] at hic
  obtain rfl | rfl := hic <;> exact ⟨by decide +kernel, next_of (by decide +kernel)⟩

/-- PostsUntilFull: three posts on an empty ring of four, none on a full one. -/
theorem witness_posts_until_full : ∀ c ∈ [(queueAt 4 1 1 2 2, [bytesIn1, bytesIn2, bytesIn3]), (queueAt 4 1 1 1 2, [])],
    c.1.q.valid = true ∧ QueueInv c.1 ∧ c.2.length = headroom c.1 := by decide +kernel

/-- A queue of two slots, empty, with a `RING_POST` waiting in the port. -/
def postWaiting : State := (queueAt 2 1 1 0 0).withPort (0x40 :: bytesIn1.val)

/-- StopDiscipline: a creation that leaves a live queue, after a life that ended on a full ring. -/
theorem witness_stop_creation :
    ∃ t, exec (.createQueue (createOf 2 1 1 0 0 usualRegion)) { State.reset with trace := [.stop] } = .next t ∧
      t.q.valid = true := next_with (·.q.valid) (by decide +kernel)

/-- StopDiscipline and RingInvKept: a step that fills the ring. -/
theorem witness_step_kept : RingInv postWaiting ∧ postWaiting.q.valid = true ∧
    ∃ t, step postWaiting = .next t ∧ (t.q.valid && stopNumber t == 1) = true :=
  ⟨by decide +kernel, rfl, next_with _ (by decide +kernel)⟩

/-- CreateQueueInitialises: the smallest ring at the end of the space, the largest ring, the largest operands. -/
theorem witness_create_queue : ∀ c ∈ [(1, createOf 2 1 1 0 0 (.ok 0xFFFFFFFFFFFFFF80 0), 0xFFFFFFFFFFFFFF80#64, 0#64),
      (31, createOf 2147483648 1 2147483647 63 63 (.ok 0 0x10000000000), 0, 0x10000000000),
      (1, createOf 2 16383 1 0 0 (.ok 0x10000000 0xFFFFFFFFFFFB0000), 0x10000000, 0xFFFFFFFFFFFB0000)],
    State.reset.q.valid = false ∧ c.2.1.capacity = 2 ^ c.1 ∧ 1 ≤ c.1 ∧ c.1 ≤ 31 ∧ 1 ≤ c.2.1.maxFragments ∧
      c.2.1.maxFragments ≤ 16383 ∧ 1 ≤ c.2.1.fillThreshold ∧ c.2.1.fillThreshold ≤ c.2.1.capacity - 1 ∧
      c.2.1.pkind ≤ 63 ∧ c.2.1.fsz ≤ 63 ∧ c.2.1.region = .ok c.2.2.1 c.2.2.2 ∧ c.2.2.1.toNat % 64 = 0 ∧
      c.2.2.2.toNat % 8 = 0 ∧ c.2.2.1.toNat + 64 * c.2.1.capacity ≤ 2 ^ 64 ∧
      c.2.2.2.toNat + 40 * ((c.2.1.maxFragments + 3) / 4) * c.2.1.capacity ≤ 2 ^ 64 := by decide +kernel

/-- CreateQueueErrors, first clause: 0, 1, a number between two powers, the power above the largest ring. -/
theorem witness_bad_capacity : ∀ n ∈ [0, 1, 6, 2 ^ 32], ∀ k, 1 ≤ k → k ≤ 31 → (createOf n 1 1 0 0 .fail).capacity ≠ 2 ^ k := by
  intro n hn k hk hk'
  simp only [List.mem_cons, List.not_mem_nil, or_false] at hn
  obtain rfl | rfl | rfl | rfl := hn <;> simp only [createOf] <;> interval_cases k <;> decide

/-- The last clause's premise for a ring of `n` slots with one record each. -/
abbrev wrongBases (ringBase sgBase : Word) (n : Nat) : Prop :=
  ringBase.toNat % 64 ≠ 0 ∨ sgBase.toNat % 8 ≠ 0 ∨ 2 ^ 64 < ringBase.toNat + 64 * n ∨
    2 ^ 64 < sgBase.toNat + 40 * ((1 + 3) / 4) * n

/-- CreateQueueErrors, the other clauses, each at the values next to its bounds. -/
theorem witness_create_errors :
    (∀ m ∈ [0, 16384], (createOf 8 m 1 0 0 .fail).maxFragments < 1 ∨ 16383 < (createOf 8 m 1 0 0 .fail).maxFragments) ∧
    (∀ f ∈ [0, 8], (createOf 8 1 f 0 0 .fail).fillThreshold < 1 ∨ (createOf 8 1 f 0 0 .fail).capacity - 1 < f) ∧
    (∀ c ∈ [createOf 8 1 7 64 0 .fail, createOf 8 1 7 0 64 .fail], 63 < c.pkind ∨ 63 < c.fsz) ∧
    (createOf 8 16383 7 63 63 .fail).region = .fail ∧
    wrongBases 0x10000020 0x20000000 2 ∧ wrongBases 0x10000000 0x20000004 2 ∧ wrongBases 0xFFFFFFFFFFFFFFC0 0 2 ∧
    wrongBases 0 0xFFFFFFFFFFFFFFB8 2 ∧ (8 : Nat) = 2 ^ 3 ∧ (2 : Nat) = 2 ^ 1 := by decide +kernel

/-- CommandValidity: a command without a queue, a creation with one. -/
theorem witness_validity : isLiveCommand .reclaim = true ∧ State.reset.q.valid = false ∧
    (queueAt 2 1 1 0 0).q.valid = true := by decide

/-- An implementation's predicate: TCP segmentation is not offered (bit 5). -/
abbrev noTcpSeg : OffloadRule := .forbidding [⟨0x20, 0x20⟩]

/-- TransmitPreconditions: one fragment too many and as many as allowed; the last defined flags, the first reserved one, both
segmentation flags, the first segment size and count out of range; what another predicate forbids and admits; a total one
byte too long. -/
theorem witness_tx_preconditions : (queueAt 2 3 1 0 0).q.valid = true ∧
    (queueAt 2 3 1 0 0).cfg.maxf < (List.replicate 4 (Frag.mk 0x100 1)).length ∧
    (List.replicate 3 (Frag.mk 0x100 1)).length ≤ (queueAt 2 3 1 0 0).cfg.maxf ∧
    (∀ ol ∈ [Offload.mk 128 0 0, ⟨0x60, 1, 1⟩, ⟨0, 65536, 0⟩, ⟨0, 0, 65536⟩], ¬offloadAllowed .specDefault ol) ∧
    (∀ ol ∈ [Offload.mk 0x5F 65535 65535, ⟨0x3F, 0, 0⟩], offloadAllowed .specDefault ol) ∧
    ¬offloadAllowed noTcpSeg ⟨0x20, 1, 1⟩ ∧ ¬offloadAllowed noTcpSeg ⟨0, 65536, 0⟩ ∧ ¬offloadAllowed noTcpSeg ⟨65536, 0, 0⟩ ∧
    offloadAllowed noTcpSeg ⟨65535 - 0x20, 65535, 65535⟩ ∧
    (∀ fs ∈ [[Frag.mk 0x100 65536], [⟨0x100, 65535⟩, ⟨0x200, 1⟩]], 65535 < (fs.map Frag.len).sum) := by decide +kernel

/-- TransmitPreconditions, last clause, and the packets of the statements after it: an empty fragment, a total of exactly
65535 bytes, as many fragments as allowed. -/
theorem witness_admissible : (queueAt 2 3 1 0 0).params.offloadRule = .specDefault ∧
    ∀ fs ∈ [[Frag.mk 0x100 0], [⟨0x100, 65535⟩], [⟨0x100, 65535⟩, ⟨0x200, 0⟩], List.replicate 3 ⟨0x100, 21845⟩],
      admissible .specDefault (queueAt 2 3 1 0 0).cfg fs noOffload := by decide +kernel

/-- TransmitQueueFull. -/
theorem witness_tx_full : (queueAt 2 3 1 1 0).q.valid = true ∧
    (queueAt 2 3 1 1 0).params.offloadRule = .specDefault ∧
    admissible .specDefault (queueAt 2 3 1 1 0).cfg [⟨0x100, 65535⟩] noOffload ∧ isFull (queueAt 2 3 1 1 0) = true := by
  decide +kernel

/-- TransmitMappingRollback: the first fragment fails; the last of three fails. -/
theorem witness_tx_rollback : ∀ c ∈ [([], []), ([Frag.mk 0x100 65533, ⟨0x200, 1⟩], [0xAA000#64, 0xBB000])],
    (queueAt 2 3 1 0 0).q.valid = true ∧
      (queueAt 2 3 1 0 0).params.offloadRule = .specDefault ∧
      admissible .specDefault (queueAt 2 3 1 0 0).cfg (c.1 ++ Frag.mk 0x300 1 :: []) ⟨0x1F, 0, 0⟩ ∧
      isFull (queueAt 2 3 1 0 0) = false ∧ c.2.length = c.1.length ∧
      ({ queueAt 2 3 1 0 0 with mapAnswers := c.2.map some ++ none :: [some 7] }).mapAnswers =
        c.2.map some ++ none :: [some 7] := by decide +kernel

/-- TransmitSingleAccepted: an empty fragment, in the last slot of a ring of four. -/
theorem witness_tx_single : (queueAt 4 1 1 3 1).q.valid = true ∧ (queueAt 4 1 1 3 1).cfg.legal ∧
    (queueAt 4 1 1 3 1).q.writeIndex < (queueAt 4 1 1 3 1).cfg.n ∧
    (queueAt 4 1 1 3 1).params.offloadRule = .specDefault ∧
    admissible .specDefault (queueAt 4 1 1 3 1).cfg [⟨0x5000, 0⟩] ⟨9, 77, 88⟩ ∧ isFull (queueAt 4 1 1 3 1) = false ∧
    pbGet (queueAt 4 1 1 3 1) 3 = none ∧
    ({ queueAt 4 1 1 3 1 with mapAnswers := [some 0x5000, none] }).mapAnswers = some 0x5000 :: [none] := by decide +kernel

/-- A queue with answers for the packet of two fragments below. -/
def gatherReady : State := { queueAt 4 6 2 1 1 with mapAnswers := [some 0xA000, some 0xB000, none] }

/-- Two fragments that add up to the longest packet. -/
def twoFrags : List Frag := [⟨0x100, 65534⟩, ⟨0x200, 1⟩]

/-- TransmitGatherAccepted. -/
theorem witness_tx_gather : gatherReady.q.valid = true ∧ gatherReady.cfg.legal ∧
    gatherReady.q.writeIndex < gatherReady.cfg.n ∧ gatherReady.params.offloadRule = .specDefault ∧
    admissible .specDefault gatherReady.cfg twoFrags noOffload ∧
    2 ≤ twoFrags.length ∧ isFull gatherReady = false ∧ pbGet gatherReady gatherReady.q.writeIndex = none ∧
    [0xA000#64, 0xB000].length = twoFrags.length ∧
    gatherReady.mapAnswers = [0xA000#64, 0xB000].map some ++ [none] := by decide +kernel

/-- StatsSnapshot. -/
theorem witness_stats : (queueAt 2 1 1 0 0).q.valid = true := rfl

/-- DestroyReleasesAll: two slots in flight. -/
theorem witness_destroy : twoLive.q.valid = true ∧ twoLive.pb.wf ∧ QueueInv twoLive ∧
    (∀ slot ∈ slotsFrom twoLive.cfg.n twoLive.q.flushIndex (inflight twoLive),
      ((pbGet twoLive slot).any fun e => entrySound twoLive.cfg slot e) = true) := by decide +kernel

/-- TxiSingleConsumed and TxiGatherConsumed: the fewest entries, and the most with their records ending at the end of the
space. -/
theorem witness_txi : deviceReady.dev.avail ≠ 0 ∧ deviceReady.q.valid = true ∧ deviceReady.dev.synced = true ∧
    ¬unproducedDesc false (txDesc 0xABC000 60 0) ∧
    ∀ d ∈ [txDesc 0xFFFFFFFFFFFFFFD8 300 2, txDesc 0xFFFFFFFFFFFD8000 65535 16383],
      ¬unproducedDesc true d ∧ d.dptr.toNat + 40 * ((d.gsz.toNat + 3) / 4) ≤ dmaSpace := by decide +kernel

/-- The device of `deviceReady` with V-IN-1 in its slot. -/
def singleReady : State := { deviceReady with mem := storeBytes [] 0x100000C0 bytesIn1.val }

/-- The device of `deviceReady` with V-IN-2 in its slot. -/
def gatherDescReady : State := { deviceReady with mem := storeBytes [] 0x100000C0 bytesIn2.val }

/-- DevConsumePacket: a descriptor of each form. -/
theorem witness_dev_consume : ∀ c ∈ [(singleReady, bytesIn1), (gatherDescReady, bytesIn2)],
    c.1.dev.avail ≠ 0 ∧ c.1.q.valid = true ∧ c.1.dev.synced = true ∧
    slotAddr c.1.cfg c.1.dev.fetchIndex + 64 ≤ dmaSpace ∧
    c.2.val = readBytes c.1.mem (slotAddr c.1.cfg c.1.dev.fetchIndex) 64 ∧
    ¬unproducedDesc ((decInstr c.2).ih.getLsbD 62) (txDescOf (decInstr c.2)) ∧
    ((decInstr c.2).ih.getLsbD 62 = true →
      (decInstr c.2).dptr.toNat + 40 * (((decIh (decInstr c.2).ih).gsz.toNat + 3) / 4) ≤ dmaSpace) := by
  decide +kernel

/-- Descriptors of R114, one for each condition: reserved bits, a wrong `gsz` for each form, a reserved flag, the metadata's
reserved fields, segmentation numbers without a segmentation flag, extra headers. -/
def unproducedDescs : List (Bool × TxDesc) :=
  [(false, { txDesc 0 60 0 with rsvd := 0x80000 }), (true, { txDesc 0 60 2 with rsvd3 := 1 }), (false, txDesc 0 60 1),
    (true, txDesc 0 60 0), (true, txDesc 0 60 1), (false, { txDesc 0 60 0 with txm := ⟨0x80, 0, 0, 0, 0⟩ }),
    (false, { txDesc 0 60 0 with txm := ⟨0, 0, 0, 1, 0⟩ }), (true, { txDesc 0 60 2 with txm := ⟨0, 0, 0, 0, 1⟩ }),
    (false, { txDesc 0 60 0 with txm := ⟨0x1F, 1, 0, 0, 0⟩ }), (false, { txDesc 0 60 0 with txm := ⟨0, 0, 1, 0, 0⟩ }),
    (false, { txDesc 0 60 0 with exhdr0 := 1 }), (false, { txDesc 0 60 0 with exhdr1 := 1 }),
    (true, { txDesc 0 60 2 with exhdr2 := 1 }), (true, { txDesc 0 60 2 with exhdr3 := 1 })]

/-- V-IN-2 with a gather-entry count of 1, in the ring at the device's fetch index. -/
def unproducedReady : State :=
  { deviceReady with mem := storeBytes [] 0x100000C0 ([0, 0, 0, 0x20, 0, 0, 0, 0, 0xDC, 0x05, 0, 0, 0, 0, 0x01, 0x40] ++ z 48) }

/-- DeviceStepRefused: nothing announced; no live queue; a queue made while the device was not idle; each condition of R114,
in a descriptor given and in one fetched. -/
theorem witness_device_refused : (queueAt 4 1 1 0 0).dev.avail = 0 ∧ (withDevice 1 0 State.reset).dev.avail ≠ 0 ∧
    (withDevice 1 0 State.reset).q.valid = false ∧ deviceReady.dev.avail ≠ 0 ∧ deviceReady.q.valid = true ∧
    deviceReady.dev.synced = true ∧ unproducedDescs.all (fun c => decide (unproducedDesc c.1 c.2)) = true ∧
    unproducedReady.dev.avail ≠ 0 ∧ unproducedReady.q.valid = true ∧ unproducedReady.dev.synced = true ∧
    slotAddr unproducedReady.cfg unproducedReady.dev.fetchIndex + 64 ≤ dmaSpace ∧
    let b : Bytes 64 := ⟨readBytes unproducedReady.mem (slotAddr unproducedReady.cfg unproducedReady.dev.fetchIndex) 64,
      readBytes_length _ _ 64⟩
    unproducedDesc ((decInstr b).ih.getLsbD 62) (txDescOf (decInstr b)) := by decide +kernel

/-- OutsideDmaSpaceFaults: a group one byte past the end, by a table entry and by a descriptor; a ring past the end. -/
theorem witness_outside :
    pbGet { queueAt 4 4 1 1 0 with pb := [(0, gathered 0xFFFFFFFFFFFFFFD9 1 2 3 4)] } 0 =
      some (gathered 0xFFFFFFFFFFFFFFD9 1 2 3 4) ∧
    dmaSpace < (0xFFFFFFFFFFFFFFD9#64).toNat + 40 * ((4 + 3) / 4) ∧
    ¬unproducedDesc true (txDesc 0xFFFFFFFFFFFFFFD9 300 2) ∧
    dmaSpace < slotAddr { deviceReady.cfg with ringBase := 0xFFFFFFFFFFFFFF00 } 4 + 64 := by decide +kernel

/-- DeviceSeesAcceptedPacket and AcceptedMappingsRecorded: with and without a segmentation flag, under the default predicate. -/
theorem witness_accepted : RingInv gatherReady ∧ regionsDisjoint gatherReady.cfg ∧
    gatherReady.params.offloadRule = .specDefault ∧ [0xA000#64, 0xB000].length = twoFrags.length ∧
    gatherReady.mapAnswers = [0xA000#64, 0xB000].map some ++ [none] ∧
    ∀ ol ∈ [noOffload, ⟨0x2A, 1448, 3⟩, ⟨1, 7, 7⟩],
      ∃ t, exec (.transmit 0x25 twoFrags ol false) gatherReady = .next t ∧
        (t.result == some (.accepted 2 false)) = true := by
  refine ⟨by decide +kernel, by decide +kernel, rfl, rfl, rfl, fun ol hol => ?_⟩
  simp only [List.mem_cons, List.not_mem_nil, or_false] at hol
  obtain rfl | rfl | rfl := hol <;> exact next_with _ (by decide +kernel)

/-- The same under a predicate that forbids nothing: all defined flags. -/
theorem witness_accepted_other_rule : (0x7F : Nat) < 128 ∧
    RingInv { gatherReady with params := { gatherReady.params with offloadRule := .forbidding [] } } ∧
    ∃ t, exec (.transmit 0x25 twoFrags ⟨0x7F, 1, 1⟩ false)
        { gatherReady with params := { gatherReady.params with offloadRule := .forbidding [] } } = .next t ∧
      (t.result == some (.accepted 2 false)) = true :=
  ⟨by decide, by decide +kernel, next_with _ (by decide +kernel)⟩

/-- One packet posted, announced and not yet consumed. -/
def contractState : State :=
  { withDevice 1 0 (queueAt 4 6 2 1 0) with pb := [(0, single 0x11 0x5000 60)], mem := storeBytes [] 0x10000000 bytesIn1.val
                                            mapAnswers := [some 0xA000, some 0xB000] }

/-- ContractKept: the device consumes; the host transmits; a queue is created on an idle device. -/
theorem witness_contract : ContractInv contractState ∧ meetsCreationContract .devConsume contractState = true ∧
    (∃ t, exec .devConsume contractState = .next t) ∧
    isHostCommand (.transmit 0x25 twoFrags noOffload false) = true ∧
    (∃ t, exec (.transmit 0x25 twoFrags noOffload false) contractState = .next t) ∧ ContractInv State.reset ∧
    meetsCreationContract (.createQueue (createOf 2 1 1 0 0 usualRegion)) State.reset = true ∧
    ∃ t, exec (.createQueue (createOf 2 1 1 0 0 usualRegion)) State.reset = .next t :=
  ⟨by decide +kernel, rfl, next_of (by decide +kernel), rfl, next_of (by decide +kernel), by decide +kernel,
    by decide +kernel, next_of (by decide +kernel)⟩

/-- HostCommandsComplete and HandleConservation: the commands of a live queue. -/
theorem witness_host_commands : ContractInv contractState ∧ contractState.q.valid = true ∧
    ∀ i ∈ [Instr.reclaim, .announce, .stats, .destroyQueue, .transmit 0x25 twoFrags noOffload true],
      isLiveCommand i = true ∧ ∃ t, exec i contractState = .next t := by
  refine ⟨by decide +kernel, rfl, fun i hi => ?_⟩
  simp only [List.mem_cons, List.not_mem_nil, or_false] at hi
  obtain rfl | rfl | rfl | rfl | rfl := hi <;> exact ⟨rfl, next_of (by decide +kernel)⟩

/-- OwnedRegionsUntouched: slot 0 is the device's while the host transmits; its last descriptor byte, its first record byte. -/
theorem witness_owned_regions : ContractInv contractState ∧ contractState.q.valid = true ∧
    regionsDisjoint contractState.cfg ∧ isHostCommand (.transmit 0x25 twoFrags noOffload false) = true ∧
    (∃ t, exec (.transmit 0x25 twoFrags noOffload false) contractState = .next t) ∧ 0 < contractState.cfg.n ∧
    mayOwn contractState 0 ∧ inSlotRegion contractState.cfg 0 0x1000003F ∧ inSlotRegion contractState.cfg 0 0x20000000 :=
  ⟨by decide +kernel, rfl, by decide +kernel, rfl, next_of (by decide +kernel), by decide, by decide +kernel,
    by decide +kernel, by decide +kernel⟩

/-- QueuesIndependent: the second of two queues takes a step. -/
theorem witness_queues : ∃ b, blockStep 1 [queueAt 2 1 1 0 0, postWaiting] = .next b := by
  obtain ⟨t, ht⟩ := next_of (o := step postWaiting) (by decide +kernel)
  exact ⟨[queueAt 2 1 1 0 0, t], by simp [blockStep, ht]⟩

/-- R9: a block of two queues has two numbers and one predicate. -/
theorem test_block_reset : (Block.reset 2 noTcpSeg).map (·.params) = [⟨noTcpSeg, 0⟩, ⟨noTcpSeg, 1⟩] ∧
    Block.reset = [State.reset] := by decide +kernel

/-! ### A weakly fair run (R248): the device's turn comes once, then nothing more is to be done -/

/-- The device consumes what was announced in the first step; from then on the port's turn finds nothing. -/
def fairInput (n : Nat) : Arrival := ⟨[], if n = 0 then .device else .port⟩

/-- V-IN-1 announced; then consumed. -/
def fairRun (n : Nat) : State :=
  if n = 0 then { singleReady with turns := [] }
  else { singleReady with
    turns := []
    dev := { singleReady.dev with fetchIndex := 0, avail := 0, ic := 1 }
    trace := [.txPacket 3 [(0xABC000, 60)] 60 0 0 ⟨0, 0, 0, 0, 0⟩] }

theorem next_eq {o : Host.Outcome State Fault Refusal} {t : State} (h : next? o = some t) : o = .next t := by
  cases o <;> simp_all [next?]

/-- The premises of `fair_run_consumes` are met together. -/
theorem witness_fair_run : isRun fairInput fairRun ∧ weaklyFair fairInput fairRun ∧ (fairRun 0).dev.avail ≠ 0 ∧
    ∀ m, 0 ≤ m → (fairRun m).q.valid = true ∧ (fairRun m).dev.synced = true := by
  refine ⟨fun n => ?_, fun n h => absurd (h (n + 1) (by omega)).1 (by simp [fairRun]), by decide, fun m _ => ?_⟩
  · cases n with
    | zero => exact next_eq (by decide +kernel)
    | succ n => simp only [fairInput, fairRun, Nat.add_eq_zero_iff, Nat.one_ne_zero, and_false, if_false]
                exact next_eq (by decide +kernel)
  · simp only [fairRun]; split <;> exact ⟨rfl, rfl⟩

end Sys2Proof.Tests
end

/-! Proofs of the codec statements (40_codec.md, R130 to R139). Each encoder and decoder first gets its value in plain
arithmetic: a packed word is the sum of its fields at their weights, a decoded field is a quotient and a remainder, and a
decoded word is the little-endian number in its piece of the bytes. The round trips then follow from these values. -/

namespace Sys2Proof.Machine

/-! ### What the codec instructions do -/

theorem exec_encIh (f : IhFields) (s : State) : exec (.encIh f) s = .next (s.withResult (.header (encIh f))) := rfl

theorem exec_decIh (ih : Word) (s : State) :
    exec (.decIh ih) s = .next (s.withResult (.headerFields (decIh ih))) := rfl

theorem exec_encTxm (m : TxmFields) (s : State) :
    exec (.encTxm m) s = .next (s.withResult (.metadata (encTxm m).1 m.mrsvd2)) := rfl

theorem exec_decTxm (txm0 txm1 : Word) (s : State) :
    exec (.decTxm txm0 txm1) s = .next (s.withResult (.metadataFields (decTxm txm0 txm1))) := rfl

theorem exec_encSg (r : SgRecord) (s : State) : exec (.encSg r) s = .next (s.withResult (.sgBytes (encSg r))) := rfl

theorem exec_decSg (b : Bytes 40) (s : State) : exec (.decSg b) s = .next (s.withResult (.sgFields (decSg b))) := rfl

theorem exec_encInstr (w : InstrWords) (s : State) :
    exec (.encInstr w) s = .next (s.withResult (.instrBytes (encInstr w))) := rfl

theorem exec_decInstr (b : Bytes 64) (s : State) :
    exec (.decInstr b) s = .next (s.withResult (.instrFields (decInstr b))) := rfl

/-! ### Fields packed into a word -/

/-- A field set above all bits in use adds its value at its weight. -/
theorem toNat_or_shiftLeft {w n : Nat} {a : Word} (k : Nat) (v : BitVec w) (ha : a.toNat = n) (hn : n < 2 ^ k)
    (hk : k + w ≤ 64) : (a ||| v.setWidth 64 <<< k).toNat = n + 2 ^ k * v.toNat := by
  subst ha
  have hv : v.toNat * 2 ^ k < 2 ^ 64 := calc
    v.toNat * 2 ^ k < 2 ^ w * 2 ^ k := Nat.mul_lt_mul_of_pos_right v.isLt (Nat.two_pow_pos k)
    _ = 2 ^ (k + w) := by rw [Nat.pow_add, Nat.mul_comm]
    _ ≤ 2 ^ 64 := Nat.pow_le_pow_right (by decide) hk
  rw [BitVec.toNat_or, BitVec.toNat_shiftLeft, BitVec.toNat_setWidth_of_le (by omega), Nat.shiftLeft_eq,
    Nat.mod_eq_of_lt hv, Nat.mul_comm v.toNat, Nat.or_comm, ← Nat.two_pow_add_eq_or_of_lt hn, Nat.add_comm]

/-- A field taken out of a word is a quotient and a remainder. -/
theorem toNat_extractLsb'_eq_div_mod (x : Word) (lo w : Nat) :
    (x.extractLsb' lo w).toNat = x.toNat / 2 ^ lo % 2 ^ w := by
  rw [BitVec.extractLsb'_toNat, Nat.shiftRight_eq_div_pow]

/-! ### Instruction header (R131, R132) -/

theorem encIh_toNat (f : IhFields) : (encIh f).toNat =
    f.tlen.toNat + 2 ^ 16 * f.rsvd.toNat + 2 ^ 36 * f.pkind.toNat + 2 ^ 42 * f.fsz.toNat +
      2 ^ 48 * f.gsz.toNat + 2 ^ 62 * f.gather.toNat + 2 ^ 63 * f.rsvd3.toNat := by
  have tlen : (f.tlen.setWidth 64 <<< 0).toNat = f.tlen.toNat := by
    rw [BitVec.shiftLeft_zero, BitVec.toNat_setWidth_of_le (by decide)]
  have rsvd := toNat_or_shiftLeft 16 f.rsvd tlen (by omega) (by decide)
  have pkind := toNat_or_shiftLeft 36 f.pkind rsvd (by omega) (by decide)
  have fsz := toNat_or_shiftLeft 42 f.fsz pkind (by omega) (by decide)
  have gsz := toNat_or_shiftLeft 48 f.gsz fsz (by omega) (by decide)
  have gather := toNat_or_shiftLeft 62 f.gather gsz (by omega) (by decide)
  exact toNat_or_shiftLeft 63 f.rsvd3 gather (by omega) (by decide)

theorem decIh_toNat (ih : Word) :
    (decIh ih).tlen.toNat = ih.toNat % 2 ^ 16 ∧ (decIh ih).rsvd.toNat = ih.toNat / 2 ^ 16 % 2 ^ 20 ∧
    (decIh ih).pkind.toNat = ih.toNat / 2 ^ 36 % 2 ^ 6 ∧ (decIh ih).fsz.toNat = ih.toNat / 2 ^ 42 % 2 ^ 6 ∧
    (decIh ih).gsz.toNat = ih.toNat / 2 ^ 48 % 2 ^ 14 ∧ (decIh ih).gather.toNat = ih.toNat / 2 ^ 62 % 2 ∧
    (decIh ih).rsvd3.toNat = ih.toNat / 2 ^ 63 := by
  have hih := ih.isLt
  simp only [decIh, ihLo, toNat_extractLsb'_eq_div_mod, true_and]
  omega

theorem ihFields_eq_iff {f g : IhFields} : f = g ↔
    f.tlen.toNat = g.tlen.toNat ∧ f.rsvd.toNat = g.rsvd.toNat ∧ f.pkind.toNat = g.pkind.toNat ∧
    f.fsz.toNat = g.fsz.toNat ∧ f.gsz.toNat = g.gsz.toNat ∧ f.gather.toNat = g.gather.toNat ∧
    f.rsvd3.toNat = g.rsvd3.toNat := by
  cases f; cases g
  simp only [IhFields.mk.injEq, BitVec.toNat_inj]

theorem decIh_encIh (f : IhFields) : decIh (encIh f) = f := by
  have hdec := decIh_toNat (encIh f)
  rw [encIh_toNat] at hdec
  rw [ihFields_eq_iff]
  omega

theorem encIh_decIh (ih : Word) : encIh (decIh ih) = ih := by
  obtain ⟨tlen, rsvd, pkind, fsz, gsz, gather, rsvd3⟩ := decIh_toNat ih
  apply BitVec.eq_of_toNat_eq
  rw [encIh_toNat, tlen, rsvd, pkind, fsz, gsz, gather, rsvd3]
  omega

/-! ### Four 16-bit fields in one word (R133, R111) -/

/-- The first metadata word and the word of a record's lengths are packed alike. -/
theorem toNat_four_shorts (v0 v1 v2 v3 : BitVec 16) :
    (v0.setWidth 64 ||| v1.setWidth 64 <<< 16 ||| v2.setWidth 64 <<< 32 ||| v3.setWidth 64 <<< 48).toNat =
      v0.toNat + 2 ^ 16 * v1.toNat + 2 ^ 32 * v2.toNat + 2 ^ 48 * v3.toNat := by
  have first : (v0.setWidth 64).toNat = v0.toNat := BitVec.toNat_setWidth_of_le (by decide)
  have second := toNat_or_shiftLeft 16 v1 first (by omega) (by decide)
  have third := toNat_or_shiftLeft 32 v2 second (by omega) (by decide)
  exact toNat_or_shiftLeft 48 v3 third (by omega) (by decide)

/-! ### Transmit metadata (R133, R134) -/

theorem encTxm_toNat (m : TxmFields) : (encTxm m).1.toNat =
    m.olFlags.toNat + 2 ^ 16 * m.segSize.toNat + 2 ^ 32 * m.segCount.toNat + 2 ^ 48 * m.mrsvd1.toNat :=
  toNat_four_shorts m.olFlags m.segSize m.segCount m.mrsvd1

theorem decTxm_toNat (txm0 txm1 : Word) :
    (decTxm txm0 txm1).olFlags.toNat = txm0.toNat % 2 ^ 16 ∧
    (decTxm txm0 txm1).segSize.toNat = txm0.toNat / 2 ^ 16 % 2 ^ 16 ∧
    (decTxm txm0 txm1).segCount.toNat = txm0.toNat / 2 ^ 32 % 2 ^ 16 ∧
    (decTxm txm0 txm1).mrsvd1.toNat = txm0.toNat / 2 ^ 48 ∧ (decTxm txm0 txm1).mrsvd2 = txm1 := by
  have htxm0 := txm0.isLt
  simp only [decTxm, toNat_extractLsb'_eq_div_mod, true_and, and_true]
  omega

theorem txmFields_eq_iff {m k : TxmFields} : m = k ↔
    m.olFlags.toNat = k.olFlags.toNat ∧ m.segSize.toNat = k.segSize.toNat ∧ m.segCount.toNat = k.segCount.toNat ∧
    m.mrsvd1.toNat = k.mrsvd1.toNat ∧ m.mrsvd2 = k.mrsvd2 := by
  cases m; cases k
  simp only [TxmFields.mk.injEq, BitVec.toNat_inj]

theorem decTxm_encTxm (m : TxmFields) : decTxm (encTxm m).1 (encTxm m).2 = m := by
  obtain ⟨olFlags, segSize, segCount, mrsvd1, mrsvd2⟩ := decTxm_toNat (encTxm m).1 (encTxm m).2
  rw [encTxm_toNat] at olFlags segSize segCount mrsvd1
  rw [txmFields_eq_iff]
  exact ⟨by omega, by omega, by omega, by omega, mrsvd2⟩

theorem encTxm_decTxm (txm0 txm1 : Word) : encTxm (decTxm txm0 txm1) = (txm0, txm1) := by
  obtain ⟨olFlags, segSize, segCount, mrsvd1, mrsvd2⟩ := decTxm_toNat txm0 txm1
  have first : (encTxm (decTxm txm0 txm1)).1 = txm0 := by
    apply BitVec.eq_of_toNat_eq
    rw [encTxm_toNat, olFlags, segSize, segCount, mrsvd1]
    omega
  exact Prod.ext first mrsvd2

/-! ### Pieces of a byte list as numbers -/

/-- The little-endian form of two numbers packed into one is their forms one after the other. -/
theorem leBytes_add_mul {m a : Nat} (n b : Nat) (ha : a < 256 ^ m) :
    leBytes (m + n) (a + 256 ^ m * b) = leBytes m a ++ leBytes n b := by
  induction m generalizing a with
  | zero =>
    obtain rfl : a = 0 := by simpa using ha
    simp [leBytes]
  | succ m ih =>
    have hdiv : (a + 256 ^ (m + 1) * b) / 256 = a / 256 + 256 ^ m * b := by
      rw [Nat.pow_succ', Nat.mul_assoc]; omega
    have hbyte : BitVec.ofNat 8 (a + 256 ^ (m + 1) * b) = BitVec.ofNat 8 a := by
      apply BitVec.eq_of_toNat_eq
      rw [BitVec.toNat_ofNat, BitVec.toNat_ofNat, Nat.pow_succ', Nat.mul_assoc]
      omega
    rw [Nat.pow_succ'] at ha
    rw [Nat.add_right_comm m 1 n, leBytes, leBytes, hbyte, hdiv, ih (by omega), List.cons_append]

theorem fromLE_drop (bs : List Byte) (o : Nat) : fromLE (bs.drop o) = fromLE bs / 256 ^ o := by
  induction o generalizing bs with
  | zero => simp
  | succ o ih =>
    cases bs with
    | nil => simp [fromLE]
    | cons b bs =>
      have hb := b.isLt
      rw [List.drop_succ_cons, ih, fromLE, Nat.pow_succ', ← Nat.div_div_eq_div_mul]
      congr 1
      omega

theorem fromLE_take (bs : List Byte) (n : Nat) : fromLE (bs.take n) = fromLE bs % 256 ^ n := by
  induction n generalizing bs with
  | zero => simp [fromLE, Nat.mod_one]
  | succ n ih =>
    cases bs with
    | nil => simp [fromLE]
    | cons b bs =>
      have hb := b.isLt
      have hmod : (b.toNat + 256 * fromLE bs) % 256 = b.toNat := by omega
      have hdiv : (b.toNat + 256 * fromLE bs) / 256 = fromLE bs := by omega
      rw [List.take_succ_cons, fromLE, ih, fromLE, Nat.pow_succ', Nat.mod_mul, hmod, hdiv]

theorem fromLE_slice (bs : List Byte) (o n : Nat) : fromLE (slice bs o n) = fromLE bs / 256 ^ o % 256 ^ n := by
  rw [slice, fromLE_take, fromLE_drop]

theorem word64_toNat (bs : List Byte) (o : Nat) : (word64 bs o).toNat = fromLE (slice bs o 8) := by
  rw [word64, BitVec.toNat_ofNat, fromLE_slice]
  exact Nat.mod_mod _ (2 ^ 64)

theorem sgLenAt_toNat (bs : List Byte) (j : Nat) : (sgLenAt bs j).toNat = fromLE (slice bs (2 * j) 2) := by
  rw [sgLenAt, BitVec.toNat_ofNat, fromLE_slice]
  exact Nat.mod_mod _ (2 ^ 16)

theorem slice_append_slice (bs : List Byte) (o m n : Nat) :
    slice bs o m ++ slice bs (o + m) n = slice bs o (m + n) := by
  rw [slice, slice, slice, List.take_add, List.drop_drop]

theorem slice_all (bs : List Byte) : slice bs 0 bs.length = bs := by
  rw [slice, List.drop_zero, List.take_length]

/-! ### Words written one after the other -/

theorem word64_le8_append (w : Word) (bs : List Byte) : word64 (le8 w ++ bs) 0 = w :=
  word64_append [] bs w rfl

theorem word64_le8_append_add (w : Word) (bs : List Byte) (o : Nat) :
    word64 (le8 w ++ bs) (o + 8) = word64 bs o := by
  rw [word64, word64, slice, slice, Nat.add_comm, ← List.drop_drop, List.drop_left' (le8_length w)]

theorem word64_le8 (w : Word) : word64 (le8 w) 0 = w := by
  rw [← List.append_nil (le8 w), word64_le8_append]

/-- Writing back the words read from consecutive offsets gives the bytes they were read from. -/
theorem flatMap_le8_word64 {bs : List Byte} {n : Nat} (h : bs.length = 8 * n) :
    (List.range n).flatMap (fun i => le8 (word64 bs (8 * i))) = bs := by
  have upTo : ∀ k ≤ n, (List.range k).flatMap (fun i => le8 (word64 bs (8 * i))) = slice bs 0 (8 * k) := by
    intro k hk
    induction k with
    | zero => rfl
    | succ k ih =>
      have next := slice_append_slice bs 0 (8 * k) 8
      rw [Nat.zero_add] at next
      rw [List.range_succ, List.flatMap_append, ih (by omega), List.flatMap_singleton, le8_word64 (by omega), next,
        Nat.mul_succ]
  rw [upTo n le_rfl, ← h, slice_all]

/-! ### The descriptor (R137, R138) -/

theorem decInstr_toNat (b : Bytes 64) :
    (decInstr b).dptr.toNat = fromLE (slice b.val 0 8) ∧ (decInstr b).ih.toNat = fromLE (slice b.val 8 8) ∧
    (decInstr b).txm0.toNat = fromLE (slice b.val 16 8) ∧ (decInstr b).txm1.toNat = fromLE (slice b.val 24 8) ∧
    (decInstr b).exhdr0.toNat = fromLE (slice b.val 32 8) ∧ (decInstr b).exhdr1.toNat = fromLE (slice b.val 40 8) ∧
    (decInstr b).exhdr2.toNat = fromLE (slice b.val 48 8) ∧ (decInstr b).exhdr3.toNat = fromLE (slice b.val 56 8) := by
  simp only [decInstr, word64_toNat, and_true]

theorem decInstr_encInstr (w : InstrWords) : decInstr (encInstr w) = w := by
  simp only [decInstr, encInstr, List.append_assoc, word64_le8_append, word64_le8_append_add, word64_le8]

theorem encInstr_decInstr (b : Bytes 64) : encInstr (decInstr b) = b := by
  have words : (encInstr (decInstr b)).val = (List.range 8).flatMap fun i => le8 (word64 b.val (8 * i)) := by
    simp [encInstr, decInstr, List.range_succ]
  exact Subtype.ext (words.trans (flatMap_le8_word64 b.property))

/-! ### The scatter-gather record (R135, R136) -/

theorem sgLenWord_toNat (r : SgRecord) : (sgLenWord r).toNat =
    r.len0.toNat + 2 ^ 16 * r.len1.toNat + 2 ^ 32 * r.len2.toNat + 2 ^ 48 * r.len3.toNat :=
  toNat_four_shorts r.len0 r.len1 r.len2 r.len3

/-- The word of the four lengths is the four lengths in two bytes each. -/
theorem le8_sgLenWord (r : SgRecord) : le8 (sgLenWord r) =
    leBytes 2 r.len0.toNat ++ leBytes 2 r.len1.toNat ++ leBytes 2 r.len2.toNat ++ leBytes 2 r.len3.toNat := by
  have first := leBytes_add_mul (m := 2) 2 r.len1.toNat (a := r.len0.toNat) (by omega)
  have second := leBytes_add_mul (m := 4) 2 r.len2.toNat (a := r.len0.toNat + 256 ^ 2 * r.len1.toNat) (by omega)
  have third := leBytes_add_mul (m := 6) 2 r.len3.toNat
    (a := r.len0.toNat + 256 ^ 2 * r.len1.toNat + 256 ^ 4 * r.len2.toNat) (by omega)
  rw [le8, sgLenWord_toNat, ← first, ← second, ← third]
  rfl

theorem encSg_val (r : SgRecord) : (encSg r).val =
    leBytes 2 r.len0.toNat ++ leBytes 2 r.len1.toNat ++ leBytes 2 r.len2.toNat ++ leBytes 2 r.len3.toNat ++
      leBytes 8 r.addr0.toNat ++ leBytes 8 r.addr1.toNat ++ leBytes 8 r.addr2.toNat ++ leBytes 8 r.addr3.toNat := by
  rw [← le8_sgLenWord]
  rfl

theorem decSg_toNat (b : Bytes 40) :
    (decSg b).len0.toNat = fromLE (slice b.val 0 2) ∧ (decSg b).len1.toNat = fromLE (slice b.val 2 2) ∧
    (decSg b).len2.toNat = fromLE (slice b.val 4 2) ∧ (decSg b).len3.toNat = fromLE (slice b.val 6 2) ∧
    (decSg b).addr0.toNat = fromLE (slice b.val 8 8) ∧ (decSg b).addr1.toNat = fromLE (slice b.val 16 8) ∧
    (decSg b).addr2.toNat = fromLE (slice b.val 24 8) ∧ (decSg b).addr3.toNat = fromLE (slice b.val 32 8) := by
  simp only [decSg, sgAddrAt, sgLenAt_toNat, word64_toNat, and_true]

/-- The four lengths read at their offsets are the four parts of the first word. -/
theorem sgLenAt_eq_extractLsb' (bs : List Byte) {j : Nat} (hj : j < 4) :
    sgLenAt bs j = (word64 bs 0).extractLsb' (16 * j) 16 := by
  apply BitVec.eq_of_toNat_eq
  rw [sgLenAt_toNat, toNat_extractLsb'_eq_div_mod, word64_toNat, fromLE_slice, fromLE_slice]
  interval_cases j <;> omega

theorem extractLsb'_sgLenWord (r : SgRecord) :
    (sgLenWord r).extractLsb' 0 16 = r.len0 ∧ (sgLenWord r).extractLsb' 16 16 = r.len1 ∧
    (sgLenWord r).extractLsb' 32 16 = r.len2 ∧ (sgLenWord r).extractLsb' 48 16 = r.len3 := by
  simp only [← BitVec.toNat_inj, toNat_extractLsb'_eq_div_mod, sgLenWord_toNat]
  omega

/-- `DEC_SG` seen by words: the lengths are the four parts of the first word, the addresses the other words. -/
theorem decSg_eq_words (b : Bytes 40) : decSg b =
    { len0 := (word64 b.val 0).extractLsb' 0 16, len1 := (word64 b.val 0).extractLsb' 16 16
      len2 := (word64 b.val 0).extractLsb' 32 16, len3 := (word64 b.val 0).extractLsb' 48 16
      addr0 := word64 b.val 8, addr1 := word64 b.val 16, addr2 := word64 b.val 24, addr3 := word64 b.val 32 } := by
  simp [decSg, sgAddrAt, sgLenAt_eq_extractLsb']

theorem word64_encSg (r : SgRecord) :
    word64 (encSg r).val 0 = sgLenWord r ∧ word64 (encSg r).val 8 = r.addr0 ∧ word64 (encSg r).val 16 = r.addr1 ∧
    word64 (encSg r).val 24 = r.addr2 ∧ word64 (encSg r).val 32 = r.addr3 := by
  simp only [encSg, List.append_assoc, word64_le8_append, word64_le8_append_add, word64_le8, and_true]

theorem decSg_encSg (r : SgRecord) : decSg (encSg r) = r := by
  obtain ⟨lengths, addr0, addr1, addr2, addr3⟩ := word64_encSg r
  obtain ⟨len0, len1, len2, len3⟩ := extractLsb'_sgLenWord r
  rw [decSg_eq_words, lengths, addr0, addr1, addr2, addr3, len0, len1, len2, len3]

theorem sgLenWord_decSg (b : Bytes 40) : sgLenWord (decSg b) = word64 b.val 0 := by
  obtain ⟨len0, len1, len2, len3, -⟩ := decSg_toNat b
  apply BitVec.eq_of_toNat_eq
  rw [sgLenWord_toNat, len0, len1, len2, len3, word64_toNat]
  simp only [fromLE_slice]
  omega

theorem encSg_decSg (b : Bytes 40) : encSg (decSg b) = b := by
  have words : (encSg (decSg b)).val = (List.range 5).flatMap fun i => le8 (word64 b.val (8 * i)) := by
    simp only [encSg, sgLenWord_decSg]
    simp [decSg_eq_words, List.range_succ]
  exact Subtype.ext (words.trans (flatMap_le8_word64 b.property))

/-! ### The statements -/

/-- Settles O8, by the value of the packed header, `encIh_toNat`. -/
theorem encIhValue : Obligations.EncIhValue :=
  fun f s => ⟨encIh f, exec_encIh f s, encIh_toNat f⟩

/-- Settles O9, by the values of the extracted header fields, `decIh_toNat`. -/
theorem decIhFields : Obligations.DecIhFields :=
  fun ih s => ⟨decIh ih, exec_decIh ih s, decIh_toNat ih⟩

/-- Settles O10, by the value of the packed metadata word, `encTxm_toNat`. -/
theorem encTxmValue : Obligations.EncTxmValue :=
  fun m s => ⟨(encTxm m).1, exec_encTxm m s, encTxm_toNat m⟩

/-- Settles O11, by the values of the extracted metadata fields, `decTxm_toNat`. -/
theorem decTxmFields : Obligations.DecTxmFields :=
  fun txm0 txm1 s => ⟨decTxm txm0 txm1, exec_decTxm txm0 txm1 s, decTxm_toNat txm0 txm1⟩

/-- Settles O12: the word of the lengths is the lengths in two bytes each, by `le8_sgLenWord`. -/
theorem encSgBytes : Obligations.EncSgBytes :=
  fun r s => ⟨encSg r, exec_encSg r s, encSg_val r⟩

/-- Settles O13: no decoded number is cut short, since two bytes fit a length and eight an address. -/
theorem decSgFields : Obligations.DecSgFields :=
  fun b s => ⟨decSg b, exec_decSg b s, decSg_toNat b⟩

/-- Settles O14: the words at the offsets are those `DEC_INSTR` reads, and it reads back what `ENC_INSTR` wrote. -/
theorem encInstrBytes : Obligations.EncInstrBytes := by
  intro w s
  obtain ⟨dptr, ih, txm0, txm1, exhdr0, exhdr1, exhdr2, exhdr3⟩ := decInstr_toNat (encInstr w)
  rw [decInstr_encInstr] at dptr ih txm0 txm1 exhdr0 exhdr1 exhdr2 exhdr3
  exact ⟨encInstr w, exec_encInstr w s, dptr.symm, ih.symm, txm0.symm, txm1.symm, exhdr0.symm, exhdr1.symm,
    exhdr2.symm, exhdr3.symm⟩

/-- Settles O15: no decoded number is cut short, since eight bytes fit a word. -/
theorem decInstrWords : Obligations.DecInstrWords :=
  fun b s => ⟨decInstr b, exec_decInstr b s, decInstr_toNat b⟩

/-- Settles O16: the eight laws, each proved on its own above. -/
theorem codecRoundTrip : Obligations.CodecRoundTrip :=
  ⟨decIh_encIh, encIh_decIh, decTxm_encTxm, encTxm_decTxm, decSg_encSg, encSg_decSg, decInstr_encInstr,
    encInstr_decInstr⟩

end Sys2Proof.Machine

/-! Proofs of the ring statements (43_ring.md) about the restart signal. The release loop raises no restart, so the edge
phase alone decides it, and nothing after the loop moves an index: the ring after the call is full exactly when the loop
leaves it full. -/

namespace Sys2Proof.Machine

/-! ### Restarts in a trace -/

@[simp] theorem restartCount_append (a b : List Event) : restartCount (a ++ b) = restartCount a + restartCount b :=
  List.countP_append

/-- A release emits unmappings and one handle return (R170), never a restart. -/
@[simp] theorem restartCount_releaseEvents (m : Memory) (e : PbEntry) : restartCount (releaseEvents m e) = 0 := by
  have restarts : ∀ ev ∈ releaseEvents m e, ev ≠ .restart := by
    simp only [releaseEvents, unmapEvents, List.mem_append, List.mem_map, List.mem_singleton]
    rintro ev (⟨_, _, rfl⟩ | rfl) <;> simp
  simpa [restartCount, List.countP_eq_zero] using restarts

/-! ### The phases of a reclaim (R195) -/

theorem releaseSlots_restart {counted : Bool} {k : Nat} {s t : State} {u : Unit}
    (h : releaseSlots counted k s = .ok u t) :
    t.ctr.restart = s.ctr.restart ∧ restartCount t.trace = restartCount s.trace := by
  induction k generalizing s with
  | zero => cases h; exact ⟨rfl, rfl⟩
  | succ k ih =>
    obtain ⟨_, _, e, _, later⟩ := releaseSlots_ok h
    obtain ⟨counter, events⟩ := ih later
    have released : (afterRelease counted e s).ctr.restart = s.ctr.restart ∧
        (afterRelease counted e s).trace = s.trace ++ releaseEvents s.mem e := by
      cases counted <;> exact ⟨rfl, rfl⟩
    exact ⟨counter.trans released.1, by simp [events, released.2]⟩

theorem restartPhase_restart (wasFull : Bool) (s : State) : (restartPhase wasFull s).ctr.restart =
    if wasFull && !isFull s then s.ctr.restart + 1 else s.ctr.restart := by
  rw [restartPhase]
  split <;> rfl

theorem restartCount_restartPhase (wasFull : Bool) (s : State) : restartCount (restartPhase wasFull s).trace =
    restartCount s.trace + if wasFull && !isFull s then 1 else 0 := by
  rw [restartPhase]
  split
  · rw [signalRestart_trace, restartCount_append]; rfl
  · rfl

/-- The signal moves no index, so the ring is as full as before it. -/
@[simp] theorem isFull_restartPhase (wasFull : Bool) (s : State) : isFull (restartPhase wasFull s) = isFull s := by
  rw [restartPhase]
  split <;> rfl

@[simp] theorem isFull_withResult (s : State) (r : Result) : isFull (s.withResult r) = isFull s := rfl

/-- Everything `RECLAIM` can do (R225): it ends in no error, and its next state is the release loop's after the edge
phase, with the room bit in the result. -/
theorem exec_reclaim_next {s t : State} (h : exec .reclaim s = .next t) : ∃ k s2,
    releaseSlots true k (sample s) = .ok () s2 ∧
      t = (restartPhase (isFull s) s2).withResult (.reclaimed k (!isFull s2)) := by
  obtain ⟨r, s1, ended, rfl⟩ | ⟨r, s1, raised, rfl⟩ := Res.finish_next h
  · obtain ⟨_, s2, released, rfl, rfl⟩ := ringReclaim_ok (requireValid_ok ended).2
    exact ⟨_, s2, released, rfl⟩
  · exact absurd (requireValid_raise raised).2 ringReclaim_not_raise

/-! ### The statement -/

/-- Settles O32: the sample and the release loop leave counter and restarts as they are, and the edge phase adds one to
both on the edge only. -/
theorem restartOnEdgeOnly : Obligations.RestartOnEdgeOnly := by
  intro s t h
  obtain ⟨k, s2, released, rfl⟩ := exec_reclaim_next h
  obtain ⟨counter, events⟩ := releaseSlots_restart released
  rw [isFull_withResult, isFull_restartPhase]
  refine ⟨⟨k, rfl⟩, ?_, ?_⟩
  · rw [State.withResult_ctr, restartPhase_restart, counter, sample_ctr]
  · rw [State.withResult_trace, restartCount_restartPhase, events, sample_trace]

end Sys2Proof.Machine

/-! Proofs of the controller statements (44_controller.md) about refused commands and the full ring. Every command of a
live queue is a finished `requireValid`, so one lemma refuses them all; on a full ring `TRANSMIT` ends right after its
precondition checks, which pass exactly the admissible packets. -/

namespace Sys2Proof.Machine

/-! ### The validity check (R216) -/

theorem finish_requireValid_of_not {α : Type} {s : State} (hv : s.q.valid = false) (f : α → Result) (x : Res α) :
    (requireValid s x).finish f = .refused .queueNotValid := by
  rw [requireValid_of_not hv]; rfl

theorem createQueue_of_valid {s : State} (hv : s.q.valid = true) (a : CreateArgs) :
    createQueue a s = .refuse .queueAlreadyValid := if_pos hv

theorem exec_liveCommand_of_not {i : Instr} {s : State} (hi : isLiveCommand i = true) (hv : s.q.valid = false) :
    exec i s = .refused .queueNotValid := by
  cases i with
  | transmit => exact finish_requireValid_of_not hv _ _
  | reclaim => exact finish_requireValid_of_not hv _ _
  | announce => exact finish_requireValid_of_not hv _ _
  | stats => exact finish_requireValid_of_not hv _ _
  | destroyQueue => exact finish_requireValid_of_not hv _ _
  | _ => cases hi

theorem exec_createQueue_of_valid {s : State} (hv : s.q.valid = true) (a : CreateArgs) :
    exec (.createQueue a) s = .refused .queueAlreadyValid :=
  congrArg (Res.finish fun _ => .done) (createQueue_of_valid hv a)

/-! ### The admission of a packet (R212, R215, R218) -/

/-- The model's length check says what R212 says: a fragment too long already makes the total too long. -/
theorem lengthOverflow_iff (frags : List Frag) :
    (frags.any (fun f => decide (f.len > 65535)) || decide (totalLen frags > 65535)) = true ↔
      65535 < totalLen frags := by
  have fragment_le : ∀ f ∈ frags, f.len ≤ totalLen frags := fun f hf => List.le_sum_of_mem (List.mem_map_of_mem hf)
  simp only [Bool.or_eq_true, List.any_eq_true, decide_eq_true_eq]
  constructor
  · rintro (⟨f, hf, long⟩ | long)
    · exact lt_of_lt_of_le long (fragment_le f hf)
    · exact long
  · exact .inr

/-- The checks of R212 pass for every admissible packet. -/
theorem txPrecondition_of_admissible {rule : OffloadRule} {c : Cfg} {frags : List Frag} {ol : Offload}
    (h : admissible rule c frags ol) : txPrecondition rule c frags ol = none := by
  obtain ⟨head, count, offload, total⟩ := h
  have length_fits := mt (lengthOverflow_iff frags).mp (Nat.not_lt.mpr total)
  rw [txPrecondition, if_neg (by omega), if_neg (by omega), (offloadValid_iff rule ol).mpr offload, if_neg (by simp),
    if_neg length_fits]

/-- An admitted packet that meets a full ring is counted and nothing else (R215 step 2). -/
theorem transmit_of_full {frags : List Frag} {ol : Offload} {s : State} (hv : s.q.valid = true)
    (hp : txPrecondition s.params.offloadRule s.cfg frags ol = none) (hf : isFull s = true) (h : Word) (last : Bool) :
    transmit h frags ol last s = .raise .queueFull (countDrop true s) := by
  simp only [transmit, requireValid_of_valid hv, hp, hf, if_true, raiseError]

/-! ### The statements -/

/-- Settles O38: each command of a live queue begins with the `require` line, and `CREATE_QUEUE` with its opposite. -/
theorem commandValidity : Obligations.CommandValidity :=
  fun _ _ => ⟨exec_liveCommand_of_not, fun a hv => exec_createQueue_of_valid hv a⟩

/-- Settles O40: the admissible packet passes the checks, and the full ring ends the command there. -/
theorem transmitQueueFull : Obligations.TransmitQueueFull := by
  intro h frags ol last s hv ha hf
  exact congrArg (Res.finish fun r => .accepted r.1 r.2)
    (transmit_of_full hv (txPrecondition_of_admissible ha) hf h last)

end Sys2Proof.Machine

/-! Proofs of the decoding and encoding statements (30_encoding.md). Every reader answers exactly when the bytes begin with
what the printer of the same operand writes and the operand fits the port. One such equivalence for each reader, composed
along `do`, gives both round trips at once. -/

namespace Sys2Proof.Decode

open Sys2Proof.Machine

/-! ### Reading one operand after another -/

/-- The reader answers `x` exactly when the bytes begin with `put x`, and leaves the bytes after it; only values that pass
`ok` are ever answered. -/
abbrev Reads {α : Type} (one : List Byte → Except DecodeError (α × List Byte)) (put : α → List Byte) (ok : α → Prop) : Prop :=
  ∀ bs x rest, one bs = .ok (x, rest) ↔ ok x ∧ bs = put x ++ rest

@[simp] theorem bind_eq_ok {α β : Type} {x : Except DecodeError (α × List Byte)}
    {f : α × List Byte → Except DecodeError β} {r : β} :
    x >>= f = .ok r ↔ ∃ a bs, x = .ok (a, bs) ∧ f (a, bs) = .ok r := by
  cases x with
  | error e => simp [bind, Except.bind]
  | ok p => obtain ⟨a, bs⟩ := p; simp [bind, Except.bind]

@[simp] theorem map_eq_ok {α β : Type} {x : Except DecodeError (α × List Byte)} {f : α × List Byte → β} {r : β} :
    f <$> x = .ok r ↔ ∃ a bs, x = .ok (a, bs) ∧ f (a, bs) = r := by
  cases x with
  | error e => simp [Functor.map, Except.map]
  | ok p => obtain ⟨a, bs⟩ := p; simp [Functor.map, Except.map]

@[simp] theorem pure_eq_ok {β : Type} {b r : β} : (pure b : Except DecodeError β) = .ok r ↔ b = r := by
  simp [pure, Except.pure]

/-! ### The operands without parts -/

theorem take_append_drop_eq {n : Nat} {bs : List Byte} (h : n ≤ bs.length) :
    bs = leBytes n (fromLE (bs.take n)) ++ bs.drop n := by
  have back := leBytes_fromLE (bs.take n)
  rw [List.length_take_of_le h] at back
  rw [back, List.take_append_drop]

theorem readLE_eq_ok (n : Nat) : Reads (readLE n) (leBytes n) (· < 256 ^ n) := by
  intro bs v rest
  constructor
  · intro h
    simp only [readLE] at h
    split at h
    · cases h
    · next long =>
      cases h
      have fits := fromLE_lt (bs.take n)
      rw [List.length_take_of_le (by omega)] at fits
      exact ⟨fits, take_append_drop_eq (by omega)⟩
  · rintro ⟨fits, rfl⟩
    have long : ¬ (leBytes n v ++ rest).length < n := by simp
    rw [readLE, if_neg long, List.take_left' (leBytes_length n v), List.drop_left' (leBytes_length n v),
      fromLE_leBytes_of_lt fits]

@[simp] theorem readNat_eq_ok : Reads readNat (leBytes 8) (fun v => fits64 v = true) := by
  intro bs v rest
  simp only [readNat, readLE_eq_ok 8 _ _ _, fits64, decide_eq_true_eq, dmaSpace, Nat.reducePow]

@[simp] theorem readBV_eq_ok {n w : Nat} (h : 2 ^ w ≤ 256 ^ n) :
    Reads (readBV n w) (fun v => putBV n v) (fun _ => True) := by
  intro bs x rest
  simp only [readBV, putBV, true_and]
  constructor
  · intro hx
    split at hx
    · cases hx
    · next v rest' hv =>
      obtain ⟨-, rfl⟩ := (readLE_eq_ok n _ _ _).mp hv
      split at hx
      · next fits => cases hx; rw [BitVec.toNat_ofNat, Nat.mod_eq_of_lt fits]
      · cases hx
  · rintro rfl
    rw [(readLE_eq_ok n _ x.toNat rest).mpr ⟨x.isLt.trans_le h, rfl⟩]
    simp only [x.isLt, if_true, BitVec.ofNat_toNat, BitVec.setWidth_eq]

@[simp] theorem readWord_eq_ok : Reads readWord le8 (fun _ => True) := readBV_eq_ok (by decide)

@[simp] theorem readBool_eq_ok : Reads readBool putBool (fun _ => True) := by
  intro bs b rest
  have byte : ∀ (v : Nat) (r : List Byte), readLE 1 bs = .ok (v, r) ↔ v < 256 ∧ bs = BitVec.ofNat 8 v :: r :=
    fun v r => readLE_eq_ok 1 bs v r
  simp only [readBool, putBool, true_and]
  constructor
  · intro h
    split at h
    · cases h
    · next v rest' hv =>
      obtain ⟨-, rfl⟩ := (byte _ _).mp hv
      split at h
      · next h0 => cases h; rw [h0]; rfl
      · split at h
        · next h1 => cases h; rw [h1]; rfl
        · cases h
  · rintro rfl
    cases b
    · rw [(byte 0 rest).mpr ⟨by decide, rfl⟩]; rfl
    · rw [(byte 1 rest).mpr ⟨by decide, rfl⟩]; rfl

@[simp] theorem readBytes_eq_ok (n : Nat) : Reads (readBytes n) (fun b => b.val) (fun _ => True) := by
  intro bs b rest
  simp only [readBytes, true_and]
  constructor
  · intro h
    split at h
    · cases h; exact (List.take_append_drop n bs).symm
    · cases h
  · rintro rfl
    have front : (b.val ++ rest).take n = b.val := List.take_left' b.property
    rw [dif_pos (by rw [front, b.property])]
    simp only [front, List.drop_left' b.property]

@[simp] theorem readBufType_eq_ok : Reads readBufType putBufType (fun _ => True) := by
  intro bs x rest
  simp only [readBufType, bind_eq_ok, true_and]
  constructor
  · rintro ⟨v, rest', hv, h⟩
    obtain ⟨-, rfl⟩ := (readLE_eq_ok 1 _ _ _).mp hv
    split at h
    · next h1 => cases h; rw [h1]; rfl
    · split at h
      · next h2 => cases h; rw [h2]; rfl
      · cases h
  · rintro rfl
    cases x
    · exact ⟨1, rest, (readLE_eq_ok 1 _ _ _).mpr ⟨by decide, rfl⟩, rfl⟩
    · exact ⟨2, rest, (readLE_eq_ok 1 _ _ _).mpr ⟨by decide, rfl⟩, rfl⟩

/-! ### Lists -/

theorem readMany_eq_ok {α : Type} {one : List Byte → Except DecodeError (α × List Byte)} {put : α → List Byte}
    {ok : α → Prop} (h : Reads one put ok) (n : Nat) (bs : List Byte) (xs : List α) (rest : List Byte) :
    readMany one n bs = .ok (xs, rest) ↔ (xs.length = n ∧ ∀ x ∈ xs, ok x) ∧ bs = xs.flatMap put ++ rest := by
  induction n generalizing bs xs with
  | zero =>
    simp only [readMany, Except.ok.injEq, Prod.mk.injEq, List.length_eq_zero_iff]
    constructor
    · rintro ⟨rfl, rfl⟩; simp
    · rintro ⟨⟨rfl, -⟩, rfl⟩; simp
  | succ n ih =>
    constructor
    · intro hm
      simp only [readMany] at hm
      split at hm
      · cases hm
      · next x bs1 hx =>
        split at hm
        · cases hm
        · next ys bs2 hys =>
          cases hm
          obtain ⟨okx, rfl⟩ := (h _ _ _).mp hx
          obtain ⟨⟨len, oks⟩, rfl⟩ := (ih _ _).mp hys
          exact ⟨⟨by simp [len], by simpa using ⟨okx, oks⟩⟩, by simp⟩
    · rintro ⟨⟨len, oks⟩, rfl⟩
      cases xs with
      | nil => cases len
      | cons x ys =>
        obtain ⟨okx, oks⟩ := List.forall_mem_cons.mp oks
        have first := (h (put x ++ (ys.flatMap put ++ rest)) x _).mpr ⟨okx, rfl⟩
        have later := (ih _ ys).mpr ⟨⟨by simpa using len, oks⟩, rfl⟩
        rw [List.flatMap_cons, List.append_assoc, readMany, first]
        simp only [later]

theorem readList_eq_ok {α : Type} {one : List Byte → Except DecodeError (α × List Byte)} {put : α → List Byte}
    {ok : α → Prop} (h : Reads one put ok) : Reads (readList one)
      (fun xs => leBytes 8 xs.length ++ xs.flatMap put) (fun xs => fits64 xs.length = true ∧ ∀ x ∈ xs, ok x) := by
  intro bs xs rest
  constructor
  · intro hl
    simp only [readList] at hl
    split at hl
    · cases hl
    · next n bs1 hn =>
      obtain ⟨fits, rfl⟩ := (readNat_eq_ok _ _ _).mp hn
      obtain ⟨⟨rfl, oks⟩, rfl⟩ := (readMany_eq_ok h _ _ _ _).mp hl
      exact ⟨⟨fits, oks⟩, by simp⟩
  · rintro ⟨⟨fits, oks⟩, rfl⟩
    rw [List.append_assoc, readList, (readNat_eq_ok _ _ _).mpr ⟨fits, rfl⟩]
    exact (readMany_eq_ok h _ _ _ _).mpr ⟨⟨rfl, oks⟩, rfl⟩

/-! ### Operands made of several, in the order of their rule

Each equivalence is the chain of those of its parts; `∃` and `=` of the intermediate bytes vanish. -/

@[simp] theorem readFrag_eq_ok : Reads readFrag putFrag (fun f => f.wf = true) := by
  rintro bs ⟨buf, len⟩ rest
  simp [readFrag, putFrag, Frag.wf, and_comm]

@[simp] theorem readFrags_eq_ok : Reads (readList readFrag) (fun fs => leBytes 8 fs.length ++ fs.flatMap putFrag)
    (fun fs => fits64 fs.length = true ∧ ∀ f ∈ fs, f.wf = true) := readList_eq_ok readFrag_eq_ok

@[simp] theorem readEntry_eq_ok : Reads readEntry putEntry (fun _ => True) := by
  rintro bs ⟨addr, len⟩ rest
  simp [readEntry, putEntry]

@[simp] theorem readEntries_eq_ok : Reads (readList readEntry) (fun es => leBytes 8 es.length ++ es.flatMap putEntry)
    (fun es => fits64 es.length = true ∧ ∀ e ∈ es, True) := readList_eq_ok readEntry_eq_ok

@[simp] theorem readOffload_eq_ok : Reads readOffload putOffload (fun ol => ol.wf = true) := by
  rintro bs ⟨flags, segSize, segCount⟩ rest
  simp [readOffload, putOffload, Offload.wf, and_assoc, and_left_comm]

@[simp] theorem readRegion_eq_ok : Reads readRegion putRegion (fun _ => True) := by
  intro bs x rest
  simp only [readRegion, bind_eq_ok, readBool_eq_ok, true_and, Bool.exists_bool]
  cases x <;> simp [putRegion]

@[simp] theorem readOptWord_eq_ok : Reads readOptWord putOptWord (fun _ => True) := by
  intro bs x rest
  simp only [readOptWord, bind_eq_ok, readBool_eq_ok, true_and, Bool.exists_bool]
  cases x <;> simp [putOptWord]

@[simp] theorem readCreateArgs_eq_ok : Reads readCreateArgs putCreateArgs (fun a => a.wf = true) := by
  rintro bs ⟨capacity, maxFragments, fillThreshold, pkind, fsz, region, db, ic, il, announceOnFull⟩ rest
  simp [readCreateArgs, putCreateArgs, CreateArgs.wf, -Bool.exists_bool]
  tauto

@[simp] theorem readRecordArgs_eq_ok : Reads readRecordArgs putRecordArgs (fun _ => True) := by
  rintro bs ⟨handle, dma, sg, type, len, nent⟩ rest
  simp [readRecordArgs, putRecordArgs]

@[simp] theorem readIhFields_eq_ok : Reads readIhFields putIhFields (fun _ => True) := by
  rintro bs ⟨tlen, rsvd, pkind, fsz, gsz, gather, rsvd3⟩ rest
  simp [readIhFields, putIhFields]

@[simp] theorem readTxmFields_eq_ok : Reads readTxmFields putTxmFields (fun _ => True) := by
  rintro bs ⟨olFlags, segSize, segCount, mrsvd1, mrsvd2⟩ rest
  simp [readTxmFields, putTxmFields]

@[simp] theorem readSgRecord_eq_ok : Reads readSgRecord putSgRecord (fun _ => True) := by
  rintro bs ⟨len0, len1, len2, len3, addr0, addr1, addr2, addr3⟩ rest
  simp [readSgRecord, putSgRecord]

@[simp] theorem readInstrWords_eq_ok : Reads readInstrWords putInstrWords (fun _ => True) := by
  rintro bs ⟨dptr, ih, txm0, txm1, exhdr0, exhdr1, exhdr2, exhdr3⟩ rest
  simp [readInstrWords, putInstrWords]

/-! ### Commands of the port (R117) -/

theorem eq_ofNat_of_toNat {op : Byte} {n : Nat} (h : op.toNat = n) : op = BitVec.ofNat 8 n := by
  rw [← h, BitVec.ofNat_toNat, BitVec.setWidth_eq]

/-- A well-formed command decodes from its operand bytes under its own identifier. -/
theorem decodeOperands_encodeOperands {op : Byte} {i : Instr} (rest : List Byte) (wf : i.wf = true)
    (hop : opId i = some op) : decodeOperands op (encodeOperands i ++ rest) = .ok (i, rest) := by
  cases i <;> cases hop <;> simp_all [Instr.wf, encodeOperands, decodeOperands, -Bool.exists_bool]

/-- What decodes after an identifier is a well-formed command with that identifier, and its bytes are its encoding. -/
theorem of_decodeOperands_eq_ok {op : Byte} {bs rest : List Byte} {i : Instr} (h : decodeOperands op bs = .ok (i, rest)) :
    i.wf = true ∧ opId i = some op ∧ bs = encodeOperands i ++ rest := by
  simp only [decodeOperands] at h
  split at h
  case h_24 => cases h
  all_goals
    next hop =>
      obtain rfl := eq_ofNat_of_toNat hop
      simp [-Bool.exists_bool] at h
      grind [Instr.wf, opId, encodeOperands]

/-- An identifier outside the table of R117 is rejected by its name (R280). -/
theorem decodeOperands_of_unassigned {op : Byte} (bs : List Byte)
    (h : op.toNat ∉ [0x00, 0x01, 0x02, 0x03, 0x04, 0x05, 0x10, 0x11, 0x12, 0x13, 0x14, 0x15, 0x16, 0x17, 0x20, 0x21, 0x30,
      0x31, 0x40, 0x41, 0x42, 0x50, 0x51]) : decodeOperands op bs = .error (.unassignedOp op) := by
  simp only [decodeOperands]
  split
  case h_24 => rfl
  all_goals next hop => simp [hop] at h

/-! ### Descriptors (R108, R109) -/

/-- The form is bit 62 of the header word. -/
theorem isGatherForm_eq (ih : Word) : isGatherForm ih = ih.getLsbD 62 := by
  have mask : formMask = BitVec.twoPow 64 62 := by decide
  rw [isGatherForm, mask, BitVec.and_twoPow]
  cases ih.getLsbD 62 <;> decide

/-- The form is the header's `gather` field. -/
theorem decIh_gather (ih : Word) : (decIh ih).gather = if isGatherForm ih then 1 else 0 := by
  rw [isGatherForm_eq]
  apply BitVec.eq_of_getLsbD_eq
  intro k hk
  obtain rfl : k = 0 := by omega
  simp only [decIh, ihLo, BitVec.getLsbD_extractLsb']
  cases ih.getLsbD 62 <;> simp_all

theorem txDescOf_wordsOfTxDesc (gather : BitVec 1) (d : TxDesc) : txDescOf (wordsOfTxDesc gather d) = d := by
  simp only [txDescOf, wordsOfTxDesc, decIh_encIh, decTxm_encTxm]

theorem wordsOfTxDesc_txDescOf (w : InstrWords) : wordsOfTxDesc (decIh w.ih).gather (txDescOf w) = w := by
  simp only [txDescOf, wordsOfTxDesc, encTxm_decTxm]
  exact congrArg (fun ih => { w with ih := ih }) (encIh_decIh w.ih)

theorem isGatherForm_wordsOfTxDesc (gather : BitVec 1) (d : TxDesc) :
    isGatherForm (wordsOfTxDesc gather d).ih = (gather == 1) := by
  have field := decIh_gather (wordsOfTxDesc gather d).ih
  rw [show (decIh (wordsOfTxDesc gather d).ih).gather = gather by rw [wordsOfTxDesc, decIh_encIh]] at field
  cases form : isGatherForm (wordsOfTxDesc gather d).ih <;> simp only [form] at field <;> subst field <;> rfl

/-- The 64 bytes are a descriptor of exactly the instruction whose encoding they are. -/
theorem decodeDescriptor_eq_iff (b : Bytes 64) (i : Instr) :
    decodeDescriptor b = i ↔ opId i = none ∧ b.val = encodeOperands i := by
  constructor
  · rintro rfl
    have words := wordsOfTxDesc_txDescOf (decInstr b)
    rw [decIh_gather] at words
    have bytes := congrArg (fun w => (Machine.encInstr w).val) words
    simp only [encInstr_decInstr] at bytes
    cases form : isGatherForm (decInstr b).ih <;> simp only [form, decodeDescriptor] at bytes ⊢ <;>
      exact ⟨rfl, bytes.symm⟩
  · rintro ⟨hop, hb⟩
    cases i with
    | txiSingle d =>
      obtain rfl : b = Machine.encInstr (wordsOfTxDesc 0 d) := Subtype.ext hb
      rw [decodeDescriptor, decInstr_encInstr, isGatherForm_wordsOfTxDesc, txDescOf_wordsOfTxDesc]
      rfl
    | txiGather d =>
      obtain rfl : b = Machine.encInstr (wordsOfTxDesc 1 d) := Subtype.ext hb
      rw [decodeDescriptor, decInstr_encInstr, isGatherForm_wordsOfTxDesc, txDescOf_wordsOfTxDesc]
      rfl
    | _ => cases hop

theorem wf_of_opId_eq_none {i : Instr} (h : opId i = none) : i.wf = true := by
  cases i with
  | txiSingle _ | txiGather _ => rfl
  | _ => cases h

/-! ### Both formats -/

theorem formatOf_eq_op8 {i : Instr} : formatOf i = .op8 ↔ ∃ op, opId i = some op := by
  rw [formatOf]
  cases opId i <;> simp

theorem formatOf_eq_ih64 {i : Instr} : formatOf i = .ih64 ↔ opId i = none := by
  rw [formatOf]
  cases opId i <;> simp

theorem encode_of_opId {i : Instr} {op : Byte} (h : opId i = some op) : encode i = op :: encodeOperands i := by
  rw [encode, h]

theorem encode_of_no_opId {i : Instr} (h : opId i = none) : encode i = encodeOperands i := by
  rw [encode, h]

/-- A command decodes from the port exactly when its bytes stand there first. -/
theorem decode_op8_eq_ok (bs rest : List Byte) (i : Instr) : decode .op8 bs = .ok (i, rest) ↔
    i.wf = true ∧ formatOf i = .op8 ∧ bs = encode i ++ rest := by
  constructor
  · intro h
    cases bs with
    | nil => cases h
    | cons op bs =>
      obtain ⟨wf, hop, rfl⟩ := of_decodeOperands_eq_ok h
      exact ⟨wf, formatOf_eq_op8.mpr ⟨op, hop⟩, by rw [encode_of_opId hop, List.cons_append]⟩
  · rintro ⟨wf, hfmt, rfl⟩
    obtain ⟨op, hop⟩ := formatOf_eq_op8.mp hfmt
    rw [encode_of_opId hop]
    exact decodeOperands_encodeOperands rest wf hop

/-- A descriptor decodes from 64 bytes exactly when they are its encoding. -/
theorem decode_ih64_eq_ok (bs rest : List Byte) (i : Instr) : decode .ih64 bs = .ok (i, rest) ↔
    i.wf = true ∧ formatOf i = .ih64 ∧ bs = encode i ++ rest := by
  constructor
  · intro h
    simp only [decode] at h
    split at h
    · cases h
    · next b rest' hb =>
      cases h
      obtain ⟨-, rfl⟩ := (readBytes_eq_ok 64 _ _ _).mp hb
      obtain ⟨hop, bytes⟩ := (decodeDescriptor_eq_iff b _).mp rfl
      exact ⟨wf_of_opId_eq_none hop, formatOf_eq_ih64.mpr hop, by rw [encode_of_no_opId hop, ← bytes]⟩
  · rintro ⟨-, hfmt, rfl⟩
    have hop := formatOf_eq_ih64.mp hfmt
    obtain ⟨b, bytes⟩ : ∃ b : Bytes 64, b.val = encodeOperands i := by
      cases i with
      | txiSingle d => exact ⟨Machine.encInstr (wordsOfTxDesc 0 d), rfl⟩
      | txiGather d => exact ⟨Machine.encInstr (wordsOfTxDesc 1 d), rfl⟩
      | _ => cases hop
    have read := (readBytes_eq_ok 64 (b.val ++ rest) b rest).mpr ⟨trivial, rfl⟩
    rw [encode_of_no_opId hop, ← bytes, decode]
    simp only [read, (decodeDescriptor_eq_iff b i).mpr ⟨hop, bytes⟩]

/-- In either format, what decodes is what is encoded there. -/
theorem decode_eq_ok (fmt : Format) (bs rest : List Byte) (i : Instr) : decode fmt bs = .ok (i, rest) ↔
    i.wf = true ∧ formatOf i = fmt ∧ bs = encode i ++ rest := by
  cases fmt
  · exact decode_op8_eq_ok bs rest i
  · exact decode_ih64_eq_ok bs rest i

/-! ### The statements -/

/-- Settles O1: the bytes stand first, so `decode_eq_ok` reads them. -/
theorem decodeEncodeRoundTrip : Obligations.DecodeEncodeRoundTrip :=
  fun i rest wf => (decode_eq_ok (formatOf i) (encode i ++ rest) rest i).mpr ⟨wf, rfl, rfl⟩

/-- Settles O2, the other direction of `decode_eq_ok`. -/
theorem decodedBytesAreTheEncoding : Obligations.DecodedBytesAreTheEncoding :=
  fun fmt bs rest i h => (decode_eq_ok fmt bs rest i).mp h

/-- Settles O3: each sample is the encoding of its instruction, which is a computation. -/
theorem sampleWordsDecode : Obligations.SampleWordsDecode :=
  ⟨(decode_eq_ok _ _ _ _).mpr ⟨rfl, rfl, rfl⟩, (decode_eq_ok _ _ _ _).mpr ⟨rfl, rfl, by decide⟩,
    (decode_eq_ok _ _ _ _).mpr ⟨rfl, rfl, by decide +kernel⟩, (decode_eq_ok _ _ _ _).mpr ⟨rfl, rfl, by decide +kernel⟩⟩

end Sys2Proof.Decode

/-! Proofs of the statements about the step (R7, R27, R51, R283). What the schedule brings is settled first: which state an
instruction runs on, and that fetching moves nothing but the port and the turns. Every later statement about a step goes
through `step_next`. -/

namespace Sys2Proof.Machine

/-! ### What the port and the schedule bring -/

theorem fetchPort_of_empty {s : State} (h : s.port = []) : fetchPort s = .idle s := by
  simp only [fetchPort, h]

theorem fetchPort_of_decode {s : State} {i : Instr} {rest : List Byte}
    (h : Decode.decode .op8 s.port = .ok (i, rest)) : fetchPort s = .run i (s.withPort rest) := by
  unfold fetchPort
  split
  · next empty => rw [empty] at h; cases h
  · simp only [h]

theorem fetchPort_of_error {s : State} {e : DecodeError} {op : Byte} {bs : List Byte} (hp : s.port = op :: bs)
    (h : Decode.decodeOperands op bs = .error e) : fetchPort s = .refused (.badCommand e) := by
  simp only [fetchPort, hp, Decode.decode, Decode.decodeOp8, h]

theorem fetch_of_no_turn {s : State} (h : s.turns = []) : fetch s = fetchPort s := by
  simp only [fetch, h]

theorem fetch_of_port_turn {s : State} {ts : List Turn} (h : s.turns = .port :: ts) :
    fetch s = fetchPort (s.withTurns ts) := by
  simp only [fetch, h]

theorem fetch_of_device_turn {s : State} {ts : List Turn} (h : s.turns = .device :: ts) :
    fetch s = fetchDescriptor (s.withTurns ts) := by
  simp only [fetch, h]

/-! ### One step -/

theorem step_of_idle {s u : State} (h : fetch s = .idle u) : step s = .next u := by
  rw [step, h]

theorem step_of_run {s u : State} {i : Instr} (h : fetch s = .run i u) : step s = exec i u := by
  rw [step, h]

theorem step_of_refused {s : State} {r : Refusal} (h : fetch s = .refused r) : step s = .refused r := by
  rw [step, h]

/-- An instruction taken from the port runs on the state without its bytes. -/
theorem fetchPort_run {s u : State} {i : Instr} (h : fetchPort s = .run i u) : ∃ bs, u = s.withPort bs := by
  unfold fetchPort at h
  split at h
  · cases h
  · split at h
    · cases h; exact ⟨_, rfl⟩
    · cases h

theorem fetchPort_idle {s u : State} (h : fetchPort s = .idle u) : u = s := by
  unfold fetchPort at h
  split at h
  · cases h; rfl
  · split at h <;> cases h

/-- A descriptor is fetched without any change of state. -/
theorem fetchDescriptor_run {s u : State} {i : Instr} (h : fetchDescriptor s = .run i u) : u = s := by
  unfold fetchDescriptor at h
  split at h
  · next hf => obtain ⟨-, -, -, rfl, -⟩ := deviceFetch_ok hf; cases h; rfl
  all_goals cases h

theorem fetchDescriptor_not_idle {s u : State} : fetchDescriptor s ≠ .idle u := by
  unfold fetchDescriptor
  split
  · simp
  · next hf => exact absurd hf deviceFetch_not_raise
  all_goals simp

/-- Fetching an instruction moves the port and the turns only. -/
theorem fetch_run {s u : State} {i : Instr} (h : fetch s = .run i u) : ∃ bs ts, u = (s.withTurns ts).withPort bs := by
  unfold fetch at h
  split at h
  · obtain ⟨bs, rfl⟩ := fetchPort_run h; exact ⟨bs, s.turns, rfl⟩
  · next ts _ => obtain ⟨bs, rfl⟩ := fetchPort_run h; exact ⟨bs, ts, rfl⟩
  · next ts _ => rw [fetchDescriptor_run h]; exact ⟨s.port, ts, rfl⟩
  · cases h

/-- A step without an instruction leaves all but the turns, or resets the device (R296). -/
theorem fetch_idle {s u : State} (h : fetch s = .idle u) :
    ∃ ts, u = s.withTurns ts ∨ ∃ ic, u = resetDevice ic (s.withTurns ts) := by
  unfold fetch at h
  split at h
  · rw [fetchPort_idle h]; exact ⟨s.turns, .inl rfl⟩
  · next ts _ => rw [fetchPort_idle h]; exact ⟨ts, .inl rfl⟩
  · exact absurd h fetchDescriptor_not_idle
  · next ic ts _ => cases h; exact ⟨ts, .inr ⟨ic, rfl⟩⟩

/-- Everything a step can do: nothing but a turn taken, a reset of the device, or an instruction on the state from which it
was taken. -/
theorem step_next {s t : State} (h : step s = .next t) :
    (∃ ts, t = s.withTurns ts) ∨ (∃ ts ic, t = resetDevice ic (s.withTurns ts)) ∨
      ∃ i bs ts, exec i ((s.withTurns ts).withPort bs) = .next t := by
  unfold step at h
  split at h
  · next u hf =>
    cases h
    obtain ⟨ts, rfl | ⟨ic, rfl⟩⟩ := fetch_idle hf
    · exact .inl ⟨ts, rfl⟩
    · exact .inr (.inl ⟨ts, ic, rfl⟩)
  · next i u hf =>
    obtain ⟨bs, ts, rfl⟩ := fetch_run hf
    exact .inr (.inr ⟨i, bs, ts, h⟩)
  all_goals cases h

/-! ### The statements -/

/-- Settles O4: the decoder rejects the identifier, and the step passes the rejection on. -/
theorem unassignedOpRefused : Obligations.UnassignedOpRefused := by
  intro op bs s hop hturns hport
  exact step_of_refused
    ((fetch_of_no_turn hturns).trans (fetchPort_of_error hport (Decode.decodeOperands_of_unassigned bs hop)))

/-- Settles O5, for both ways in which the port is served. -/
theorem stepRunsCommand : Obligations.StepRunsCommand := by
  intro s i rest hdec
  refine ⟨fun hturns => ?_, fun ts hturns => ?_⟩
  · exact step_of_run ((fetch_of_no_turn hturns).trans (fetchPort_of_decode hdec))
  · exact step_of_run ((fetch_of_port_turn hturns).trans (fetchPort_of_decode (s := s.withTurns ts) hdec))

/-- Settles O7: with no turn the port is served, and it is empty. -/
theorem idleStepChangesNothing : Obligations.IdleStepChangesNothing := by
  have idle : ∀ s : State, s.turns = [] → s.port = [] → step s = .next s := fun s hturns hport =>
    step_of_idle ((fetch_of_no_turn hturns).trans (fetchPort_of_empty hport))
  exact ⟨idle, idle State.reset rfl rfl⟩

/-- Settles O60: the block's step writes the state at one position of the list. -/
theorem queuesIndependent : Obligations.QueuesIndependent := by
  intro k j before after h
  unfold blockStep at h
  split at h
  · cases h
  · next s hs =>
    split at h
    · next t ht =>
      cases h
      have inside : k < before.length := (List.getElem?_eq_some_iff.mp hs).1
      exact ⟨fun hne => List.getElem?_set_ne (Ne.symm hne), s, t, hs, ht, List.getElem?_set_self inside⟩
    all_goals cases h

end Sys2Proof.Machine

/-! Proofs of the device statements (45_device_agent.md). A device step is a guard, then a fetch, then the buffers of the
descriptor; each of the three is settled once, for the case that it lets the device go on and for the case that it stops it. -/

namespace Sys2Proof.Machine

/-! ### The guard (R243, R244, entry 14) -/

theorem requireDevice_of_ready {α : Type} {s : State} (ha : s.dev.avail ≠ 0) (hv : s.q.valid = true)
    (hy : s.dev.synced = true) (x : Res α) : requireDevice s x = x := by
  simp only [requireDevice, ha, hv, hy, Bool.and_self, Bool.not_true, Bool.false_eq_true, if_false]

theorem requireDevice_of_idle {α : Type} {s : State} (ha : s.dev.avail = 0) (x : Res α) :
    requireDevice s x = .refuse .deviceNotEnabled := if_pos ha

theorem requireDevice_of_not_followed {α : Type} {s : State} (ha : s.dev.avail ≠ 0)
    (h : s.q.valid = false ∨ s.dev.synced = false) (x : Res α) : requireDevice s x = .refuse .deviceOutOfContract := by
  have stop : (!(s.q.valid && s.dev.synced)) = true := by rcases h with h | h <;> simp [h]
  rw [requireDevice, if_neg ha, if_pos stop]

/-! ### The fetch (R243, R108) -/

theorem deviceFetch_completes {s : State} {b : Bytes 64} (ha : s.dev.avail ≠ 0) (hv : s.q.valid = true)
    (hy : s.dev.synced = true) (inside : slotAddr s.cfg s.dev.fetchIndex + 64 ≤ dmaSpace)
    (hb : b.val = readBytes s.mem (slotAddr s.cfg s.dev.fetchIndex) 64) : deviceFetch s = .ok b s := by
  rw [deviceFetch, requireDevice_of_ready ha hv hy, memRead, if_pos inside]
  exact congrArg (Res.ok · s) (Subtype.ext hb.symm)

/-- Both descriptor forms are the consumption of the descriptor in the form that its header tells. -/
theorem exec_decodeDescriptor (b : Bytes 64) (s : State) : exec (Decode.decodeDescriptor b) s =
    (consumeDesc (isGatherForm (decInstr b).ih) (txDescOf (decInstr b)) s).finishDevice := by
  rw [Decode.decodeDescriptor]
  cases isGatherForm (decInstr b).ih <;> rfl

theorem exec_txi (gather : Bool) (d : TxDesc) (s : State) :
    exec (if gather then .txiGather d else .txiSingle d) s = (consumeDesc gather d s).finishDevice := by
  cases gather <;> rfl

/-- `DEV_CONSUME` is the fetch followed by what the descriptor fetched does. -/
theorem exec_devConsume_of_fetch {s : State} {b : Bytes 64} (h : deviceFetch s = .ok b s) :
    exec .devConsume s = exec (Decode.decodeDescriptor b) s := by
  rw [exec_decodeDescriptor]
  change (devConsume s).finishDevice = _
  rw [devConsume, h, Res.bind]

/-! ### The buffers and the consumption (R109, R114, R243) -/

theorem descBuffers_completes {gather : Bool} {d : TxDesc} {s : State}
    (inside : gather = true → d.dptr.toNat + 40 * nrec d.gsz.toNat ≤ dmaSpace) : descBuffers gather d s =
      .ok (if gather then (List.range d.gsz.toNat).map (entryInMem s.mem d.dptr.toNat) else [(d.dptr, d.tlen)]) s := by
  cases gather with
  | false => rfl
  | true => exact if_pos (inside rfl)

theorem readEntries_of_outside {base count : Nat} (h : dmaSpace < base + 40 * nrec count) (s : State) :
    readEntries base count s = .fault .outsideDmaSpace := if_neg (Nat.not_le.mpr h)

/-- A descriptor with a meaning whose buffers lie in the DMA space is consumed: its packet is emitted, and only the device
moves. -/
theorem exec_txi_completes {gather : Bool} {d : TxDesc} {s : State} (ha : s.dev.avail ≠ 0) (hv : s.q.valid = true)
    (hy : s.dev.synced = true) (hd : ¬unproducedDesc gather d)
    (inside : gather = true → d.dptr.toNat + 40 * nrec d.gsz.toNat ≤ dmaSpace) :
    (consumeDesc gather d s).finishDevice = .next { s with
      dev := { s.dev with fetchIndex := (s.dev.fetchIndex + 1) % s.cfg.n, avail := s.dev.avail - 1, ic := s.dev.ic + 1 }
      trace := s.trace ++ [.txPacket s.dev.fetchIndex
        (if gather then (List.range d.gsz.toNat).map (entryInMem s.mem d.dptr.toNat) else [(d.dptr, d.tlen)])
        d.tlen d.pkind d.fsz d.txm] } := by
  have meaning : undefinedDesc gather d = false := Bool.eq_false_iff.mpr (mt (undefinedDesc_iff gather d).mp hd)
  rw [consumeDesc, requireDevice_of_ready ha hv hy, meaning, if_neg Bool.false_ne_true, descBuffers_completes inside]
  rfl

theorem exec_txi_of_unproduced {gather : Bool} {d : TxDesc} {s : State} (ha : s.dev.avail ≠ 0) (hv : s.q.valid = true)
    (hy : s.dev.synced = true) (hd : unproducedDesc gather d) :
    (consumeDesc gather d s).finishDevice = .refused .undefinedDescriptor := by
  rw [consumeDesc, requireDevice_of_ready ha hv hy, if_pos ((undefinedDesc_iff gather d).mpr hd)]
  rfl

/-! ### Instructions that only the device executes, stopped by the guard -/

/-- The three device steps all begin with the guard. -/
theorem exec_deviceStep_of_guard {r : Refusal} {s : State} (guard : ∀ {α : Type} (x : Res α), requireDevice s x = .refuse r)
    {i : Instr} {d : TxDesc} (hi : i = .devConsume ∨ i = .txiSingle d ∨ i = .txiGather d) : exec i s = .refused r := by
  have consume : ∀ gather, (consumeDesc gather d s).finishDevice = .refused r := fun gather => by
    rw [consumeDesc, guard]; rfl
  obtain rfl | rfl | rfl := hi
  · change (devConsume s).finishDevice = _
    rw [devConsume, deviceFetch, guard]; rfl
  · exact consume false
  · exact consume true

/-! ### The statements -/

/-- Settles O6: the device's turn fetches the descriptor, and so does `DEV_CONSUME`. -/
theorem stepRunsDescriptor : Obligations.StepRunsDescriptor := by
  intro s ts b hturns ha hv hy inside hb
  have fetched : deviceFetch (s.withTurns ts) = .ok b (s.withTurns ts) :=
    deviceFetch_completes (s := s.withTurns ts) ha hv hy inside hb
  have run : step s = exec (Decode.decodeDescriptor b) (s.withTurns ts) :=
    step_of_run ((fetch_of_device_turn hturns).trans (by simp only [fetchDescriptor, fetched]))
  exact ⟨run, run.trans (exec_devConsume_of_fetch fetched).symm⟩

/-- Settles O46: the doorbell operation is the device's reaction and nothing else. -/
theorem doorbellAddsCount : Obligations.DoorbellAddsCount := fun _ _ => rfl

/-- Settles O47, the single-buffer form of `exec_txi_completes`. -/
theorem txiSingleConsumed : Obligations.TxiSingleConsumed :=
  fun _ _ ha hv hy hd => exec_txi_completes (gather := false) ha hv hy hd (by simp)

/-- Settles O48, the gathered form of `exec_txi_completes`. -/
theorem txiGatherConsumed : Obligations.TxiGatherConsumed :=
  fun _ _ ha hv hy hd inside => exec_txi_completes (gather := true) ha hv hy hd fun _ => inside

/-- Settles O49: fetch, decode by bit 62, consume. -/
theorem devConsumePacket : Obligations.DevConsumePacket := by
  intro s b w h ha hv hy inside hb hw hh hd hgroup
  subst hw hh
  rw [exec_devConsume_of_fetch (deviceFetch_completes ha hv hy inside hb), exec_decodeDescriptor,
    Decode.isGatherForm_eq]
  exact exec_txi_completes ha hv hy hd hgroup

/-- Settles O50: the guard stops the first two clauses, the descriptor the other two. -/
theorem deviceStepRefused : Obligations.DeviceStepRefused := by
  intro i gather d b s
  refine ⟨fun hi ha => ?_, fun hi ha hn => ?_, fun hi ha hv hy hd => ?_, fun ha hv hy inside hb hd => ?_⟩
  · exact exec_deviceStep_of_guard (requireDevice_of_idle ha) hi
  · exact exec_deviceStep_of_guard (requireDevice_of_not_followed ha hn) hi
  · rw [hi, exec_txi]
    exact exec_txi_of_unproduced ha hv hy hd
  · rw [exec_devConsume_of_fetch (deviceFetch_completes ha hv hy inside hb), exec_decodeDescriptor,
      Decode.isGatherForm_eq]
    exact exec_txi_of_unproduced ha hv hy hd

/-- Settles O51: each clause reaches an access whose bound check fails. -/
theorem outsideDmaSpaceFaults : Obligations.OutsideDmaSpaceFaults := by
  intro slot e a d s hv
  refine ⟨fun hs he hk outside => ?_, fun ha hy hd outside => ?_, fun ha hy outside => ?_⟩
  · change (pbRelease slot s).finish _ = _
    rw [pbRelease, requireSlot_eq hv hs]
    simp only [he, entryMappings, hk, readEntries_of_outside outside, Res.bind, Res.finish]
  · have meaning : undefinedDesc true d = false := Bool.eq_false_iff.mpr (mt (undefinedDesc_iff true d).mp hd)
    change (consumeDesc true d s).finishDevice = _
    rw [consumeDesc, requireDevice_of_ready ha hv hy, meaning, if_neg Bool.false_ne_true, descBuffers, if_pos rfl,
      readEntries_of_outside outside]
    rfl
  · change (devConsume s).finishDevice = _
    rw [devConsume, deviceFetch, requireDevice_of_ready ha hv hy, memRead, if_neg (Nat.not_le.mpr outside)]
    rfl

end Sys2Proof.Machine

/-! Proofs of the statements about the scatter-gather pool (41_sg_pool.md) and the pending-buffer table (42_pending.md).
What a fill leaves in memory is one predicate, `GroupWritten`, which the statements about `TRANSMIT` use again. -/

namespace Sys2Proof.Machine

/-! ### How an operation's end becomes the instruction's outcome (R15) -/

theorem finish_of_ok {α : Type} {x : Res α} {a : α} {t : State} (h : x = .ok a t) (f : α → Result) :
    x.finish f = .next (t.withResult (f a)) := by
  rw [h]; rfl

theorem finish_of_raise {α : Type} {x : Res α} {r : Result} {t : State} (h : x = .raise r t) (f : α → Result) :
    x.finish f = .next (t.withResult r) := by
  rw [h]; rfl

theorem finish_of_refuse {α : Type} {x : Res α} {r : Refusal} (h : x = .refuse r) (f : α → Result) :
    x.finish f = .refused r := by
  rw [h]; rfl

/-! ### Records written and entries read back (R112, R113, R152) -/

theorem sgPosition_sgRecordAt (es : List (Word × BitVec 16)) (r : Nat) {j : Nat} (hj : j < 4) :
    sgPosition (sgRecordAt es r) j = entryAt es (4 * r + j) := by
  interval_cases j <;> rfl

/-- An entry read back stands at its position of the record written there. -/
theorem entryInMem_of_record {m : Memory} {base e : Nat} {r : SgRecord}
    (h : readBytes m (base + 40 * (e / 4)) 40 = (encSg r).val) : entryInMem m base e = sgPosition r (e % 4) := by
  have bytes : (⟨readBytes m (base + 40 * (e / 4)) 40, readBytes_length m _ 40⟩ : Bytes 40) = encSg r := Subtype.ext h
  rw [entryInMem, bytes, decSg_encSg]

/-- What a fill of the group at `base` makes of the memory `m`: the entries in order, zeroes up to the end of the last used
record (D5), and no other byte changed. -/
structure GroupWritten (base : Nat) (es : List (Word × BitVec 16)) (m m' : Memory) : Prop where
  entries : ∀ e < 4 * nrec es.length, entryInMem m' base e = es.getD e (0, 0)
  outside : ∀ a, a < base ∨ base + 40 * nrec es.length ≤ a → readByte m' a = readByte m a
  wf : m.wf → m'.wf

theorem groupWritten_of_writeRecords {base : Nat} {es : List (Word × BitVec 16)} {s t : State} {u : Unit}
    (h : writeRecords base es (nrec es.length) 0 s = .ok u t) :
    t = s.withMem t.mem ∧ GroupWritten base es s.mem t.mem := by
  obtain ⟨state, wf, outside, records⟩ := writeRecords_ok h
  refine ⟨state, fun e he => ?_, fun a ha => outside a (by omega), wf⟩
  rw [entryInMem_of_record (records (e / 4) (by omega) (by omega)), sgPosition_sgRecordAt es _ (by omega), entryAt,
    Nat.div_add_mod]

/-- A fill changes the memory alone, as `GroupWritten` says. -/
theorem sgFill_next {slot : Nat} {es : List (Word × BitVec 16)} {s t : State} {r : Nat × Nat × Word}
    (h : sgFill slot es s = .ok r t) :
    t = s.withMem t.mem ∧ GroupWritten (sgAddr s.cfg slot 0) es s.mem t.mem := by
  obtain ⟨-, -, -, -, -, -, written⟩ := sgFill_ok h
  exact groupWritten_of_writeRecords written

/-! ### The require lines (R151, R152, R166, R170) -/

theorem requireSlot_of_out_of_range {α : Type} {slot : Nat} {s : State} (hv : s.q.valid = true) (hs : s.cfg.n ≤ slot)
    (x : Res α) : requireSlot slot s x = .refuse .slotOutOfRange := by
  rw [requireSlot, requireValid_of_valid hv, if_neg (by omega)]

/-- The operands of `PB_RECORD` pass the check exactly when they agree as R166 asks. -/
theorem recordOperandsOk_iff {c : Cfg} {slot : Nat} {a : RecordArgs} : recordOperandsOk c slot a = true ↔
    (a.type = .single ∧ a.sg = none ∧ a.nent = 0) ∨
      (a.type = .gather ∧ a.sg = some (groupAddr c slot) ∧ 1 ≤ a.nent.toNat) := by
  cases ht : a.type <;> simp [recordOperandsOk, ht]

/-! ### Recording (R166) -/

theorem pbRecord_completes {slot : Nat} {a : RecordArgs} {s : State} (hv : s.q.valid = true) (hs : slot < s.cfg.n)
    (ho : recordOperandsOk s.cfg slot a = true) (hg : pbGet s slot = none) :
    pbRecord slot a s = .ok () (s.withPb (sparsePut slot (entryOf s.cfg slot a) s.pb)) := by
  simp only [pbRecord, requireSlot_eq hv hs, ho, hg, Bool.not_true, Bool.false_eq_true, if_false]

theorem pbRecord_of_live {slot : Nat} {a : RecordArgs} {s : State} (hv : s.q.valid = true) (hs : slot < s.cfg.n)
    (ho : recordOperandsOk s.cfg slot a = true) (hg : (pbGet s slot).isSome = true) :
    pbRecord slot a s = .raise (.pbAlreadyInFlight slot) s := by
  obtain ⟨e, he⟩ := Option.isSome_iff_exists.mp hg
  simp only [pbRecord, requireSlot_eq hv hs, ho, he, Bool.not_true, Bool.false_eq_true, if_false, raiseError]

theorem pbRecord_of_operands {slot : Nat} {a : RecordArgs} {s : State} (hv : s.q.valid = true) (hs : slot < s.cfg.n)
    (ho : recordOperandsOk s.cfg slot a = false) : pbRecord slot a s = .refuse .recordOperands := by
  simp only [pbRecord, requireSlot_eq hv hs, ho, Bool.not_false, if_true]

/-! ### Releasing (R170) -/

theorem pbRelease_of_free {slot : Nat} {s : State} (hv : s.q.valid = true) (hs : slot < s.cfg.n)
    (hg : pbGet s slot = none) : pbRelease slot s = .raise (.pbNotInFlight slot) s := by
  simp only [pbRelease, requireSlot_eq hv hs, hg, raiseError]

theorem unmapEvents_of_single {m : Memory} {e : PbEntry} (hk : e.kind = .single) :
    unmapEvents (mappingsOf m e) = [.dmaUnmap e.dma e.len.toNat] := by
  simp only [mappingsOf, hk, unmapEvents, List.map_cons, List.map_nil]

theorem unmapEvents_of_gather {m : Memory} {e : PbEntry} {a : Word} (hk : e.kind = .gather a) :
    unmapEvents (mappingsOf m e) = (List.range e.nent.toNat).map fun i =>
      .dmaUnmap (entryInMem m a.toNat i).1 (entryInMem m a.toNat i).2.toNat := by
  simp only [mappingsOf, hk, unmapEvents, List.map_map, Function.comp_def]

/-! ### The statements -/

/-- Settles O17: a legal queue's groups neither wrap nor leave the area. -/
theorem sgAcquireGroup : Obligations.SgAcquireGroup := by
  intro slot s hv hl hs
  have place := groupAddr_toNat hl hs
  have inside := (sgAddr_bounds hs).2
  refine ⟨groupAddr s.cfg slot, ?_, place, by omega⟩
  exact finish_of_ok (requireSlot_eq hv hs _) _

/-- Settles O18: the fill writes exactly the group, and what it writes reads back. -/
theorem sgFillWritesEntries : Obligations.SgFillWritesEntries := by
  intro slot es s hv hl hs hg hpos hmax
  obtain ⟨t, -, filled⟩ := sgFill_completes hv hl hs hg hpos hmax
  obtain ⟨state, written⟩ := sgFill_next filled
  have room := nrec_mul es.length
  refine ⟨t.mem, ?_, fun e he => written.entries e (by omega), fun e hlen he => ?_, written.outside⟩
  · rw [← state]
    exact finish_of_ok filled _
  · rw [written.entries e he, List.getD_eq_default _ _ hlen]

/-- Settles O19: the record lists the entry of its operands at the slot. -/
theorem pbRecordFree : Obligations.PbRecordFree := by
  intro slot a s hv hs ho hg
  refine ⟨sparsePut slot (entryOf s.cfg slot a) s.pb, ?_, fun other hne => sparseGet_put_ne hne _ _,
    entryOf s.cfg slot a, sparseGet_put_self _ _ _, rfl, rfl, rfl, rfl, ?_⟩
  · exact finish_of_ok (pbRecord_completes hv hs (recordOperandsOk_iff.mpr ho) hg) _
  · obtain ⟨ht, -⟩ | ⟨ht, hsg, -⟩ := ho
    · simp only [entryOf, ht, PbKind.tag, PbEntry.sgDma, and_self]
    · simp only [entryOf, ht, hsg, PbKind.tag, PbEntry.sgDma, and_self]

/-- Settles O20: the live entry stops the record. -/
theorem pbRecordLive : Obligations.PbRecordLive := by
  intro slot a s hv hs ho hg
  exact finish_of_raise (pbRecord_of_live hv hs (recordOperandsOk_iff.mpr ho) hg) _

/-- Settles O21: the mappings undone are those memory holds for the entry. -/
theorem pbReleaseLive : Obligations.PbReleaseLive := by
  intro slot e s hv hs hw he inside
  refine ⟨sparseDel slot s.pb, unmapEvents (mappingsOf s.mem e), ?_, sparseGet_del_self hw,
    fun other hne => sparseGet_del_ne hne _, unmapEvents_of_single, fun a => unmapEvents_of_gather⟩
  exact finish_of_ok (pbRelease_completes hv hs he inside) _

/-- Settles O22: the free slot stops the release. -/
theorem pbReleaseFree : Obligations.PbReleaseFree := by
  intro slot s hv hs hg
  exact finish_of_raise (pbRelease_of_free hv hs hg) _

/-- A group that ends inside the DMA space and holds an entry does not wrap, whatever the configuration. -/
theorem groupAddr_toNat_of_inside {c : Cfg} {slot k : Nat} (hk : 1 ≤ k) (inside : sgAddr c slot 0 + 40 * nrec k ≤ dmaSpace) :
    (groupAddr c slot).toNat = sgAddr c slot 0 := by
  have one := nrec_pos hk
  rw [groupAddr, BitVec.toNat_ofNat]
  exact Nat.mod_eq_of_lt (by simp only [dmaSpace] at inside; omega)

/-- The unmappings of an entry just recorded, in the terms of the operands. -/
theorem unmapEvents_entryOf {c : Cfg} {slot : Nat} {a : RecordArgs} {m : Memory}
    (ho : recordOperandsOk c slot a = true)
    (inside : a.type = .gather → sgAddr c slot 0 + 40 * nrec a.nent.toNat ≤ dmaSpace) :
    unmapEvents (mappingsOf m (entryOf c slot a)) = match a.type with
      | .single => [.dmaUnmap a.dma a.len.toNat]
      | .gather => (List.range a.nent.toNat).map fun i =>
          .dmaUnmap (entryInMem m (sgAddr c slot 0) i).1 (entryInMem m (sgAddr c slot 0) i).2.toNat := by
  obtain ⟨ht, -⟩ | ⟨ht, -, hpos⟩ := recordOperandsOk_iff.mp ho
  · rw [unmapEvents_of_single (by simp only [entryOf, ht]), ht]
    rfl
  · rw [unmapEvents_of_gather (a := groupAddr c slot) (by simp only [entryOf, ht]),
      groupAddr_toNat_of_inside hpos (inside ht), ht]
    rfl

/-- The release of a slot that holds the entry of the operands just recorded. -/
theorem pbRelease_of_recorded {slot : Nat} {a : RecordArgs} {t : State} (hv : t.q.valid = true) (hs : slot < t.cfg.n)
    (ho : recordOperandsOk t.cfg slot a = true) (live : pbGet t slot = some (entryOf t.cfg slot a))
    (inside : a.type = .gather → sgAddr t.cfg slot 0 + 40 * nrec a.nent.toNat ≤ dmaSpace) :
    pbRelease slot t = .ok (a.handle, a.len, a.nent)
      ((t.withPb (sparseDel slot t.pb)).emitAll (releaseEvents t.mem (entryOf t.cfg slot a))) := by
  refine pbRelease_completes hv hs live fun g hk => ?_
  obtain ⟨ht, -⟩ | ⟨ht, -, hpos⟩ := recordOperandsOk_iff.mp ho
  · simp only [entryOf, ht, reduceCtorEq] at hk
  · simp only [entryOf, ht, PbKind.gather.injEq] at hk
    rw [← hk, groupAddr_toNat_of_inside hpos (inside ht)]
    exact inside ht

/-- Settles O23: the record lists the entry, the release finds it and takes it out again, which gives the table back. -/
theorem recordThenRelease : Obligations.RecordThenRelease := by
  intro slot a s t hw hg inside h
  obtain ⟨_, s1, recorded, rfl⟩ | ⟨_, s1, raised, rfl⟩ := Res.finish_next h
  case inr =>
    obtain ⟨-, -, live⟩ := pbRecord_raise raised
    simp [hg] at live
  obtain ⟨hv, hs, ho, -, hs1⟩ := pbRecord_ok recorded
  have hv' : (s1.withResult .done).q.valid = true := by rw [hs1]; exact hv
  have hc : (s1.withResult .done).cfg = s.cfg := by rw [hs1]; rfl
  have hpb : s1.pb = sparsePut slot (entryOf s.cfg slot a) s.pb := by rw [hs1]; rfl
  have live : pbGet (s1.withResult .done) slot = some (entryOf s.cfg slot a) := by
    rw [pbGet, State.withResult_pb, hpb, sparseGet_put_self]
  rw [← hc] at hs ho live inside
  have released := pbRelease_of_recorded hv' hs ho live inside
  refine ⟨finish_of_raise (pbRecord_of_live hv' hs ho (by rw [live]; rfl)) _, _, finish_of_ok released _, rfl, ?_, ?_, ?_⟩
  · change sparseDel slot s1.pb = s.pb
    rw [hpb, sparseDel_put hw hg]
  · change s1.trace ++ releaseEvents s1.mem (entryOf s1.cfg slot a) = _
    have unmaps := unmapEvents_entryOf (m := s1.mem) ho inside
    rw [releaseEvents, ← State.withResult_cfg s1 .done, unmaps, ← List.append_assoc, hs1]
    rfl
  · refine finish_of_raise (pbRelease_of_free ?_ ?_ ?_) _
    · exact hv'
    · exact hs
    · change sparseGet slot (sparseDel slot s1.pb) = none
      rw [hpb, sparseDel_put hw hg]
      exact hg

/-- Settles O24, one `require` line after the other. -/
theorem requireLinesRefused : Obligations.RequireLinesRefused := by
  intro slot es a desc force i s
  refine ⟨fun hi hv => ?_, fun hi hv hs => ?_, fun hv hs => ⟨fun hg => ?_, fun hg hlen => ?_, fun ho => ?_⟩⟩
  · simp only [List.mem_cons, List.not_mem_nil, or_false] at hi
    obtain rfl | rfl | rfl | rfl | rfl | rfl | rfl := hi <;>
      exact finish_requireValid_of_not hv _ _
  · simp only [List.mem_cons, List.not_mem_nil, or_false] at hi
    obtain rfl | rfl | rfl | rfl := hi <;>
      exact finish_of_refuse (requireSlot_of_out_of_range hv hs _) _
  · have tag : (pbTag s slot != .none) = true := by
      simp only [bne_iff_ne, ne_eq, pbTag_eq_none]
      intro free
      simp [free] at hg
    change (sgFill slot es s).finish _ = _
    rw [sgFill, requireSlot_eq hv hs, if_pos tag]
    rfl
  · have tag : (pbTag s slot != .none) = false := by simp [pbTag_eq_none.mpr hg]
    have count : (decide (es.length < 1) || decide (es.length > 4 * s.cfg.sgpp)) = true := by
      rcases hlen with rfl | hlen
      · rfl
      · simp [hlen]
    change (sgFill slot es s).finish _ = _
    rw [sgFill, requireSlot_eq hv hs, tag, if_neg Bool.false_ne_true, if_pos count]
    rfl
  · exact finish_of_refuse (pbRecord_of_operands hv hs (Bool.eq_false_iff.mpr (mt recordOperandsOk_iff.mp ho))) _

end Sys2Proof.Machine

/-! Proofs of the statements about posts, announcements and reclaims (43_ring.md). `postedState` and the count in flight carry
them: a post adds one to the count, a reclaim of `k` slots takes `k` away, and the ring is full when the count is `N - 1`. -/

namespace Sys2Proof.Machine

/-! ### The count in flight and the full ring (R17, R180) -/

theorem isFull_iff {s : State} : isFull s = true ↔ inflight s = s.cfg.n - 1 := by
  rw [isFull, beq_iff_eq]

theorem inflight_lt {s : State} (h : QueueInv s) : inflight s < s.cfg.n := by
  obtain ⟨⟨-, hn, -⟩, -, -⟩ := h
  exact idxDiff_lt (by omega) _ _

theorem inflight_lt_of_not_full {s : State} (h : QueueInv s) (hf : isFull s = false) : inflight s < s.cfg.n - 1 := by
  have bound := inflight_lt h
  have notFull : inflight s ≠ s.cfg.n - 1 := fun heq => by simp [isFull_iff.mpr heq] at hf
  omega

theorem ringState_eq_full {s : State} (h : QueueInv s) : ringState s = .full ↔ isFull s = true := by
  obtain ⟨⟨-, hn, -⟩, -, -⟩ := h
  rw [ringState]
  split
  · next empty => simp only [reduceCtorEq, isFull_iff, empty, false_iff]; omega
  · cases isFull s <;> simp

theorem ringState_eq_active {s : State} :
    ringState s = .active ↔ inflight s ≠ 0 ∧ isFull s = false := by
  rw [ringState]
  split
  · next empty => simp [empty]
  · next some => cases isFull s <;> simp [some]

theorem stopLevel_eq {s : State} (hv : s.q.valid = true) (h : QueueInv s) : stopLevel s = isFull s := by
  have full := ringState_eq_full h
  rw [stopLevel, hv, Bool.true_and]
  cases hf : isFull s <;> simp_all

/-- Posting stays inside the ring of a legal queue. -/
theorem slotAddr_le {c : Cfg} {slot : Nat} (hl : c.legal) (hs : slot < c.n) : slotAddr c slot + 64 ≤ dmaSpace :=
  (slotAddr_bounds hs).2.trans (ring_le hl)

/-! ### Posting (R185) -/

/-- What a successful post makes of the state: the descriptor stored, write index, fill count and posted counter one on, and
`Stop` when the ring is full now. -/
def postedState (desc : Bytes 64) (s : State) : State :=
  { s with
    q := { s.q with writeIndex := idxInc s.cfg.n s.q.writeIndex, fillCount := s.q.fillCount + 1 }
    ctr := { s.ctr with posted := s.ctr.posted + 1 }
    mem := storeBytes s.mem (slotAddr s.cfg s.q.writeIndex) desc.val
    trace := s.trace ++ if fillsRing s then [.stop] else [] }

theorem ringPost_of_room {desc : Bytes 64} {s : State} (hv : s.q.valid = true) (hf : isFull s = false)
    (inside : slotAddr s.cfg s.q.writeIndex + 64 ≤ dmaSpace) :
    ringPost desc s = .ok (s.q.writeIndex, fillsRing s) (postedState desc s) := by
  rw [ringPost_completes hv hf inside, postedState]
  cases fillsRing s
  · rw [if_neg Bool.false_ne_true, if_neg Bool.false_ne_true, List.append_nil]; rfl
  · rfl

theorem ringPost_of_full {desc : Bytes 64} {s : State} (hv : s.q.valid = true) (hf : isFull s = true) :
    ringPost desc s = .raise .queueFull s := by
  rw [ringPost, requireValid_of_valid hv, if_pos hf, raiseError]

/-- Every post that answers leaves `postedState`. -/
theorem ringPost_next {desc : Bytes 64} {s t : State} {r : Nat × Bool} (h : ringPost desc s = .ok r t) :
    s.q.valid = true ∧ isFull s = false ∧ slotAddr s.cfg s.q.writeIndex + 64 ≤ dmaSpace ∧
      r = (s.q.writeIndex, fillsRing s) ∧ t = postedState desc s := by
  obtain ⟨hv, hf, inside, -⟩ := ringPost_ok h
  rw [ringPost_of_room hv hf inside] at h
  cases h
  exact ⟨hv, hf, inside, rfl, rfl⟩

theorem inflight_postedState (desc : Bytes 64) {s : State} (h : QueueInv s) (hf : isFull s = false) :
    inflight (postedState desc s) = inflight s + 1 := by
  have room := inflight_lt_of_not_full h hf
  obtain ⟨-, ⟨hw, -, hfl, -⟩, -⟩ := h
  exact idxDiff_idxInc hw hfl room

theorem queueInv_postedState (desc : Bytes 64) {s : State} (h : QueueInv s) : QueueInv (postedState desc s) := by
  obtain ⟨hl, ⟨-, hd, hfl, heq⟩, ht⟩ := h
  have hn : 2 ≤ s.cfg.n := hl.2.1
  exact ⟨hl, ⟨idxInc_lt (by omega) _, hd, hfl, heq⟩, ht⟩

/-- As many posts as there is room for all succeed, and fill the ring by as many. -/
theorem postAll_completes {ds : List (Bytes 64)} {s : State} (hv : s.q.valid = true) (h : QueueInv s)
    (room : inflight s + ds.length ≤ s.cfg.n - 1) : ∃ t, postAll ds s = .ok () t ∧ t.q.valid = true ∧ t.cfg = s.cfg ∧
      inflight t = inflight s + ds.length ∧ t.ctr.posted = s.ctr.posted + BitVec.ofNat 64 ds.length ∧
      t.q.flushIndex = s.q.flushIndex := by
  induction ds generalizing s with
  | nil => exact ⟨s, rfl, hv, rfl, rfl, by simp, rfl⟩
  | cons d ds ih =>
    rw [List.length_cons] at room
    obtain ⟨hl, ⟨hw, -⟩, -⟩ := id h
    have hf : isFull s = false := Bool.eq_false_iff.mpr fun full => by
      rw [isFull_iff] at full
      omega
    have one := inflight_postedState d h hf
    obtain ⟨t, posts, valid, cfg, count, counter, flush⟩ := ih (s := postedState d s) hv (queueInv_postedState d h)
      (by rw [one]; change _ ≤ s.cfg.n - 1; omega)
    refine ⟨t, ?_, valid, cfg, by rw [count, one, List.length_cons]; omega, ?_, flush⟩
    · rw [postAll, ringPost_of_room hv hf (slotAddr_le hl hw), Res.bind, posts]
    · change _ = s.ctr.posted + 1 + _ at counter
      rw [counter, BitVec.add_assoc, List.length_cons]
      congr 1
      rw [Nat.add_comm, BitVec.ofNat_add]
      rfl

/-! ### Announcing (R190) -/

theorem announceDue_iff {force : Bool} {s : State} : announceDue force s = true ↔
    s.q.fillCount ≠ 0 ∧ (force = true ∨ s.cfg.fillThreshold ≤ s.q.fillCount.toNat) := by
  simp only [announceDue, Bool.and_eq_true, bne_iff_ne, Bool.or_eq_true, decide_eq_true_eq]

theorem ringAnnounce_of_due {force : Bool} {s : State} (hv : s.q.valid = true) (hd : announceDue force s = true) :
    ringAnnounce force s = .ok s.q.fillCount (writeDoorbell s) := by
  rw [ringAnnounce, requireValid_of_valid hv, if_pos hd]

theorem ringAnnounce_of_not_due {force : Bool} {s : State} (hv : s.q.valid = true) (hd : announceDue force s = false) :
    ringAnnounce force s = .ok 0 s := by
  rw [ringAnnounce, requireValid_of_valid hv, hd, if_neg Bool.false_ne_true]

/-- The host command `ANNOUNCE` is the forced announcement (R226). -/
theorem exec_announce_eq {i : Instr} {force : Bool} {s : State} (hi : i = .ringAnnounce force ∨ (i = .announce ∧ force = true))
    (hv : s.q.valid = true) : exec i s = (ringAnnounce force s).finish .announced := by
  obtain rfl | ⟨rfl, rfl⟩ := hi
  · rfl
  · exact congrArg (Res.finish _) (requireValid_of_valid hv _)

/-! ### Reclaiming (R195, R225) -/

/-- The host command `RECLAIM` is `RING_RECLAIM` (R225). -/
theorem exec_reclaim_eq {i : Instr} {s : State} (hi : i = .reclaim ∨ i = .ringReclaim) (hv : s.q.valid = true) :
    exec i s = (ringReclaim s).finish fun r => .reclaimed r.1 r.2 := by
  obtain rfl | rfl := hi
  · exact congrArg (Res.finish _) (requireValid_of_valid hv _)
  · rfl

/-- With the two rear indices equal, the slots to release are those the sample found consumed. -/
theorem todo_eq_sampleAdvance {s : State} (h : QueueInv s) :
    idxDiff s.cfg.n (sample s).q.deviceReadIndex s.q.flushIndex = sampleAdvance s ∧ sampleAdvance s ≤ inflight s := by
  have bound := inflight_lt h
  obtain ⟨-, ⟨hw, hd, hfl, heq⟩, -⟩ := h
  have clamp : sampleAdvance s ≤ inflight s := by
    rw [sampleAdvance, inflight, ← heq]
    exact Nat.min_le_right _ _
  refine ⟨?_, clamp⟩
  rw [sample_q, heq]
  exact idxDiff_idxAdd hfl (by omega)

/-- The three phases of a reclaim: sample, release, edge. -/
theorem ringReclaim_eq {s : State} (hv : s.q.valid = true) (h : QueueInv s) : ringReclaim s =
    (releaseSlots true (sampleAdvance s) (sample s)).bind fun _ s2 =>
      .ok (sampleAdvance s, !isFull s2) (restartPhase (isFull s) s2) := by
  rw [← (todo_eq_sampleAdvance h).1]
  exact requireValid_of_valid hv _

/-- The working registers after a reclaim: the count sampled, both rear indices on by what was released. -/
def reclaimedQ (s : State) : Queue :=
  { s.q with
    lastCount := s.dev.ic
    deviceReadIndex := idxAdd s.cfg.n s.q.flushIndex (sampleAdvance s)
    flushIndex := idxAdd s.cfg.n s.q.flushIndex (sampleAdvance s) }

/-- What a reclaim that answers leaves of the state: as many slots as the sample found consumed are released from the flush
index on, and `Restart` is signalled on the edge. -/
theorem ringReclaim_next {s t : State} {r : Nat × Bool} (h : ringReclaim s = .ok r t) (hq : QueueInv s) :
    ∃ s2, releaseSlots true (sampleAdvance s) (sample s) = .ok () s2 ∧ r = (sampleAdvance s, !isFull s2) ∧
      t = restartPhase (isFull s) s2 := by
  obtain ⟨-, s2, released, rfl, rfl⟩ := ringReclaim_ok h
  rw [(todo_eq_sampleAdvance hq).1] at released ⊢
  exact ⟨s2, released, rfl, rfl⟩

theorem releaseSlots_sample {s s2 : State} (h : releaseSlots true (sampleAdvance s) (sample s) = .ok () s2)
    (hq : QueueInv s) : s2.cfg = s.cfg ∧ s2.q = reclaimedQ s := by
  obtain ⟨hc, -, -, -, -, -, -, -, hq', -⟩ := releaseSlots_frame h
  obtain ⟨-, ⟨-, -, hfl, heq⟩, -⟩ := hq
  refine ⟨hc, (hq' hfl).trans ?_⟩
  simp only [sample_q, heq, sample_cfg, reclaimedQ]

/-- The edge phase moves the restart counter and the trace only. -/
theorem restartPhase_eq (wasFull : Bool) (s : State) : restartPhase wasFull s =
    { s with
      ctr := { s.ctr with restart := if wasFull && !isFull s then s.ctr.restart + 1 else s.ctr.restart }
      trace := s.trace ++ if wasFull && !isFull s then [.restart] else [] } := by
  rw [restartPhase]
  split
  · rfl
  · rw [List.append_nil]

theorem restartPhase_of_unchanged (s : State) : restartPhase (isFull s) s = s := by
  rw [restartPhase, Bool.and_not_self, if_neg Bool.false_ne_true]

@[simp] theorem inflight_restartPhase (wasFull : Bool) (s : State) : inflight (restartPhase wasFull s) = inflight s := by
  rw [restartPhase_eq]
  rfl

/-- A reclaim takes what it reports off the count in flight. -/
theorem inflight_of_reclaimedQ {s s2 : State} (h : QueueInv s) (hc : s2.cfg = s.cfg) (hq : s2.q = reclaimedQ s) :
    inflight s = inflight s2 + sampleAdvance s := by
  obtain ⟨-, clamp⟩ := todo_eq_sampleAdvance h
  obtain ⟨-, ⟨hw, -, hfl, -⟩, -⟩ := h
  have narrowed : inflight s2 = inflight s - sampleAdvance s := by
    rw [inflight, hq, hc]
    exact idxDiff_idxAdd_right hw hfl clamp
  omega

theorem length_entriesFrom {s : State} {start k : Nat}
    (live : ∀ slot ∈ slotsFrom s.cfg.n start k, (pbGet s slot).isSome = true) : (entriesFrom s start k).length = k := by
  rw [entriesFrom, List.length_filterMap_eq_countP, List.countP_eq_length.mpr live, slotsFrom, List.length_map,
    List.length_range]

/-- A reclaim whose consumed slots are live and sound completes. -/
theorem ringReclaim_completes {s : State} (hv : s.q.valid = true) (hw : s.pb.wf) (h : QueueInv s)
    (live : ∀ slot ∈ slotsFrom s.cfg.n s.q.flushIndex (sampleAdvance s),
      ∃ e, pbGet s slot = some e ∧ entrySound s.cfg slot e = true) :
    ∃ s2, ringReclaim s = .ok (sampleAdvance s, !isFull s2) (restartPhase (isFull s) s2) ∧
      releaseSlots true (sampleAdvance s) (sample s) = .ok () s2 ∧
      (∀ slot, pbGet s2 slot = if slot ∈ slotsFrom s.cfg.n s.q.flushIndex (sampleAdvance s) then none else pbGet s slot) ∧
      s2.trace = s.trace ++ (entriesFrom s s.q.flushIndex (sampleAdvance s)).flatMap (releaseEvents s.mem) ∧
      s2.ctr = (entriesFrom s s.q.flushIndex (sampleAdvance s)).foldl
        (fun c e => countCompletion e.len e.nent c) s.ctr := by
  have phases := ringReclaim_eq hv h
  obtain ⟨-, clamp⟩ := todo_eq_sampleAdvance h
  have bound := inflight_lt h
  obtain ⟨hl, ⟨-, -, hfl, -⟩, -⟩ := h
  obtain ⟨s2, released, table, trace, counters⟩ := releaseSlots_completes (counted := true) (k := sampleAdvance s)
    (s := sample s) hv hfl (by simp only [sample_cfg]; omega) hw fun slot hs => by
      obtain ⟨e, he, sound⟩ := live slot hs
      exact ⟨e, he, fun a hk => entrySound_gather hl (lt_of_mem_slotsFrom hfl hs) sound hk⟩
  refine ⟨s2, ?_, released, table, trace, counters⟩
  rw [phases, released]
  rfl

/-! ### The statements -/

/-- Settles O25: the bytes read back at the slot, and a store reaches nothing else. -/
theorem ringPostAccepted : Obligations.RingPostAccepted := by
  intro desc s hv hl hw hf
  refine ⟨_, finish_of_ok (ringPost_of_room hv hf (slotAddr_le hl hw)) _, ?_, fun a ha => ?_⟩
  · have back := readBytes_storeBytes_self s.mem (slotAddr s.cfg s.q.writeIndex) desc.val
    rwa [desc.property] at back
  · exact readByte_storeBytes_outside s.mem (by rw [desc.property]; exact ha)

/-- Settles O26: the full ring stops the post. -/
theorem ringPostFull : Obligations.RingPostFull :=
  fun _ _ hv hf => finish_of_raise (ringPost_of_full hv hf) _

theorem stopCount_append (a b : List Event) : stopCount (a ++ b) = stopCount a + stopCount b :=
  List.countP_append

/-- Settles O27: a post adds one to the count in flight, and the three forms of the signal are all `fillsRing`. -/
theorem postTransitions : Obligations.PostTransitions := by
  intro desc s t slot stop hinv h hr
  obtain ⟨_, _, posted, rfl⟩ | ⟨_, _, raised, rfl⟩ := Res.finish_next h
  case inr => obtain ⟨rfl, -, -⟩ := ringPost_raise raised; cases hr
  obtain ⟨hv, hf, -, rfl, rfl⟩ := ringPost_next posted
  cases hr
  obtain ⟨-, -, hq⟩ := hinv
  have hq := hq hv
  have hqt : QueueInv (postedState desc s) := queueInv_postedState desc hq
  have one := inflight_postedState desc hq hf
  have room := inflight_lt_of_not_full hq hf
  have full : isFull (postedState desc s) = true ↔ inflight s + 1 = s.cfg.n - 1 := by
    rw [isFull_iff, one]; rfl
  refine ⟨one, fun hs => ?_, ?_, ?_, ?_, ?_⟩
  · rw [(ringState_eq_full hq).mp hs] at hf
    cases hf
  · exact (ringState_eq_full hqt).trans full
  · refine ringState_eq_active.trans ?_
    change inflight (postedState desc s) ≠ 0 ∧ isFull (postedState desc s) = false ↔ _
    rw [← Bool.not_eq_true, full, one]
    omega
  · exact (stopLevel_eq (s := postedState desc s) hv hqt).symm
  · change stopCount (s.trace ++ if fillsRing s then [.stop] else []) = _
    rw [stopCount_append]
    cases fillsRing s <;> rfl

/-- Settles O28, the two cases of `announceDue`. -/
theorem announceRingsDoorbell : Obligations.AnnounceRingsDoorbell := by
  intro i force s hi hv
  refine ⟨fun hfill hwhen => ?_, fun hnot => ?_⟩
  · have due : announceDue force s = true := announceDue_iff.mpr ⟨hfill, hwhen⟩
    rw [exec_announce_eq hi hv, ringAnnounce_of_due hv due]
    rfl
  · have notDue : announceDue force s = false := Bool.eq_false_iff.mpr fun due => by
      obtain ⟨hfill, hwhen⟩ := announceDue_iff.mp due
      obtain hz | ⟨hforce, hless⟩ := hnot
      · exact hfill hz
      · rcases hwhen with hwhen | hwhen
        · rw [hforce] at hwhen; cases hwhen
        · omega
    rw [exec_announce_eq hi hv, ringAnnounce_of_not_due hv notDue]
    rfl

/-- Settles O29: the release loop on the consumed slots, after the sample and before the edge phase. -/
theorem reclaimReleasesConsumed : Obligations.ReclaimReleasesConsumed := by
  intro i s k hi hv hw hq hk live
  obtain rfl : k = sampleAdvance s := hk
  obtain ⟨s2, completes, released, table, trace, counters⟩ := ringReclaim_completes hv hw hq live
  obtain ⟨-, hmem, hdev, hport, hturns, hans, hdraws, -, -, -⟩ := releaseSlots_frame released
  have hparams := releaseSlots_params released
  obtain ⟨hc, hq'⟩ := releaseSlots_sample released hq
  have count := length_entriesFrom (s := s) (start := s.q.flushIndex) (k := sampleAdvance s) fun slot hs => by
    obtain ⟨e, he, -⟩ := live slot hs
    rw [he]; rfl
  rw [foldl_countCompletion, count] at counters
  refine ⟨_, (exec_reclaim_eq hi hv).trans (finish_of_ok completes _), ?_⟩
  simp only [isFull_withResult, isFull_restartPhase]
  rw [restartPhase_eq, counters, trace]
  exact ⟨hq', table, rfl, rfl, rfl, hmem, hc, hdev, hport, hturns, hans, hdraws, hparams⟩

/-- Settles O31: nothing consumed, so nothing is sampled, released or signalled. -/
theorem reclaimIdempotent : Obligations.ReclaimIdempotent := by
  intro s hv hq hc
  have idle : sampleAdvance s = 0 := by simp [sampleAdvance, regReadIC, hc]
  have same : sample s = s := by
    obtain ⟨-, ⟨-, hd, -⟩, -⟩ := hq
    rw [sample, idle, idxAdd_zero hd, regReadIC, hc]
  have nothing : ringReclaim s = .ok (0, !isFull s) s := by
    rw [ringReclaim_eq hv hq, idle, same, releaseSlots, Res.bind, restartPhase_of_unchanged]
  exact (exec_reclaim_eq (.inl rfl) hv).trans (finish_of_ok nothing _)

/-- Settles O33: what is released leaves the count in flight. -/
theorem reclaimFreesWhatItReports : Obligations.ReclaimFreesWhatItReports := by
  intro s t hinv h
  obtain ⟨-, -, hq⟩ := hinv
  obtain ⟨_, _, ended, rfl⟩ | ⟨_, _, raised, rfl⟩ := Res.finish_next h
  case inr => exact absurd (requireValid_raise raised).2 ringReclaim_not_raise
  obtain ⟨hv, ended⟩ := requireValid_ok ended
  have hq := hq hv
  obtain ⟨s2, released, rfl, rfl⟩ := ringReclaim_next ended hq
  obtain ⟨hc, hq'⟩ := releaseSlots_sample released hq
  have count := inflight_of_reclaimedQ hq hc hq'
  have bound := inflight_lt hq
  have same : inflight ((restartPhase (isFull s) s2).withResult (.reclaimed (sampleAdvance s) (!isFull s2))) =
      inflight s2 := inflight_restartPhase _ _
  have cfg : (restartPhase (isFull s) s2).cfg = s.cfg := by rw [← hc, restartPhase_eq]
  refine ⟨sampleAdvance s, ?_, by rw [same]; exact count, ?_⟩
  · rw [isFull_withResult, isFull_restartPhase]
    rfl
  · rw [headroom, headroom, same, State.withResult_cfg, cfg]
    omega

/-- Settles O34: the posts fill the room, so the next one meets a full ring. -/
theorem postsUntilFull : Obligations.PostsUntilFull := by
  intro s ds d hv hq hlen
  have bound := inflight_lt hq
  rw [headroom] at hlen
  obtain ⟨t, posts, valid, cfg, count, counter, flush⟩ := postAll_completes (ds := ds) hv hq (by omega)
  have full : isFull t = true := isFull_iff.mpr (by rw [count, cfg]; omega)
  exact ⟨t, posts, full, counter, flush, finish_of_raise (ringPost_of_full valid full) _⟩

end Sys2Proof.Machine

/-! Proofs of the controller statements (44_controller.md). `CREATE_QUEUE` and `TRANSMIT` first check in a fixed order; what
`TRANSMIT` does with a packet that passes is two lemmas, one for each form of packet, that give the whole next state. -/

namespace Sys2Proof.Machine

/-! ### The checks of `CREATE_QUEUE` (R210, R262) -/

/-- The capacities that pass are the powers of two from 2 to 2^31. -/
theorem capacity_passes_iff {n : Nat} : (!isPow2 n || decide (n < 2) || decide (n > 2147483648)) = false ↔
    ∃ k, n = 2 ^ k ∧ 1 ≤ k ∧ k ≤ 31 := by
  simp only [Bool.or_eq_false_iff, Bool.not_eq_false', decide_eq_false_iff_not, isPow2_iff, Nat.not_lt]
  constructor
  · rintro ⟨⟨⟨k, rfl⟩, low⟩, high⟩
    refine ⟨k, rfl, Nat.one_le_iff_ne_zero.mpr fun zero => ?_, ?_⟩
    · rw [zero] at low
      omega
    · exact (Nat.pow_le_pow_iff_right (by decide : 1 < 2)).mp (high.trans (by decide : 2147483648 ≤ 2 ^ 31))
  · rintro ⟨k, rfl, low, high⟩
    have two : 2 ^ 1 ≤ 2 ^ k := Nat.pow_le_pow_right (by decide) low
    have most : 2 ^ k ≤ 2 ^ 31 := Nat.pow_le_pow_right (by decide) high
    exact ⟨⟨⟨k, rfl⟩, by omega⟩, by omega⟩

theorem badBase_iff {capacity sgpp : Nat} {ringBase sgBase : Word} : badBase capacity sgpp ringBase sgBase = true ↔
    ringBase.toNat % 64 ≠ 0 ∨ sgBase.toNat % 8 ≠ 0 ∨ 2 ^ 64 < ringBase.toNat + 64 * capacity ∨
      2 ^ 64 < sgBase.toNat + 40 * sgpp * capacity := by
  simp only [badBase, Bool.or_eq_true, bne_iff_ne, decide_eq_true_eq, or_assoc, gt_iff_lt, dmaSpace, Nat.reducePow]

/-- The checks of the two regions, which come last. -/
def regionCheck (a : CreateArgs) : Except Result (Word × Word) :=
  match a.region with
  | .fail => .error (.mapping none)
  | .ok ringBase sgBase =>
    if badBase a.capacity (nrec a.maxFragments) ringBase sgBase then .error (.precondition .badBase)
    else .ok (ringBase, sgBase)

theorem regionCheck_of_fail {a : CreateArgs} (h : a.region = .fail) : regionCheck a = .error (.mapping none) := by
  rw [regionCheck, h]

theorem regionCheck_of_ok {a : CreateArgs} {ringBase sgBase : Word} (h : a.region = .ok ringBase sgBase) :
    regionCheck a = if badBase a.capacity (nrec a.maxFragments) ringBase sgBase then .error (.precondition .badBase)
      else .ok (ringBase, sgBase) := by
  rw [regionCheck, h]

/-- With a capacity that passes, the other checks decide. -/
theorem createCheck_of_capacity {a : CreateArgs} {k : Nat} (hk : a.capacity = 2 ^ k) (low : 1 ≤ k) (high : k ≤ 31) :
    createCheck a =
      if a.maxFragments < 1 ∨ 16383 < a.maxFragments then .error (.precondition .badMaxFragments)
      else if a.fillThreshold < 1 ∨ a.capacity - 1 < a.fillThreshold then .error (.precondition .badThreshold)
      else if 63 < a.pkind ∨ 63 < a.fsz then .error (.precondition .badTag)
      else regionCheck a := by
  have passes := capacity_passes_iff.mpr ⟨k, hk, low, high⟩
  rw [createCheck, passes, if_neg Bool.false_ne_true]
  simp only [Bool.or_eq_true, decide_eq_true_eq, gt_iff_lt]
  rfl

theorem exec_createQueue_of_error {a : CreateArgs} {s : State} {r : Result} (hv : s.q.valid = false)
    (h : createCheck a = .error r) : exec (.createQueue a) s = .next (s.withResult r) := by
  refine finish_of_raise ?_ _
  simp only [createQueue, hv, Bool.false_eq_true, if_false, h, raiseError]

theorem exec_createQueue_of_ok {a : CreateArgs} {s : State} {b : Word × Word} (hv : s.q.valid = false)
    (h : createCheck a = .ok b) :
    exec (.createQueue a) s = .next ((createState (cfgOf a b.1 b.2) s).withResult .done) := by
  refine finish_of_ok (a := ()) ?_ _
  simp only [createQueue, hv, Bool.false_eq_true, if_false, h]

/-! ### The checks of `TRANSMIT` (R212, R213) -/

theorem transmit_of_reason {frags : List Frag} {ol : Offload} {s : State} {reason : Reason} (hv : s.q.valid = true)
    (hp : txPrecondition s.params.offloadRule s.cfg frags ol = some reason) (h : Word) (last : Bool) :
    exec (.transmit h frags ol last) s = .next (s.withResult (.precondition reason)) := by
  refine finish_of_raise ?_ _
  simp only [transmit, requireValid_of_valid hv, hp, raiseError]

/-- The checks in their order, in the words of R212. -/
theorem txPrecondition_eq (rule : OffloadRule) (c : Cfg) (frags : List Frag) (ol : Offload) [Decidable (offloadAllowed rule ol)] :
    txPrecondition rule c frags ol =
      if frags = [] then some .noHead
      else if c.maxf < frags.length then some .tooManyFragments
      else if ¬offloadAllowed rule ol then some .invalidOffload
      else if 65535 < (frags.map Frag.len).sum then some .lengthOverflow
      else none := by
  simp only [txPrecondition, lengthOverflow_iff]
  simp only [List.length_eq_zero_iff, gt_iff_lt, Bool.not_eq_true', ← Bool.not_eq_true, offloadValid_iff, totalLen]
  congr

theorem txPrecondition_eq_none_iff {rule : OffloadRule} {c : Cfg} {frags : List Frag} {ol : Offload} :
    txPrecondition rule c frags ol = none ↔ admissible rule c frags ol := by
  classical
  refine ⟨fun h => ?_, txPrecondition_of_admissible⟩
  rw [txPrecondition_eq] at h
  split at h
  · cases h
  · next head =>
    split at h
    · cases h
    · next count =>
      split at h
      · cases h
      · next offload =>
        split at h
        · cases h
        · next total =>
          exact ⟨List.length_pos_iff.mpr head, by omega, not_not.mp offload, by omega⟩

/-! ### Mapping the fragments (R80, R215 step 3, R219) -/

/-- The first failure undoes the mappings made so far, the latest first, and counts one drop. -/
theorem mapFrags_of_failure {done : List Frag} {addrs : List Word} (f : Frag) (todo : List Frag)
    (rest : List (Option Word)) {made : List (Word × Nat)} {s : State} (hl : addrs.length = done.length)
    (ha : s.mapAnswers = addrs.map some ++ none :: rest) :
    mapFrags (done ++ f :: todo) made s = .raise (.mapping (some (made.length + done.length))) { s with
      ctr := { s.ctr with dropped := s.ctr.dropped + 1 }
      mapAnswers := rest
      trace := s.trace ++ mapEvents addrs done ++ [.dmaMap f.buf f.len none] ++
        ((addrs.zip done).reverse.map fun p => .dmaUnmap p.1 p.2.len) ++ unmapEvents made } := by
  induction done generalizing addrs made s with
  | nil =>
    obtain rfl : addrs = [] := List.length_eq_zero_iff.mp hl
    simp only [List.nil_append, mapFrags, dmaMap, ha, List.map_nil, raiseError]
    simp [countDrop, State.emitAll, State.withCtr, mapEvents]
  | cons g done ih =>
    cases addrs with
    | nil => cases hl
    | cons addr addrs =>
      simp only [List.cons_append, mapFrags, dmaMap, ha, List.map_cons]
      rw [ih (by simpa using hl) rfl]
      simp [mapEvents, unmapEvents]
      omega

/-- The answers a packet gets are the fixed ones, as far as they reach. -/
theorem mapFrags_answers {frags : List Frag} {made : List (Word × Nat)} {s t : State} {addrs : List Word}
    (h : mapFrags frags made s = .ok addrs t) :
    ∃ new, addrs = made.reverse.map Prod.fst ++ new ∧ s.mapAnswers.take frags.length <+: new.map some := by
  induction frags generalizing made s with
  | nil => cases h; exact ⟨[], by simp, by simp⟩
  | cons f fs ih =>
    simp only [mapFrags, dmaMap] at h
    split at h
    · next addr s1 hd =>
      obtain ⟨new, rfl, fixed⟩ := ih h
      refine ⟨addr :: new, by simp, ?_⟩
      split at hd
      · next a rest hans =>
        cases hd
        simpa [hans] using fixed
      · next hans => simp [hans]
    · cases h

/-- Everything the mapping of a packet can do when it succeeds: one address for each fragment, the fixed answers first; only
the answers and the trace move. -/
theorem mapFrags_next {frags : List Frag} {s t : State} {addrs : List Word} (h : mapFrags frags [] s = .ok addrs t) :
    addrs.length = frags.length ∧ s.mapAnswers.take frags.length <+: addrs.map some ∧ ∃ answers draws,
      t = { s with mapAnswers := answers, mapDraws := draws, trace := s.trace ++ mapEvents addrs frags } := by
  obtain ⟨new, answers, draws, len, hnew, rfl⟩ := mapFrags_ok h
  obtain ⟨new', hnew', fixed⟩ := mapFrags_answers h
  obtain rfl : addrs = new := by simpa using hnew
  obtain rfl : addrs = new' := by simpa using hnew'
  exact ⟨len, fixed, answers, draws, rfl⟩

/-! ### A packet committed (R215 steps 4 to 6) -/

/-- What the commitment of a packet makes of the state, given the memory it leaves and the entry it records. -/
def committedState (m : Memory) (e : PbEntry) (last : Bool) (s : State) : State :=
  { s with
    q := { s.q with
      writeIndex := idxInc s.cfg.n s.q.writeIndex
      fillCount := if ringsDoorbell s last then 0 else s.q.fillCount + 1 }
    ctr := { s.ctr with posted := s.ctr.posted + 1 }
    pb := sparsePut s.q.writeIndex e s.pb
    mem := m
    dev := if ringsDoorbell s last then doorbell (s.q.fillCount + 1) s.dev else s.dev
    trace := s.trace ++ (if fillsRing s then [.stop] else []) ++
      (if ringsDoorbell s last then [.doorbellWrite (s.q.fillCount + 1)] else []) }

theorem bind_of_ok {α β : Type} {x : Res α} {a : α} {s : State} (h : x = .ok a s) (k : α → State → Res β) :
    x.bind k = k a s := by
  rw [h]; rfl

theorem bind_of_raise {α β : Type} {x : Res α} {r : Result} {s : State} (h : x = .raise r s)
    (k : α → State → Res β) : x.bind k = .raise r s := by
  rw [h]; rfl

theorem bind_of_refuse {α β : Type} {x : Res α} {r : Refusal} (h : x = .refuse r)
    (k : α → State → Res β) : x.bind k = .refuse r := by
  rw [h]; rfl

/-- A committed packet is a post, a record and an announcement; the announcement is due exactly when `ringsDoorbell` says. -/
theorem ringAnnounce_committed {desc : Bytes 64} {e : PbEntry} {last : Bool} {s : State} (hv : s.q.valid = true) :
    ∃ c, ringAnnounce (forceAnnounce s.cfg last (fillsRing s))
        ((postedState desc s).withPb (sparsePut s.q.writeIndex e s.pb)) =
      .ok c (committedState (storeBytes s.mem (slotAddr s.cfg s.q.writeIndex) desc.val) e last s) := by
  have due : announceDue (forceAnnounce s.cfg last (fillsRing s))
      ((postedState desc s).withPb (sparsePut s.q.writeIndex e s.pb)) = ringsDoorbell s last := rfl
  rw [committedState]
  cases hr : ringsDoorbell s last with
  | true => exact ⟨_, ringAnnounce_of_due hv (due.trans hr)⟩
  | false =>
    refine ⟨0, (ringAnnounce_of_not_due
      (s := (postedState desc s).withPb (sparsePut s.q.writeIndex e s.pb)) hv (due.trans hr)).trans ?_⟩
    simp only [Bool.false_eq_true, if_false, List.append_nil]
    rfl

/-- The last three operations of `TRANSMIT`, once the form is chosen. -/
theorem commit_of_form {h : Word} {addrs : List Word} {frags : List Frag} {ol : Offload} {last : Bool} {s : State}
    {g : Memory} {form : TxForm} (chosen : chooseForm s.q.writeIndex addrs frags s = .ok form (s.withMem g))
    (hv : s.q.valid = true) (hl : s.cfg.legal) (hw : s.q.writeIndex < s.cfg.n) (hf : isFull s = false)
    (hg : pbGet s s.q.writeIndex = none)
    (ho : recordOperandsOk s.cfg s.q.writeIndex (recordArgsOf h addrs frags form) = true) :
    commitPacket h addrs frags ol last s = .ok (1 + form.used, fillsRing s) (committedState
      (storeBytes g (slotAddr s.cfg s.q.writeIndex)
        (descriptorOf s.cfg (totalLen frags) ol form.gsz form.gather form.dptr).val)
      (entryOf s.cfg s.q.writeIndex (recordArgsOf h addrs frags form)) last s) := by
  have posts := ringPost_of_room (desc := descriptorOf s.cfg (totalLen frags) ol form.gsz form.gather form.dptr)
    (s := s.withMem g) hv hf (slotAddr_le hl hw)
  have records := pbRecord_completes (a := recordArgsOf h addrs frags form)
    (s := postedState (descriptorOf s.cfg (totalLen frags) ol form.gsz form.gather form.dptr) (s.withMem g)) hv hw ho hg
  obtain ⟨c, announces⟩ := ringAnnounce_committed (s := s.withMem g) (last := last)
    (desc := descriptorOf s.cfg (totalLen frags) ol form.gsz form.gather form.dptr)
    (e := entryOf s.cfg s.q.writeIndex (recordArgsOf h addrs frags form)) hv
  rw [commitPacket, bind_of_ok chosen]
  refine (bind_of_ok (congrArg Res.cannotFail posts) _).trans ?_
  refine (bind_of_ok (congrArg Res.cannotFail records) _).trans ?_
  exact bind_of_ok announces _

/-- The entry and the memory of a packet of one fragment (R215, R221). -/
def singleEntry (h : Word) (addrs : List Word) (frags : List Frag) : PbEntry :=
  { kind := .single, handle := h, dma := addrs.headD 0, len := BitVec.ofNat 16 (totalLen frags), nent := 0 }

/-- The entry of a packet of several fragments, which names the record group of slot `slot` (R215, R221). -/
def gatherEntry (c : Cfg) (slot : Nat) (h : Word) (addrs : List Word) (frags : List Frag) : PbEntry :=
  { kind := .gather (groupAddr c slot), handle := h, dma := addrs.headD 0, len := BitVec.ofNat 16 (totalLen frags)
    nent := BitVec.ofNat 14 frags.length }

theorem commitPacket_of_single {h : Word} {addrs : List Word} {frags : List Frag} {ol : Offload} {last : Bool} {s : State}
    (hv : s.q.valid = true) (hl : s.cfg.legal) (hw : s.q.writeIndex < s.cfg.n) (hf : isFull s = false)
    (hg : pbGet s s.q.writeIndex = none) (one : frags.length = 1) :
    commitPacket h addrs frags ol last s = .ok (1, fillsRing s) (committedState
      (storeBytes s.mem (slotAddr s.cfg s.q.writeIndex) (descriptorOf s.cfg (totalLen frags) ol 0 0 (addrs.headD 0)).val)
      (singleEntry h addrs frags) last s) := by
  have chosen : chooseForm s.q.writeIndex addrs frags s = .ok
      { dptr := addrs.headD 0, gsz := 0, gather := 0, used := 0, type := .single, sg := none } (s.withMem s.mem) :=
    if_pos one
  exact commit_of_form chosen hv hl hw hf hg rfl

theorem buffersOf_length {addrs : List Word} {frags : List Frag} (h : addrs.length = frags.length) :
    (buffersOf addrs frags).length = frags.length := by
  rw [buffersOf, List.length_map, List.length_zip, h, Nat.min_self]

theorem toNat_ofNat_length {c : Cfg} (hl : c.legal) {k : Nat} (h : k ≤ c.maxf) : (BitVec.ofNat 14 k).toNat = k := by
  obtain ⟨-, -, -, -, hmax, -⟩ := hl
  rw [BitVec.toNat_ofNat]
  exact Nat.mod_eq_of_lt (by omega)

theorem commitPacket_of_several {h : Word} {addrs : List Word} {frags : List Frag} {ol : Offload} {last : Bool} {s : State}
    (hv : s.q.valid = true) (hl : s.cfg.legal) (hw : s.q.writeIndex < s.cfg.n) (hf : isFull s = false)
    (hg : pbGet s s.q.writeIndex = none) (several : 2 ≤ frags.length) (most : frags.length ≤ s.cfg.maxf)
    (ha : addrs.length = frags.length) :
    ∃ g, GroupWritten (sgAddr s.cfg s.q.writeIndex 0) (buffersOf addrs frags) s.mem g ∧
      commitPacket h addrs frags ol last s = .ok (1 + nrec frags.length, fillsRing s) (committedState
        (storeBytes g (slotAddr s.cfg s.q.writeIndex) (descriptorOf s.cfg (totalLen frags) ol
          (BitVec.ofNat 14 frags.length) 1 (groupAddr s.cfg s.q.writeIndex)).val)
        (gatherEntry s.cfg s.q.writeIndex h addrs frags) last s) := by
  have len := buffersOf_length ha
  have fits := most.trans (maxf_le hl)
  obtain ⟨t, -, filled⟩ := sgFill_completes (es := buffersOf addrs frags) hv hl hw hg (by omega) (by omega)
  obtain ⟨state, written⟩ := sgFill_next filled
  rw [state, len] at filled
  have acquired : sgAcquire s.q.writeIndex s = .ok (groupAddr s.cfg s.q.writeIndex, s.cfg.sgpp) s :=
    requireSlot_eq hv hw _
  have chosen : chooseForm s.q.writeIndex addrs frags s = .ok
      { dptr := groupAddr s.cfg s.q.writeIndex, gsz := BitVec.ofNat 14 frags.length, gather := 1
        used := nrec frags.length, type := .gather, sg := some (groupAddr s.cfg s.q.writeIndex) } (s.withMem t.mem) := by
    rw [chooseForm, if_neg (by omega), bind_of_ok acquired]
    exact bind_of_ok filled _
  refine ⟨t.mem, written, commit_of_form chosen hv hl hw hf hg (recordOperandsOk_iff.mpr (.inr ⟨rfl, rfl, ?_⟩))⟩
  change 1 ≤ (BitVec.ofNat 14 frags.length).toNat
  rw [toNat_ofNat_length hl most]
  omega

/-! ### `TRANSMIT` as a whole (R215) -/

/-- A packet that passes the checks on a ring with room is mapped, then committed. -/
theorem transmit_of_room {h : Word} {frags : List Frag} {ol : Offload} {last : Bool} {s : State} (hv : s.q.valid = true)
    (ha : admissible s.params.offloadRule s.cfg frags ol) (hf : isFull s = false) : transmit h frags ol last s =
      (mapFrags frags [] s).bind fun addrs s1 => commitPacket h addrs frags ol last s1 := by
  simp only [transmit, requireValid_of_valid hv, txPrecondition_of_admissible ha, hf, Bool.false_eq_true, if_false]

/-- With all answers fixed, the packet is committed on the state after its mappings. -/
theorem exec_transmit_of_fixed {h : Word} {frags : List Frag} {addrs : List Word} {rest : List (Option Word)} {ol : Offload}
    {last : Bool} {s : State} {m : Memory} {e : PbEntry} {used : Nat} (hv : s.q.valid = true)
    (ha : admissible s.params.offloadRule s.cfg frags ol) (hf : isFull s = false) (hlen : addrs.length = frags.length)
    (hans : s.mapAnswers = addrs.map some ++ rest)
    (committed : commitPacket h addrs frags ol last
        { s with mapAnswers := rest, trace := s.trace ++ mapEvents addrs frags } =
      .ok (1 + used, fillsRing s) (committedState m e last
        { s with mapAnswers := rest, trace := s.trace ++ mapEvents addrs frags })) :
    exec (.transmit h frags ol last) s = .next (acceptedState s m e (mapEvents addrs frags) rest last used) := by
  have mapped := mapFrags_fixed (done := []) hlen hans
  refine finish_of_ok ((transmit_of_room hv ha hf).trans ((bind_of_ok mapped _).trans committed)) _

/-- The entry and the memory that the acceptance of a packet leaves: one fragment in a single-buffer descriptor, several in a
record group that a gathered descriptor names (R215, R221). -/
def PacketWritten (s : State) (h : Word) (ol : Offload) (addrs : List Word) (frags : List Frag) (m : Memory) (e : PbEntry)
    (used : Nat) : Prop :=
  (frags.length = 1 ∧ used = 0 ∧ e = singleEntry h addrs frags ∧
    m = storeBytes s.mem (slotAddr s.cfg s.q.writeIndex)
      (descriptorOf s.cfg (totalLen frags) ol 0 0 (addrs.headD 0)).val) ∨
  (2 ≤ frags.length ∧ used = nrec frags.length ∧ e = gatherEntry s.cfg s.q.writeIndex h addrs frags ∧
    ∃ g, GroupWritten (sgAddr s.cfg s.q.writeIndex 0) (buffersOf addrs frags) s.mem g ∧
      m = storeBytes g (slotAddr s.cfg s.q.writeIndex) (descriptorOf s.cfg (totalLen frags) ol
        (BitVec.ofNat 14 frags.length) 1 (groupAddr s.cfg s.q.writeIndex)).val)

/-- An admissible packet on a legal queue with a free slot at the write index is committed. -/
theorem commitPacket_completes {rule : OffloadRule} {h : Word} {addrs : List Word} {frags : List Frag} {ol : Offload}
    {last : Bool} {s : State} (hv : s.q.valid = true) (hl : s.cfg.legal) (hw : s.q.writeIndex < s.cfg.n)
    (hf : isFull s = false) (hg : pbGet s s.q.writeIndex = none) (ha : admissible rule s.cfg frags ol)
    (hlen : addrs.length = frags.length) : ∃ m e used, PacketWritten s h ol addrs frags m e used ∧
      commitPacket h addrs frags ol last s = .ok (1 + used, fillsRing s) (committedState m e last s) := by
  obtain ⟨head, most, -, -⟩ := ha
  by_cases one : frags.length = 1
  · exact ⟨_, _, 0, .inl ⟨one, rfl, rfl, rfl⟩, commitPacket_of_single hv hl hw hf hg one⟩
  · obtain ⟨g, written, committed⟩ :=
      commitPacket_of_several (ol := ol) (last := last) (h := h) hv hl hw hf hg (by omega) most hlen
    exact ⟨_, _, _, .inr ⟨by omega, rfl, rfl, g, written, rfl⟩, committed⟩

theorem chooseForm_frame {slot : Nat} {addrs : List Word} {frags : List Frag} {s t : State} {form : TxForm}
    (h : chooseForm slot addrs frags s = .ok form t) : t = s.withMem t.mem := by
  obtain ⟨-, rfl, -⟩ | ⟨-, _, _, _, acquired, filled, -⟩ := chooseForm_ok h
  · rfl
  · obtain ⟨-, -, -, rfl⟩ := sgAcquire_ok acquired
    exact (sgFill_next filled).1

/-- A packet is committed only on a free slot. -/
theorem commitPacket_free {h : Word} {addrs : List Word} {frags : List Frag} {ol : Offload} {last : Bool} {s t : State}
    {r : Nat × Bool} (hc : commitPacket h addrs frags ol last s = .ok r t) : pbGet s s.q.writeIndex = none := by
  obtain ⟨form, s1, p, s2, s3, c, chosen, posted, recorded, -, -⟩ := commitPacket_ok hc
  obtain ⟨-, -, -, rfl, rfl⟩ := ringPost_next posted
  obtain ⟨-, -, -, free, -⟩ := pbRecord_ok recorded
  rw [chooseForm_frame chosen] at free
  exact free

/-- Everything that an accepted `TRANSMIT` of a sound queue does: the packet was admissible, the ring had room, the slot at
the write index was free; every fragment got an address, and the packet is committed. -/
theorem transmit_accepts {h : Word} {frags : List Frag} {ol : Offload} {last : Bool} {s t : State} {r : Nat × Bool}
    (hq : QueueInv s) (ht : transmit h frags ol last s = .ok r t) :
    s.q.valid = true ∧ admissible s.params.offloadRule s.cfg frags ol ∧ isFull s = false ∧
      pbGet s s.q.writeIndex = none ∧ ∃ addrs answers draws m e used, addrs.length = frags.length ∧
        s.mapAnswers.take frags.length <+: addrs.map some ∧ PacketWritten s h ol addrs frags m e used ∧
        r = (1 + used, fillsRing s) ∧ t = committedState m e last
          { s with mapAnswers := answers, mapDraws := draws, trace := s.trace ++ mapEvents addrs frags } := by
  obtain ⟨hv, checks, hf, addrs, s1, mapped, committed⟩ := transmit_ok ht
  have ha := txPrecondition_eq_none_iff.mp checks
  obtain ⟨hlen, fixed, answers, draws, rfl⟩ := mapFrags_next mapped
  have hg := commitPacket_free committed
  obtain ⟨hl, ⟨hw, -⟩, -⟩ := hq
  obtain ⟨m, e, used, written, completes⟩ := commitPacket_completes (h := h) (ol := ol) (last := last)
    (s := { s with mapAnswers := answers, mapDraws := draws, trace := s.trace ++ mapEvents addrs frags })
    hv hl hw hf hg ha hlen
  rw [completes] at committed
  cases committed
  exact ⟨hv, ha, hf, hg, addrs, answers, draws, m, e, used, hlen, fixed, written, rfl, rfl⟩

/-! ### The statements about creation -/

/-- Settles O36: the arguments pass every check, so the creation writes the initial state. -/
theorem createQueueInitialises : Obligations.CreateQueueInitialises := by
  intro a s ringBase sgBase k hv hk low high hm1 hm2 hf1 hf2 hp hz hr hb1 hb2 hb3 hb4
  have base : badBase a.capacity (nrec a.maxFragments) ringBase sgBase = false := Bool.eq_false_iff.mpr fun bad => by
    simp only [badBase_iff, nrec] at bad
    omega
  have check : createCheck a = .ok (ringBase, sgBase) := by
    rw [createCheck_of_capacity hk low high, if_neg (by omega), if_neg (by omega), if_neg (by omega),
      regionCheck_of_ok hr, base, if_neg Bool.false_ne_true]
  have empty : ringState ((createState (cfgOf a ringBase sgBase) s).withResult .done) = .empty :=
    if_pos (idxDiff_self (by change 0 < a.capacity; rw [hk]; exact Nat.two_pow_pos k))
  refine ⟨_, exec_createQueue_of_ok hv check, empty, ?_, rfl⟩
  rw [stopLevel, empty]
  exact Bool.and_false _

/-- Settles O37, check by check in the order of `createCheck_of_capacity`. -/
theorem createQueueErrors : Obligations.CreateQueueErrors := by
  intro a s hv
  refine ⟨fun hcap => exec_createQueue_of_error hv ?_, fun k hk low high => ?_⟩
  · have fails : (!isPow2 a.capacity || decide (a.capacity < 2) || decide (a.capacity > 2147483648)) = true := by
      by_contra passes
      obtain ⟨k, hk, low, high⟩ := capacity_passes_iff.mp (Bool.not_eq_true _ ▸ passes)
      exact hcap k low high hk
    rw [createCheck, if_pos fails]
  have check := createCheck_of_capacity hk low high
  refine ⟨fun hm => exec_createQueue_of_error hv (by rw [check, if_pos hm]), fun hm1 hm2 => ?_⟩
  rw [if_neg (by omega)] at check
  refine ⟨fun hf => exec_createQueue_of_error hv (by rw [check, if_pos hf]), fun hf1 hf2 => ?_⟩
  rw [if_neg (by omega)] at check
  refine ⟨fun ht => exec_createQueue_of_error hv (by rw [check, if_pos ht]), fun hp hz => ?_⟩
  rw [if_neg (by omega)] at check
  refine ⟨fun hr => exec_createQueue_of_error hv (by rw [check, regionCheck_of_fail hr]), fun ringBase sgBase hr hb => ?_⟩
  have bad : badBase a.capacity (nrec a.maxFragments) ringBase sgBase = true := badBase_iff.mpr hb
  exact exec_createQueue_of_error hv (by rw [check, regionCheck_of_ok hr, if_pos bad])

/-! ### The statements about `TRANSMIT` -/

/-- Settles O39: the checks in their order are `txPrecondition_eq`. -/
theorem transmitPreconditions : Obligations.TransmitPreconditions := by
  classical
  intro h frags ol last s hv
  have checks := txPrecondition_eq s.params.offloadRule s.cfg frags ol
  refine ⟨fun empty => ?_, fun some => ⟨fun many => ?_, fun few => ⟨fun bad => ?_, fun good long => ?_⟩⟩,
    txPrecondition_eq_none_iff⟩
  · exact transmit_of_reason hv (by rw [checks, if_pos empty]) h last
  · exact transmit_of_reason hv (by rw [checks, if_neg some, if_pos many]) h last
  · exact transmit_of_reason hv (by rw [checks, if_neg some, if_neg (by omega), if_pos bad]) h last
  · exact transmit_of_reason hv
      (by rw [checks, if_neg some, if_neg (by omega), if_neg (not_not.mpr good), if_pos long]) h last

/-- Settles O41: the mapping raises the error, and nothing after it runs. -/
theorem transmitMappingRollback : Obligations.TransmitMappingRollback := by
  intro h done f todo addrs rest ol last s hv ha hf hlen hans
  have fails := mapFrags_of_failure f todo rest (made := []) hlen hans
  simp only [List.length_nil, Nat.zero_add, unmapEvents, List.map_nil, List.append_nil] at fails
  exact finish_of_raise ((transmit_of_room hv ha hf).trans (bind_of_raise fails _)) _

/-- Settles O42, by `commitPacket_of_single` on the state after the mapping. -/
theorem transmitSingleAccepted : Obligations.TransmitSingleAccepted := by
  intro h f addr rest ol last s hv hl hw ha hf hg hans
  have committed := commitPacket_of_single (h := h) (addrs := [addr]) (frags := [f]) (ol := ol) (last := last)
    (s := { s with mapAnswers := rest, trace := s.trace ++ mapEvents [addr] [f] }) hv hl hw hf hg rfl
  exact exec_transmit_of_fixed (addrs := [addr]) hv ha hf rfl hans committed

/-- Settles O43, by `commitPacket_of_several` on the state after the mappings. -/
theorem transmitGatherAccepted : Obligations.TransmitGatherAccepted := by
  intro h frags addrs rest ol last s hv hl hw ha several hf hg hlen hans
  obtain ⟨-, most, -⟩ := id ha
  obtain ⟨g, written, committed⟩ := commitPacket_of_several (h := h) (ol := ol) (last := last)
    (s := { s with mapAnswers := rest, trace := s.trace ++ mapEvents addrs frags }) hv hl hw hf hg several most hlen
  have len := buffersOf_length hlen
  have room := nrec_mul frags.length
  have entries := written.entries
  have outside := written.outside
  rw [len] at entries outside
  refine ⟨g, fun e he => entries e (by omega), fun e hout he => ?_, outside,
    exec_transmit_of_fixed hv ha hf hlen hans committed⟩
  rw [entries e he, List.getD_eq_default _ _ (by omega)]

/-! ### The statements about `STATS`, `DESTROY_QUEUE` and a table out of step -/

/-- Settles O44. -/
theorem statsSnapshot : Obligations.StatsSnapshot :=
  fun _ hv => finish_of_ok (requireValid_of_valid hv _) _

/-- Settles O45: the release loop on every slot in flight, without counting, then the last lines of the command. -/
theorem destroyReleasesAll : Obligations.DestroyReleasesAll := by
  intro s hv hw hq live
  have bound := inflight_lt hq
  obtain ⟨hl, ⟨hwi, -, hfl, -⟩, -⟩ := hq
  obtain ⟨s1, released, table, trace, counters⟩ := releaseSlots_completes (counted := false) hv hfl bound.le hw
    fun slot hs => by
      obtain ⟨e, he, sound⟩ := live slot hs
      exact ⟨e, he, fun a hk => entrySound_gather hl (lt_of_mem_slotsFrom hfl hs) sound hk⟩
  obtain ⟨hc, hmem, hdev, hport, hturns, hans, hdraws, -, hq', -⟩ := releaseSlots_frame released
  have hparams := releaseSlots_params released
  have arrives : s1.q = { s.q with flushIndex := s.q.writeIndex } := by
    rw [hq' hfl, inflight, idxAdd_idxDiff hwi hfl]
  have ends : destroyQueue s = .ok () (destroyState s1) := by
    rw [destroyQueue, requireValid_of_valid hv]
    exact bind_of_ok released _
  refine ⟨_, finish_of_ok ends _, rfl, rfl, table, trace, counters, hmem, hdev, ?_⟩
  simp only [State.withResult_q, destroyState_q, arrives, true_and]
  exact ⟨hc, hport, hturns, hans, hdraws, hparams⟩

/-- The release loop stops at a slot whose entry is free (entry 16). -/
theorem releaseSlots_of_free {counted : Bool} {k : Nat} {s : State} (hk : k ≠ 0) (hv : s.q.valid = true)
    (hs : s.q.flushIndex < s.cfg.n) (hg : pbGet s s.q.flushIndex = none) :
    releaseSlots counted k s = .refuse .pendingTableMismatch := by
  obtain ⟨k, rfl⟩ := Nat.exists_eq_succ_of_ne_zero hk
  rw [releaseSlots, pbRelease_of_free hv hs hg]
  rfl

/-- A packet of one fragment whose slot is live is refused at the record, after its post (entry 16). -/
theorem commitPacket_of_live {h : Word} {addrs : List Word} {frags : List Frag} {ol : Offload} {last : Bool} {s : State}
    (hv : s.q.valid = true) (hl : s.cfg.legal) (hw : s.q.writeIndex < s.cfg.n) (hf : isFull s = false)
    (hg : (pbGet s s.q.writeIndex).isSome = true) (one : frags.length = 1) :
    commitPacket h addrs frags ol last s = .refuse .pendingTableMismatch := by
  have posts := ringPost_of_room (desc := descriptorOf s.cfg (totalLen frags) ol 0 0 (addrs.headD 0)) hv hf
    (slotAddr_le hl hw)
  have records := pbRecord_of_live (slot := s.q.writeIndex)
    (a := { handle := h, dma := addrs.headD 0, sg := none, type := .single, len := BitVec.ofNat 16 (totalLen frags), nent := 0 })
    (s := postedState (descriptorOf s.cfg (totalLen frags) ol 0 0 (addrs.headD 0)) s) hv hw rfl hg
  rw [commitPacket, chooseForm, if_pos one]
  refine (bind_of_ok (congrArg Res.cannotFail posts) _).trans ?_
  exact bind_of_refuse (congrArg Res.cannotFail records) _

/-- Settles O30: the first slot that the loop comes to is free; the slot that `TRANSMIT` records is live. -/
theorem tableMismatchRefused : Obligations.TableMismatchRefused := by
  intro i h f addr rest ol last s hv hq
  obtain ⟨hl, ⟨hwi, hd, hfl, heq⟩, -⟩ := id hq
  refine ⟨fun hi hic some hg => ?_, fun some hg => ?_, fun ha hf hg hans => ?_⟩
  · have count : (s.dev.ic - s.q.lastCount).toNat ≠ 0 := fun hzero => by
      apply hic
      bv_omega
    have consumed : sampleAdvance s ≠ 0 := by
      rw [inflight, ← heq] at some
      rw [sampleAdvance, regReadIC]
      omega
    refine (exec_reclaim_eq hi hv).trans (finish_of_refuse ?_ _)
    rw [ringReclaim_eq hv hq]
    exact bind_of_refuse (releaseSlots_of_free (s := sample s) consumed hv hfl hg) _
  · refine finish_of_refuse ?_ _
    rw [destroyQueue, requireValid_of_valid hv]
    exact bind_of_refuse (releaseSlots_of_free some hv hfl hg) _
  · refine finish_of_refuse ((transmit_of_room hv ha hf).trans
      ((bind_of_ok (mapFrags_fixed (addrs := [addr]) (done := []) rfl hans) _).trans ?_)) _
    exact commitPacket_of_live hv hl hwi hf hg rfl

end Sys2Proof.Machine

/-! Everything an instruction can do, said once. `Effect` lists the next states that an instruction can lead to on a queue that
is sound if it is live; the invariants are then proved effect by effect, without opening an operation again. -/

namespace Sys2Proof.Machine

/-! ### Events of the mapping collaborator (R80, R81) -/

/-- A request to the mapping collaborator, or the undoing of a mapping. -/
def isMapping : Event → Bool
  | .dmaMap _ _ _ => true
  | .dmaUnmap _ _ => true
  | .handleReturn _ => false
  | .doorbellWrite _ => false
  | .stop => false
  | .restart => false
  | .txPacket _ _ _ _ _ _ => false

theorem isMapping_of_mem_mapEvents {addrs : List Word} {frags : List Frag} {e : Event} (h : e ∈ mapEvents addrs frags) :
    isMapping e = true := by
  simp only [mapEvents, List.mem_map] at h
  obtain ⟨_, -, rfl⟩ := h
  rfl

theorem isMapping_of_mem_unmapEvents {ms : List (Word × Nat)} {e : Event} (h : e ∈ unmapEvents ms) :
    isMapping e = true := by
  simp only [unmapEvents, List.mem_map] at h
  obtain ⟨_, -, rfl⟩ := h
  rfl

/-- A packet that does not map leaves mapping events and one more drop (R219). -/
theorem mapFrags_raise_events {frags : List Frag} {made : List (Word × Nat)} {s t : State} {r : Result}
    (h : mapFrags frags made s = .raise r t) : ∃ i es answers draws, r = .mapping (some i) ∧
      (∀ e ∈ es, isMapping e = true) ∧
      t = countDrop false { s with mapAnswers := answers, mapDraws := draws, trace := s.trace ++ es } := by
  induction frags generalizing made s with
  | nil => cases h
  | cons f fs ih =>
    simp only [mapFrags] at h
    split at h
    · next addr s1 hd =>
      obtain ⟨_, _, rfl⟩ := dmaMap_eq hd
      obtain ⟨i, es, answers, draws, hr, maps, rfl⟩ := ih h
      refine ⟨i, .dmaMap f.buf f.len (some addr) :: es, answers, draws, hr, ?_, by simp⟩
      exact List.forall_mem_cons.mpr ⟨rfl, maps⟩
    · next s1 hd =>
      obtain ⟨answers, draws, rfl⟩ := dmaMap_eq hd
      cases h
      refine ⟨made.length, .dmaMap f.buf f.len none :: unmapEvents made, answers, draws, rfl, ?_, ?_⟩
      · exact List.forall_mem_cons.mpr ⟨rfl, fun e => isMapping_of_mem_unmapEvents⟩
      · simp [State.emitAll]

/-! ### The effects -/

/-- The next states an instruction can lead to. -/
inductive Effect : Instr → State → State → Prop
  /-- a codec operation, a snapshot, or an error before any change: only the result -/
  | kept {i : Instr} {s : State} {r : Result} (other : ∀ used stop, r ≠ .accepted used stop) : Effect i s (s.withResult r)
  /-- `CREATE_QUEUE` -/
  | created {a : CreateArgs} {s : State} {c : Cfg} (hv : s.q.valid = false) (hl : c.legal) :
      Effect (.createQueue a) s ((createState c s).withResult .done)
  /-- a packet dropped: counted, after mappings made and undone -/
  | dropped {i : Instr} {s : State} {r : Result} {busy : Bool} {es : List Event} {answers : List (Option Word)} {draws : Nat}
      (hv : s.q.valid = true) (other : ∀ used stop, r ≠ .accepted used stop) (maps : ∀ e ∈ es, isMapping e = true) :
      Effect i s ((countDrop busy { s with mapAnswers := answers, mapDraws := draws, trace := s.trace ++ es }).withResult r)
  /-- a packet accepted -/
  | accepted {h : Word} {frags : List Frag} {ol : Offload} {last : Bool} {s : State} {addrs : List Word}
      {answers : List (Option Word)} {draws : Nat} {m : Memory} {e : PbEntry} {used : Nat} (hv : s.q.valid = true)
      (ha : admissible s.params.offloadRule s.cfg frags ol) (hf : isFull s = false)
      (free : pbGet s s.q.writeIndex = none) (hlen : addrs.length = frags.length)
      (written : PacketWritten s h ol addrs frags m e used) :
      Effect (.transmit h frags ol last) s ((committedState m e last
        { s with mapAnswers := answers, mapDraws := draws, trace := s.trace ++ mapEvents addrs frags }).withResult
          (.accepted (1 + used) (fillsRing s)))
  /-- the doorbell written -/
  | announced {i : Instr} {s : State} {r : Result} (hv : s.q.valid = true) (other : ∀ used stop, r ≠ .accepted used stop) :
      Effect i s ((writeDoorbell s).withResult r)
  /-- the consumed slots released -/
  | reclaimed {i : Instr} {s s2 : State} {r : Result} (hv : s.q.valid = true)
      (other : ∀ used stop, r ≠ .accepted used stop)
      (released : releaseSlots true (sampleAdvance s) (sample s) = .ok () s2) :
      Effect i s ((restartPhase (isFull s) s2).withResult r)
  /-- every slot released and the queue ended -/
  | destroyed {i : Instr} {s s1 : State} {r : Result} (hv : s.q.valid = true)
      (other : ∀ used stop, r ≠ .accepted used stop) (released : releaseSlots false (inflight s) s = .ok () s1) :
      Effect i s ((destroyState s1).withResult r)
  /-- `SG_FILL` -/
  | filled {slot : Nat} {es : List (Word × BitVec 16)} {s : State} {g : Memory} {r : Result} (hv : s.q.valid = true)
      (written : GroupWritten (sgAddr s.cfg slot 0) es s.mem g) : Effect (.sgFill slot es) s ((s.withMem g).withResult r)
  /-- `PB_RECORD` -/
  | recorded {slot : Nat} {a : RecordArgs} {s : State} {r : Result} (hv : s.q.valid = true) (hs : slot < s.cfg.n) :
      Effect (.pbRecord slot a) s ((s.withPb (sparsePut slot (entryOf s.cfg slot a) s.pb)).withResult r)
  /-- `PB_RELEASE` -/
  | freed {slot : Nat} {s : State} {e : PbEntry} {r : Result} (hv : s.q.valid = true) (he : pbGet s slot = some e) :
      Effect (.pbRelease slot) s
        (((s.withPb (sparseDel slot s.pb)).emitAll (releaseEvents s.mem e)).withResult r)
  /-- `RING_POST` -/
  | posted {desc : Bytes 64} {s : State} {r : Result} (hv : s.q.valid = true) (hf : isFull s = false)
      (inside : slotAddr s.cfg s.q.writeIndex + 64 ≤ dmaSpace) :
      Effect (.ringPost desc) s ((postedState desc s).withResult r)
  /-- `DEV_DOORBELL` -/
  | rung {count : BitVec 32} {s : State} : Effect (.devDoorbell count) s (s.withDev (doorbell count s.dev))
  /-- a descriptor consumed by the device -/
  | consumed {i : Instr} {s : State} {bufs : List (Word × BitVec 16)} {d : TxDesc} (device : isHostCommand i = false)
      (ha : s.dev.avail ≠ 0) :
      Effect i s ((s.emit (packetEvent s.dev.fetchIndex bufs d)).withDev (advanceDevice s.cfg.n s.dev))

/-! ### Every instruction has one of the effects -/

theorem createCheck_not_accepted {a : CreateArgs} {r : Result} (h : createCheck a = .error r) (used : Nat) (stop : Bool) :
    r ≠ .accepted used stop := by
  rintro rfl
  simp only [createCheck] at h
  repeat' split at h
  all_goals cases h

/-- An operation that ends with a value has an effect, and one that raises an error has one: so has the instruction. -/
theorem effect_of_finish {α : Type} {f : α → Result} {x : Res α} {i : Instr} {s t : State} (h : x.finish f = .next t)
    (hok : ∀ a u, x = .ok a u → Effect i s (u.withResult (f a)))
    (hraise : ∀ r u, x = .raise r u → Effect i s (u.withResult r)) : Effect i s t := by
  obtain ⟨a, u, hx, rfl⟩ | ⟨r, u, hx, rfl⟩ := Res.finish_next h
  · exact hok a u hx
  · exact hraise r u hx

theorem effect_of_ringAnnounce {i : Instr} {force : Bool} {s u : State} {c : BitVec 32}
    (h : ringAnnounce force s = .ok c u) : Effect i s (u.withResult (.announced c)) := by
  obtain ⟨hv, ⟨-, -, rfl⟩ | ⟨-, -, rfl⟩⟩ := ringAnnounce_ok h
  · exact .announced hv (by simp)
  · exact .kept (by simp)

theorem effect_of_ringReclaim {i : Instr} {s u : State} {r : Nat × Bool} (hq : s.q.valid = true → QueueInv s)
    (h : ringReclaim s = .ok r u) : Effect i s (u.withResult (.reclaimed r.1 r.2)) := by
  obtain ⟨hv, -⟩ := ringReclaim_ok h
  obtain ⟨s2, released, -, rfl⟩ := ringReclaim_next h (hq hv)
  exact .reclaimed hv (by simp) released

theorem effect_of_transmit {h : Word} {frags : List Frag} {ol : Offload} {last : Bool} {s t : State}
    (hq : s.q.valid = true → QueueInv s) (ht : exec (.transmit h frags ol last) s = .next t) :
    Effect (.transmit h frags ol last) s t := by
  refine effect_of_finish ht (fun r u hx => ?_) fun r u hx => ?_
  · obtain ⟨hv, -⟩ := transmit_ok hx
    obtain ⟨hv, ha, hf, free, addrs, answers, draws, m, e, used, hlen, -, written, rfl, rfl⟩ := transmit_accepts (hq hv) hx
    exact .accepted hv ha hf free hlen written
  · obtain ⟨hv, ⟨reason, -, rfl, rfl⟩ | ⟨-, -, rfl, rfl⟩ | ⟨-, -, unmapped | ⟨_, _, -, raised⟩⟩⟩ := transmit_raise hx
    · exact .kept (by simp)
    · have drop := Effect.dropped (i := .transmit h frags ol last) (r := .queueFull) (busy := true) (es := [])
        (answers := s.mapAnswers) (draws := s.mapDraws) hv (by simp) (by simp)
      rwa [List.append_nil] at drop
    · obtain ⟨k, es, answers, draws, rfl, maps, rfl⟩ := mapFrags_raise_events unmapped
      exact .dropped hv (by simp) maps
    · exact absurd raised commitPacket_not_raise

theorem effect_of_consumeDesc {i : Instr} {gather : Bool} {d : TxDesc} {s t : State} {u : Unit}
    (device : isHostCommand i = false) (h : consumeDesc gather d s = .ok u t) : Effect i s t := by
  obtain ⟨ha, -, -, -, bufs, -, rfl⟩ := consumeDesc_ok h
  exact .consumed device ha

theorem sgFill_not_raise {slot : Nat} {es : List (Word × BitVec 16)} {s t : State} {r : Result} :
    sgFill slot es s ≠ .raise r t := by
  intro h
  obtain ⟨-, -, h⟩ := requireSlot_raise h
  split at h
  · cases h
  · split at h
    · cases h
    · rcases Res.bind_raise h with h | ⟨_, _, _, h⟩
      · exact writeRecords_not_raise h
      · cases h

/-- Everything an instruction can do on a queue that is sound if it is live. -/
theorem exec_effect {i : Instr} {s t : State} (hq : s.q.valid = true → QueueInv s) (h : exec i s = .next t) :
    Effect i s t := by
  cases i with
  | createQueue a =>
    refine effect_of_finish h (fun _ u hx => ?_) fun r u hx => ?_
    · obtain ⟨hv, ringBase, sgBase, check, rfl⟩ := createQueue_ok hx
      exact .created hv (createCheck_legal check)
    · obtain ⟨-, check, rfl⟩ := createQueue_raise hx
      exact .kept (createCheck_not_accepted check)
  | transmit handle frags ol last => exact effect_of_transmit hq h
  | reclaim =>
    refine effect_of_finish h (fun r u hx => ?_) fun r u hx => ?_
    · exact effect_of_ringReclaim hq (requireValid_ok hx).2
    · exact absurd (requireValid_raise hx).2 ringReclaim_not_raise
  | announce =>
    refine effect_of_finish h (fun c u hx => ?_) fun r u hx => ?_
    · exact effect_of_ringAnnounce (requireValid_ok hx).2
    · exact absurd (requireValid_raise hx).2 ringAnnounce_not_raise
  | stats =>
    refine effect_of_finish h (fun c u hx => ?_) fun r u hx => ?_
    · cases (requireValid_ok hx).2; exact .kept (by simp)
    · cases (requireValid_raise hx).2
  | destroyQueue =>
    refine effect_of_finish h (fun c u hx => ?_) fun r u hx => absurd hx destroyQueue_not_raise
    obtain ⟨hv, s1, released, rfl⟩ := destroyQueue_ok hx
    exact .destroyed hv (by simp) released
  | sgAcquire slot =>
    refine effect_of_finish h (fun g u hx => ?_) fun r u hx => ?_
    · obtain ⟨-, -, -, rfl⟩ := sgAcquire_ok hx; exact .kept (by simp)
    · cases (requireSlot_raise hx).2.2
  | sgFill slot es =>
    refine effect_of_finish h (fun r u hx => ?_) fun r u hx => absurd hx sgFill_not_raise
    obtain ⟨hv, -⟩ := sgFill_ok hx
    obtain ⟨state, written⟩ := sgFill_next hx
    rw [state]
    exact .filled hv written
  | pbRecord slot a =>
    refine effect_of_finish h (fun _ u hx => ?_) fun r u hx => ?_
    · obtain ⟨hv, hs, -, -, rfl⟩ := pbRecord_ok hx; exact .recorded hv hs
    · obtain ⟨rfl, rfl, -⟩ := pbRecord_raise hx; exact .kept (by simp)
  | pbRelease slot =>
    refine effect_of_finish h (fun r u hx => ?_) fun r u hx => ?_
    · obtain ⟨hv, -, e, he, -, rfl⟩ := pbRelease_ok hx; exact .freed hv he
    · obtain ⟨rfl, rfl, -⟩ := pbRelease_raise hx; exact .kept (by simp)
  | ringPost desc =>
    refine effect_of_finish h (fun r u hx => ?_) fun r u hx => ?_
    · obtain ⟨hv, hf, inside, -, rfl⟩ := ringPost_next hx; exact .posted hv hf inside
    · obtain ⟨rfl, rfl, -⟩ := ringPost_raise hx; exact .kept (by simp)
  | ringAnnounce force =>
    exact effect_of_finish h (fun c u hx => effect_of_ringAnnounce hx) fun r u hx => absurd hx ringAnnounce_not_raise
  | ringReclaim =>
    exact effect_of_finish h (fun r u hx => effect_of_ringReclaim hq hx) fun r u hx => absurd hx ringReclaim_not_raise
  | devDoorbell count => cases h; exact .rung
  | devConsume =>
    obtain ⟨u, hx⟩ | ⟨r, hx⟩ := Res.finishDevice_next h
    · obtain ⟨_, -, hx⟩ := devConsume_ok hx
      exact effect_of_consumeDesc rfl hx
    · exact absurd hx devConsume_not_raise
  | txiSingle d | txiGather d =>
    obtain ⟨u, hx⟩ | ⟨r, hx⟩ := Res.finishDevice_next h
    · exact effect_of_consumeDesc rfl hx
    · exact absurd hx consumeDesc_not_raise
  | encIh _ | decIh _ | encTxm _ | decTxm _ _ | encSg _ | decSg _ | encInstr _ | decInstr _ =>
    cases h; exact .kept (by simp)

end Sys2Proof.Machine

/-! Proofs of the two invariants of every step: the ring invariant (R26, R199) and the stop discipline (R267). Each is proved
effect by effect; a step is an effect or moves only the turns or the device. -/

namespace Sys2Proof.Machine

/-! ### What the ring invariant speaks of -/

/-- The ring invariant speaks of configuration, working registers, table and memory only. -/
theorem ringInv_of_same {s t : State} (hc : t.cfg = s.cfg) (hq : t.q = s.q) (hp : t.pb = s.pb) (hm : t.mem = s.mem)
    (h : RingInv s) : RingInv t := by
  unfold RingInv QueueInv indicesOk tableInRange
  rw [hc, hq, hp, hm]
  exact h

/-- A live queue stays sound under new indices in order and a table that stays in the ring. -/
theorem queueInv_of_moved {s t : State} (hc : t.cfg = s.cfg) (hi : indicesOk t) (hp : ∀ p ∈ t.pb, p.1 < s.cfg.n)
    (h : QueueInv s) : QueueInv t := by
  obtain ⟨hl, -, -⟩ := h
  refine ⟨?_, hi, ?_⟩
  · rw [hc]; exact hl
  · rw [tableInRange, hc]; exact hp

theorem wf_storeDescriptor {m : Memory} {a : Nat} (hm : m.wf) (desc : Bytes 64) (inside : a + 64 ≤ dmaSpace) :
    (storeBytes m a desc.val).wf :=
  wf_storeBytes hm (by rw [desc.property]; exact inside)

theorem packetWritten_wf {s : State} {h : Word} {ol : Offload} {addrs : List Word} {frags : List Frag} {m : Memory}
    {e : PbEntry} {used : Nat} (hl : s.cfg.legal) (hw : s.q.writeIndex < s.cfg.n) (hm : s.mem.wf)
    (written : PacketWritten s h ol addrs frags m e used) : m.wf := by
  have inside := slotAddr_le hl hw
  unfold PacketWritten at written
  obtain ⟨-, -, -, stored⟩ | ⟨-, -, -, g, group, stored⟩ := written <;> rw [stored]
  · exact wf_storeDescriptor hm _ inside
  · exact wf_storeDescriptor (group.wf hm) _ inside

theorem forall_mem_sparsePut {n slot : Nat} {e : PbEntry} {l : PbTable} (hs : slot < n) (h : ∀ p ∈ l, p.1 < n) :
    ∀ p ∈ sparsePut slot e l, p.1 < n := by
  intro p hp
  rcases mem_sparsePut hp with rfl | hp
  · exact hs
  · exact h p hp

/-- The state after a reclaim keeps the ring invariant: the two rear indices moved together, entries only taken out. -/
theorem ringInv_reclaimed {s s2 : State} (hv : s.q.valid = true) (h : RingInv s)
    (released : releaseSlots true (sampleAdvance s) (sample s) = .ok () s2) : RingInv s2 := by
  obtain ⟨hm, hw, hq⟩ := h
  have hq := hq hv
  obtain ⟨hc, hq2⟩ := releaseSlots_sample released hq
  obtain ⟨-, hmem, -⟩ := releaseSlots_frame released
  obtain ⟨keepsWf, subset⟩ := releaseSlots_pb released
  refine ⟨by rw [hmem]; exact hm, keepsWf hw, fun _ => ?_⟩
  obtain ⟨⟨-, hn, -⟩, ⟨hwi, -, -, -⟩, ht⟩ := id hq
  have rear : idxAdd s.cfg.n s.q.flushIndex (sampleAdvance s) < s.cfg.n := idxAdd_lt (by omega) _ _
  refine queueInv_of_moved hc ?_ (fun p hp => ht p (subset p hp)) hq
  rw [indicesOk, hq2, hc]
  exact ⟨hwi, rear, rear, rfl⟩

/-- Every effect keeps the ring invariant. -/
theorem effect_keeps_ringInv {i : Instr} {s t : State} (h : RingInv s) (he : Effect i s t) : RingInv t := by
  cases he with
  | kept => exact ringInv_of_same rfl rfl rfl rfl h
  | created hv hl =>
    obtain ⟨hm, -, -⟩ := h
    have hn : 0 < _ := Nat.lt_of_lt_of_le Nat.zero_lt_two hl.2.1
    exact ⟨hm, List.Pairwise.nil, fun _ => ⟨hl, ⟨hn, hn, hn, rfl⟩, by simp⟩⟩
  | dropped => exact ringInv_of_same rfl rfl rfl rfl h
  | accepted hv ha hf free hlen written =>
    obtain ⟨hm, hw, hq⟩ := h
    obtain ⟨hl, ⟨hwi, hd, hfl, heq⟩, ht⟩ := id (hq hv)
    have hn : 2 ≤ s.cfg.n := hl.2.1
    refine ⟨packetWritten_wf hl hwi hm written, sparseWf_put hw _ _, fun _ => ?_⟩
    have front : idxInc s.cfg.n s.q.writeIndex < s.cfg.n := idxInc_lt (by omega) _
    exact queueInv_of_moved (s := s) rfl ⟨front, hd, hfl, heq⟩ (forall_mem_sparsePut hwi ht) (hq hv)
  | announced hv =>
    obtain ⟨hm, hw, hq⟩ := h
    exact ⟨hm, hw, fun _ => hq hv⟩
  | reclaimed hv other released =>
    refine ringInv_of_same ?_ ?_ ?_ ?_ (ringInv_reclaimed hv h released) <;> rw [restartPhase_eq] <;> rfl
  | destroyed hv other released =>
    obtain ⟨hm, hw, -⟩ := h
    obtain ⟨-, hmem, -⟩ := releaseSlots_frame released
    obtain ⟨keepsWf, -⟩ := releaseSlots_pb released
    exact ⟨by simpa [hmem] using hm, keepsWf hw, fun valid => by cases valid⟩
  | filled hv written =>
    obtain ⟨hm, hw, hq⟩ := h
    exact ⟨written.wf hm, hw, hq⟩
  | recorded hv hs =>
    obtain ⟨hm, hw, hq⟩ := h
    obtain ⟨-, hi, ht⟩ := id (hq hv)
    exact ⟨hm, sparseWf_put hw _ _, fun _ => queueInv_of_moved (s := s) rfl hi (forall_mem_sparsePut hs ht) (hq hv)⟩
  | freed hv =>
    obtain ⟨hm, hw, hq⟩ := h
    obtain ⟨-, hi, ht⟩ := id (hq hv)
    exact ⟨hm, sparseWf_del hw _, fun _ => queueInv_of_moved (s := s) rfl hi (fun p hp => ht p (mem_sparseDel hp)) (hq hv)⟩
  | @posted desc _ _ hv hf inside =>
    obtain ⟨hm, hw, hq⟩ := h
    exact ⟨wf_storeDescriptor hm desc inside, hw, fun _ => queueInv_postedState desc (hq hv)⟩
  | rung => exact ringInv_of_same rfl rfl rfl rfl h
  | consumed => exact ringInv_of_same rfl rfl rfl rfl h

/-- Every instruction keeps the ring invariant. -/
theorem exec_keeps_ringInv {i : Instr} {s t : State} (h : RingInv s) (he : exec i s = .next t) : RingInv t := by
  obtain ⟨-, -, hq⟩ := id h
  exact effect_keeps_ringInv h (exec_effect hq he)

/-- Settles O53: what a step adds to an instruction moves turns, port and device only. -/
theorem ringInvKept : Obligations.RingInvKept := by
  intro s t h hstep
  obtain ⟨ts, rfl⟩ | ⟨ts, ic, rfl⟩ | ⟨i, bs, ts, he⟩ := step_next hstep
  · exact h
  · exact ringInv_of_same rfl rfl rfl rfl h
  · exact exec_keeps_ringInv (s := (s.withTurns ts).withPort bs) h he

/-- Settles O54: memory and table are empty and no queue is live. -/
theorem ringInvAtReset : Obligations.RingInvAtReset :=
  ⟨⟨⟨List.Pairwise.nil, by simp [State.reset]⟩, List.Pairwise.nil, fun valid => by cases valid⟩, rfl⟩

/-! ### Stop and restart events of a trace (R267) -/

theorem stopBalance_append (a b : List Event) : stopBalance (a ++ b) = stopBalance a + stopBalance b := by
  simp only [stopBalance, stopCount_append, restartCount_append]
  omega

/-- Events that are neither `Stop` nor `Restart` do not move the balance. -/
theorem stopBalance_of_silent {es : List Event} (h : ∀ e ∈ es, e ≠ .stop ∧ e ≠ .restart) : stopBalance es = 0 := by
  have stops : stopCount es = 0 := List.countP_eq_zero.mpr fun e he => by simpa using (h e he).1
  have restarts : restartCount es = 0 := List.countP_eq_zero.mpr fun e he => by simpa using (h e he).2
  rw [stopBalance, stops, restarts]
  rfl

theorem stopBalance_of_maps {es : List Event} (h : ∀ e ∈ es, isMapping e = true) : stopBalance es = 0 := by
  refine stopBalance_of_silent fun e he => ⟨?_, ?_⟩ <;> rintro rfl <;> cases h _ he

theorem stopBalance_releaseEvents (m : Memory) (e : PbEntry) : stopBalance (releaseEvents m e) = 0 := by
  rw [releaseEvents, stopBalance_append, stopBalance_of_maps fun _ => isMapping_of_mem_unmapEvents]
  rfl

theorem releaseSlots_stopBalance {counted : Bool} {k : Nat} {s t : State} {u : Unit}
    (h : releaseSlots counted k s = .ok u t) : stopBalance t.trace = stopBalance s.trace := by
  induction k generalizing s with
  | zero => cases h; rfl
  | succ k ih =>
    obtain ⟨_, _, e, _, later⟩ := releaseSlots_ok h
    have first : (afterRelease counted e s).trace = s.trace ++ releaseEvents s.mem e := by cases counted <;> rfl
    rw [ih later, first, stopBalance_append, stopBalance_releaseEvents, Int.add_zero]

/-! ### The level and the balance over an effect -/

theorem stopNumber_eq {s : State} (hv : s.q.valid = true) (h : QueueInv s) :
    stopNumber s = if isFull s then 1 else 0 := by
  rw [stopNumber, stopLevel_eq hv h]

/-- What a step does to balance and level: they grow alike. -/
def StopsBalanced (s t : State) : Prop :=
  stopBalance t.trace - stopBalance s.trace = stopNumber t - stopNumber s

/-- Silent events and an unchanged ring are balanced. -/
theorem stopsBalanced_of_silent {s t : State} {es : List Event} (hc : t.cfg = s.cfg) (hv : t.q.valid = s.q.valid)
    (hw : t.q.writeIndex = s.q.writeIndex) (hf : t.q.flushIndex = s.q.flushIndex) (ht : t.trace = s.trace ++ es)
    (silent : stopBalance es = 0) : StopsBalanced s t := by
  have level : stopNumber t = stopNumber s := by
    unfold stopNumber stopLevel ringState isFull inflight
    rw [hc, hv, hw, hf]
  rw [StopsBalanced, ht, stopBalance_append, silent, level]
  omega

/-- A post, on a ring that was not full, is balanced by its own `Stop`. -/
theorem stopsBalanced_of_post {s t : State} {before after : List Event} (hv : s.q.valid = true) (hq : QueueInv s)
    (hvt : t.q.valid = true) (hqt : QueueInv t) (hf : isFull s = false) (hft : isFull t = fillsRing s)
    (ht : t.trace = s.trace ++ before ++ (if fillsRing s then [.stop] else []) ++ after)
    (silent : stopBalance before = 0 ∧ stopBalance after = 0) : StopsBalanced s t := by
  obtain ⟨silentBefore, silentAfter⟩ := silent
  rw [StopsBalanced, stopNumber_eq hv hq, stopNumber_eq hvt hqt, ht, hft, hf]
  simp only [stopBalance_append, silentBefore, silentAfter]
  cases fillsRing s
  · simp [stopBalance, stopCount, restartCount]
  · simp [stopBalance, stopCount, restartCount]

/-- A ring that was not full is not full after a reclaim, so the edge is the only change. -/
theorem stopsBalanced_of_reclaim {s s2 : State} (hv : s.q.valid = true) (hq : QueueInv s)
    (released : releaseSlots true (sampleAdvance s) (sample s) = .ok () s2) (hq2 : QueueInv s2) :
    StopsBalanced s (restartPhase (isFull s) s2) := by
  obtain ⟨hc, hq'⟩ := releaseSlots_sample released hq
  have hv2 : s2.q.valid = true := by rw [hq']; exact hv
  have count := inflight_of_reclaimedQ hq hc hq'
  have bound := inflight_lt hq
  have fewer : isFull s2 = true → isFull s = true := by
    simp only [isFull_iff, hc]
    omega
  have level : stopNumber (restartPhase (isFull s) s2) = if isFull s2 then 1 else 0 := by
    rw [← stopNumber_eq hv2 hq2, restartPhase_eq]
    rfl
  have balance : stopBalance s2.trace = stopBalance s.trace := releaseSlots_stopBalance (s := sample s) released
  rw [StopsBalanced, level, stopNumber_eq hv hq, restartPhase_eq, stopBalance_append, balance]
  cases before : isFull s <;> cases after : isFull s2 <;> simp_all [stopBalance, stopCount, restartCount]

/-- Every effect that keeps the queue live is balanced. -/
theorem effect_stopsBalanced {i : Instr} {s t : State} (h : RingInv s) (he : Effect i s t) (hv : s.q.valid = true)
    (hvt : t.q.valid = true) : StopsBalanced s t := by
  have ht := effect_keeps_ringInv h he
  obtain ⟨-, -, hq⟩ := id h
  have hq := hq hv
  obtain ⟨-, -, hqt⟩ := ht
  have hqt := hqt hvt
  cases he with
  | kept => exact stopsBalanced_of_silent (es := []) rfl rfl rfl rfl (by simp) rfl
  | created invalid => rw [hv] at invalid; cases invalid
  | dropped _ _ maps => exact stopsBalanced_of_silent rfl rfl rfl rfl rfl (stopBalance_of_maps maps)
  | accepted _ _ hf =>
    refine stopsBalanced_of_post hv hq hvt hqt hf rfl rfl
      ⟨stopBalance_of_maps fun _ => isMapping_of_mem_mapEvents, ?_⟩
    split <;> rfl
  | announced => exact stopsBalanced_of_silent rfl rfl rfl rfl rfl rfl
  | reclaimed _ _ released =>
    obtain ⟨-, hq2⟩ := releaseSlots_sample released hq
    obtain ⟨-, -, sound⟩ := ringInv_reclaimed hv h released
    exact stopsBalanced_of_reclaim hv hq released (sound (by rw [hq2]; exact hv))
  | destroyed => cases hvt
  | filled => exact stopsBalanced_of_silent (es := []) rfl rfl rfl rfl (by simp) rfl
  | recorded => exact stopsBalanced_of_silent (es := []) rfl rfl rfl rfl (by simp) rfl
  | freed => exact stopsBalanced_of_silent rfl rfl rfl rfl rfl (stopBalance_releaseEvents _ _)
  | posted _ hf =>
    exact stopsBalanced_of_post (before := []) (after := []) hv hq hvt hqt hf rfl (by simp [postedState]) ⟨rfl, rfl⟩
  | rung => exact stopsBalanced_of_silent (es := []) rfl rfl rfl rfl (by simp) rfl
  | consumed => exact stopsBalanced_of_silent rfl rfl rfl rfl rfl rfl

/-- Settles O35: a creation emits nothing and leaves an empty ring; every step that keeps the queue live is balanced. -/
theorem stopDiscipline : Obligations.StopDiscipline := by
  refine ⟨fun a s t h hv => ?_, fun s t h hstep hv hvt => ?_⟩
  · obtain ⟨_, u, created, rfl⟩ | ⟨r, u, raised, rfl⟩ := Res.finish_next h
    · obtain ⟨-, ringBase, sgBase, check, rfl⟩ := createQueue_ok created
      obtain ⟨-, hn, -⟩ := createCheck_legal check
      have empty : ringState ((createState (cfgOf a ringBase sgBase) s).withResult .done) = .empty :=
        if_pos (idxDiff_self (Nat.lt_of_lt_of_le Nat.zero_lt_two hn))
      exact ⟨rfl, by rw [stopNumber, stopLevel, empty]; rfl⟩
    · obtain ⟨invalid, -, rfl⟩ := createQueue_raise raised
      rw [State.withResult_q, invalid] at hv
      cases hv
  · obtain ⟨ts, rfl⟩ | ⟨ts, ic, rfl⟩ | ⟨i, bs, ts, he⟩ := step_next hstep
    · exact stopsBalanced_of_silent (es := []) rfl rfl rfl rfl (by simp) rfl
    · exact stopsBalanced_of_silent (es := []) rfl rfl rfl rfl (by simp) rfl
    · obtain ⟨-, -, hq⟩ := id h
      exact effect_stopsBalanced (s := (s.withTurns ts).withPort bs) h
        (exec_effect (s := (s.withTurns ts).withPort bs) hq he) hv hvt

end Sys2Proof.Machine

/-! Proofs about the contract of host and device (R45, R46, R241, R246, R302): effect by effect, like the ring invariant. -/

namespace Sys2Proof.Machine

/-! ### The device's side of the contract -/

/-- What the contract says of counts and position: the device's part, which does not speak of the table. -/
def DeviceSide (s : State) : Prop :=
  countOk s ∧ fetchOk s ∧ s.q.fillCount.toNat < s.cfg.fillThreshold ∧ s.dev.synced = true

theorem contract_iff {s : State} : Contract s ↔ ownershipOk s ∧ entriesOk s ∧ DeviceSide s := Iff.rfl

/-- Under the count bound a reclaim releases what the device has consumed: the clamp of R196 does not bite. -/
theorem sampleAdvance_of_countOk {s : State} (h : countOk s) : sampleAdvance s = consumedSinceSample s :=
  Nat.min_eq_left (show consumedSinceSample s ≤ _ by omega)

theorem toNat_add_one {c : BitVec 32} (h : c.toNat + 1 < 2 ^ 32) : (c + 1).toNat = c.toNat + 1 := by
  rw [BitVec.toNat_add]
  exact Nat.mod_eq_of_lt h

theorem toNat_zero_32 : (0 : BitVec 32).toNat = 0 := rfl

/-- The doorbell announces the fill count: what is announced or not yet announced stays the same in total. -/
theorem deviceSide_of_doorbell {s t : State} (hc : t.cfg = s.cfg) (hl : s.cfg.legal)
    (hq : t.q = { s.q with fillCount := 0 }) (hd : t.dev = doorbell s.q.fillCount s.dev) (h : DeviceSide s) : DeviceSide t := by
  obtain ⟨count, ⟨fetch, arrives⟩, -, synced⟩ := h
  obtain ⟨-, -, -, -, -, -, threshold, -⟩ := hl
  simp only [DeviceSide, countOk, fetchOk, consumedSinceSample, hc, hq, hd, doorbell, toNat_zero_32] at count ⊢
  exact ⟨by omega, ⟨fetch, arrives⟩, threshold, synced⟩

/-- One more descriptor, not yet announced: only the write index and the fill count move, both by one. -/
def unannounced (s : State) : State :=
  s.withQ { s.q with writeIndex := idxInc s.cfg.n s.q.writeIndex, fillCount := s.q.fillCount + 1 }

/-- The fill count does not wrap: it is below the threshold, which is below the ring size (R302, R203). -/
theorem fillCount_succ {s : State} (hl : s.cfg.legal) (fill : s.q.fillCount.toNat < s.cfg.fillThreshold) :
    (s.q.fillCount + 1).toNat = s.q.fillCount.toNat + 1 := by
  obtain ⟨-, -, size, -, -, -, -, threshold, -⟩ := hl
  exact toNat_add_one (by omega)

theorem count_unannounced {s : State} (hq : QueueInv s) (hf : isFull s = false) (h : DeviceSide s) :
    countOk (unannounced s) ∧ fetchOk (unannounced s) := by
  obtain ⟨count, ⟨fetch, arrives⟩, fill, -⟩ := h
  have room := inflight_lt_of_not_full hq hf
  obtain ⟨hl, ⟨hw, -, hfl, heq⟩, -⟩ := hq
  have succ := fillCount_succ hl fill
  simp only [countOk, fetchOk, unannounced, State.withQ, consumedSinceSample, heq, succ] at count ⊢
  rw [idxDiff_idxInc hw hfl room]
  exact ⟨by omega, fetch, by rw [← arrives, idxInc_idxAdd, Nat.add_assoc]⟩

/-- A packet committed: one more descriptor, announced with the others when the doorbell is due. -/
theorem deviceSide_committed (m : Memory) (e : PbEntry) (last : Bool) {s : State} (hq : QueueInv s) (hf : isFull s = false)
    (h : DeviceSide s) : DeviceSide (committedState m e last s) := by
  obtain ⟨count, fetch⟩ := count_unannounced hq hf h
  obtain ⟨-, -, fill, synced⟩ := h
  obtain ⟨hl, -, -⟩ := hq
  have succ := fillCount_succ hl fill
  obtain ⟨-, -, -, -, -, -, threshold, -⟩ := hl
  simp only [countOk, fetchOk, unannounced, State.withQ, consumedSinceSample, succ] at count fetch
  simp only [DeviceSide, countOk, fetchOk, committedState, consumedSinceSample]
  cases due : ringsDoorbell s last
  · have below : (s.q.fillCount + 1).toNat < s.cfg.fillThreshold := by
      by_contra reached
      have nonzero : s.q.fillCount + 1 ≠ 0 := fun zero => by rw [zero] at succ; simp at succ
      rw [ringsDoorbell, bne_iff_ne.mpr nonzero, decide_eq_true (Nat.not_lt.mp reached), Bool.or_true] at due
      cases due
    simp only [Bool.false_eq_true, if_false]
    rw [succ] at below ⊢
    exact ⟨count, fetch, below, synced⟩
  · simp only [if_true, doorbell, succ, toNat_zero_32, Nat.add_zero]
    obtain ⟨fetch, arrives⟩ := fetch
    exact ⟨by omega, ⟨fetch, arrives⟩, threshold, synced⟩

/-- A descriptor consumed: one announced fewer, one consumed more, the position one on. -/
theorem deviceSide_consumed {s t : State} (hl : s.cfg.legal) (hc : t.cfg = s.cfg) (hq : t.q = s.q)
    (hd : t.dev = advanceDevice s.cfg.n s.dev) (ha : s.dev.avail ≠ 0) (h : DeviceSide s) : DeviceSide t := by
  obtain ⟨count, ⟨fetch, arrives⟩, fill, synced⟩ := h
  obtain ⟨-, small, size, -⟩ := hl
  have bound := idxDiff_lt (show 0 < s.cfg.n by omega) s.q.writeIndex s.q.deviceReadIndex
  have more : (s.dev.ic + 1 - s.q.lastCount).toNat = (s.dev.ic - s.q.lastCount).toNat + 1 := by
    rw [show s.dev.ic + 1 - s.q.lastCount = (s.dev.ic - s.q.lastCount) + 1 by ring]
    simp only [countOk, consumedSinceSample] at count
    exact toNat_add_one (by omega)
  simp only [DeviceSide, countOk, fetchOk, consumedSinceSample, hc, hq, hd, advanceDevice, more] at count ⊢
  refine ⟨by omega, ⟨idxInc_lt (by omega) _, ?_⟩, fill, synced⟩
  rw [← idxAdd_one, idxAdd_add, ← arrives]
  congr 1
  omega

/-- A reclaim: the count sampled, the rear moved on by what was consumed. -/
theorem deviceSide_reclaimed {s t : State} (hi : QueueInv s) (hc : t.cfg = s.cfg) (hq : t.q = reclaimedQ s)
    (hd : t.dev = s.dev) (h : DeviceSide s) : DeviceSide t := by
  obtain ⟨count, fetch, fill, synced⟩ := h
  have advance := sampleAdvance_of_countOk count
  obtain ⟨-, clamp⟩ := todo_eq_sampleAdvance hi
  obtain ⟨-, ⟨hw, -, hfl, heq⟩, -⟩ := hi
  simp only [DeviceSide, countOk, fetchOk, consumedSinceSample, hc, hq, hd, heq, reclaimedQ, BitVec.sub_self,
    BitVec.toNat_ofNat, Nat.zero_mod] at count advance ⊢
  rw [idxDiff_idxAdd_right hw hfl clamp]
  exact ⟨by omega, fetch, fill, synced⟩

/-! ### The table's side -/

/-- The window with its first `k` slots left out. -/
theorem window_dropMany {n w f slot k : Nat} (hw : w < n) (hf : f < n) (hs : slot < n) (hk : k ≤ idxDiff n w f) :
    idxDiff n slot (idxAdd n f k) < idxDiff n w (idxAdd n f k) ↔ k ≤ idxDiff n slot f ∧ idxDiff n slot f < idxDiff n w f := by
  rw [idxDiff_idxAdd_right hw hf hk]
  by_cases inside : k ≤ idxDiff n slot f
  · rw [idxDiff_idxAdd_right hs hf inside]
    omega
  · have bound := idxDiff_lt (show 0 < n by omega) w f
    have wraps : idxDiff n slot (idxAdd n f k) = idxDiff n slot f + n - k := by
      rw [idxDiff_eq hs (idxAdd_lt (by omega) f k), idxAdd_eq hf (by omega), idxDiff_eq hs hf] at *
      split at inside <;> split <;> split <;> omega
    omega

/-- A live entry of the contract is sound. -/
theorem live_of_owned {s : State} (ho : ownershipOk s) (he : entriesOk s) {slot : Nat} (hs : slot < s.cfg.n)
    (hin : inWindow s.cfg.n slot s.q.flushIndex (inflight s)) : ∃ e, pbGet s slot = some e ∧ entrySound s.cfg slot e = true := by
  obtain ⟨e, get⟩ := Option.isSome_iff_exists.mp ((ho slot hs).mpr hin)
  exact ⟨e, get, he _ (sparseGet_mem get)⟩

/-- The oldest slots in flight are live and sound: what the release loops ask for. -/
theorem live_of_oldest {s : State} (hq : QueueInv s) (ho : ownershipOk s) (he : entriesOk s) {k : Nat} (hk : k ≤ inflight s) :
    ∀ slot ∈ slotsFrom s.cfg.n s.q.flushIndex k, ∃ e, pbGet s slot = some e ∧ entrySound s.cfg slot e = true := by
  intro slot mem
  have bound := inflight_lt hq
  obtain ⟨-, ⟨-, -, hfl, -⟩, -⟩ := hq
  have hs := lt_of_mem_slotsFrom hfl mem
  have near := (mem_slotsFrom hfl (by omega) hs).mp mem
  exact live_of_owned ho he hs (by omega)

/-- The entry of an accepted packet is sound. -/
theorem entrySound_of_packetWritten {s : State} {h : Word} {ol : Offload} {addrs : List Word} {frags : List Frag} {m : Memory}
    {e : PbEntry} {used : Nat} (hl : s.cfg.legal) (most : frags.length ≤ s.cfg.maxf)
    (written : PacketWritten s h ol addrs frags m e used) : entrySound s.cfg s.q.writeIndex e = true := by
  unfold PacketWritten at written
  obtain ⟨-, -, rfl, -⟩ | ⟨several, -, rfl, -⟩ := written
  · rfl
  · simp only [entrySound, gatherEntry, toNat_ofNat_length hl most, beq_self_eq_true, Bool.true_and, Bool.and_eq_true,
      decide_eq_true_eq]
    exact ⟨several, most⟩

/-- A record at the write index, the indices moved on: ownership follows the window. -/
theorem ownershipOk_put {s t : State} {e : PbEntry} (hq : QueueInv s) (hf : isFull s = false) (ho : ownershipOk s)
    (hc : t.cfg = s.cfg) (hw : t.q.writeIndex = idxInc s.cfg.n s.q.writeIndex) (hfl : t.q.flushIndex = s.q.flushIndex)
    (hp : t.pb = sparsePut s.q.writeIndex e s.pb) : ownershipOk t := by
  have room := inflight_lt_of_not_full hq hf
  obtain ⟨-, ⟨hwi, -, hfi, -⟩, -⟩ := hq
  intro slot hs
  rw [hc] at hs
  have owned := ho slot hs
  simp only [inWindow, inflight, pbGet, hc, hw, hfl, hp] at owned ⊢
  rw [window_idxInc hwi hfi hs room, sparseGet_put, ← owned]
  split <;> simp_all

theorem ownershipOk_reclaimed {s s2 : State} (hq : QueueInv s) (ho : ownershipOk s) (hc : s2.cfg = s.cfg)
    (hq2 : s2.q = reclaimedQ s) (table : ∀ slot, pbGet s2 slot =
      if slot ∈ slotsFrom s.cfg.n s.q.flushIndex (sampleAdvance s) then none else pbGet s slot) : ownershipOk s2 := by
  obtain ⟨-, clamp⟩ := todo_eq_sampleAdvance hq
  have bound := inflight_lt hq
  obtain ⟨-, ⟨hwi, -, hfi, -⟩, -⟩ := hq
  intro slot hs
  rw [hc] at hs
  have owned := ho slot hs
  simp only [inWindow, inflight, hc, hq2, reclaimedQ] at owned ⊢
  rw [window_dropMany hwi hfi hs clamp, ← owned, table]
  have near := mem_slotsFrom hfi (show sampleAdvance s < s.cfg.n by omega) hs
  by_cases gone : idxDiff s.cfg.n slot s.q.flushIndex < sampleAdvance s
  · rw [if_pos (near.mpr gone)]
    simp [Nat.not_le.mpr gone]
  · rw [if_neg (mt near.mp gone)]
    simp [Nat.not_lt.mp gone]

/-! ### The effects -/

/-- The contract speaks of configuration, working registers, table and device only. -/
theorem contract_of_same {s t : State} (hc : t.cfg = s.cfg) (hq : t.q = s.q) (hp : t.pb = s.pb) (hd : t.dev = s.dev)
    (h : Contract s) : Contract t := by
  unfold Contract ownershipOk entriesOk countOk fetchOk consumedSinceSample inflight pbGet
  rw [hc, hq, hp, hd]
  exact h

theorem contract_created {c : Cfg} {s : State} (hl : c.legal) (idle : deviceIdle s.dev = true) : Contract (createState c s) := by
  obtain ⟨-, small, -, -, -, -, threshold, -⟩ := hl
  have empty : idxDiff c.n 0 0 = 0 := idxDiff_self (by omega)
  obtain ⟨avail, fetch⟩ : s.dev.avail = 0 ∧ s.dev.fetchIndex = 0 := by simpa [deviceIdle] using idle
  refine contract_iff.mpr ⟨fun slot hs => ?_, by simp [createState], ?_, ?_, threshold, idle⟩
  · simp [createState, pbGet, sparseGet, inWindow, inflight, empty]
  · simp [countOk, createState, consumedSinceSample, regReadIC, avail, empty]
  · simp only [fetchOk, createState, fetch, avail]
    exact ⟨by omega, idxAdd_zero (by omega)⟩

/-- A reclaim keeps the contract: the release loop, which completes, is the one that ran. -/
theorem contract_reclaimed {s s2 : State} (hv : s.q.valid = true) (hw : s.pb.wf) (hq : QueueInv s) (h : Contract s)
    (released : releaseSlots true (sampleAdvance s) (sample s) = .ok () s2) : Contract s2 := by
  obtain ⟨ho, he, hd⟩ := contract_iff.mp h
  obtain ⟨-, clamp⟩ := todo_eq_sampleAdvance hq
  obtain ⟨s3, -, completes, table, -, -⟩ := ringReclaim_completes hv hw hq (live_of_oldest hq ho he clamp)
  rw [released] at completes
  obtain ⟨-, rfl⟩ := Res.ok.inj completes
  obtain ⟨hc, hq2⟩ := releaseSlots_sample released hq
  obtain ⟨-, -, hdev, -⟩ := releaseSlots_frame released
  obtain ⟨-, subset⟩ := releaseSlots_pb released
  refine contract_iff.mpr ⟨ownershipOk_reclaimed hq ho hc hq2 table, fun p hp => ?_, deviceSide_reclaimed hq hc hq2 hdev hd⟩
  rw [hc]
  exact he p (subset p hp)

/-- Every effect of a host command or of a device step keeps the contract. -/
theorem effect_keeps_contract {i : Instr} {s t : State} (h : ContractInv s) (driven : isHostCommand i = true ∨ i = .devConsume)
    (creation : meetsCreationContract i s = true) (he : Effect i s t) (hvt : t.q.valid = true) : Contract t := by
  obtain ⟨⟨-, hw, hq⟩, contract⟩ := h
  cases he with
  | kept => exact contract_of_same rfl rfl rfl rfl (contract hvt)
  | created invalid hl => exact contract_of_same rfl rfl rfl rfl (contract_created hl creation)
  | dropped => exact contract_of_same rfl rfl rfl rfl (contract hvt)
  | @accepted _ _ _ last _ _ _ _ m e _ hv ha hf free hlen written =>
    have sound := hq hv
    obtain ⟨ho, entries, hd⟩ := contract_iff.mp (contract hv)
    obtain ⟨hl, -, -⟩ := id sound
    obtain ⟨-, most, -⟩ := ha
    refine contract_iff.mpr ⟨ownershipOk_put sound hf ho rfl rfl rfl rfl, fun p hp => ?_, deviceSide_committed m e last sound hf hd⟩
    rcases mem_sparsePut hp with rfl | old
    · exact entrySound_of_packetWritten hl most written
    · exact entries p old
  | announced hv =>
    obtain ⟨ho, he, hd⟩ := contract_iff.mp (contract hv)
    obtain ⟨hl, -, -⟩ := hq hv
    exact contract_iff.mpr ⟨ho, he, deviceSide_of_doorbell (s := s) rfl hl rfl rfl hd⟩
  | reclaimed hv other released =>
    refine contract_of_same ?_ ?_ ?_ ?_ (contract_reclaimed hv hw (hq hv) (contract hv) released) <;>
      rw [restartPhase_eq] <;> rfl
  | destroyed => cases hvt
  | filled | recorded | freed | posted | rung => simp [isHostCommand] at driven
  | consumed _ ha =>
    obtain ⟨ho, he, hd⟩ := contract_iff.mp (contract hvt)
    obtain ⟨hl, -, -⟩ := hq hvt
    exact contract_iff.mpr ⟨ho, he, deviceSide_consumed hl rfl rfl rfl ha hd⟩

/-- Settles O55. -/
theorem contractKept : Obligations.ContractKept := by
  intro i s t h driven creation he
  obtain ⟨ring, -⟩ := id h
  obtain ⟨-, -, hq⟩ := id ring
  exact ⟨exec_keeps_ringInv ring he, effect_keeps_contract h driven creation (exec_effect hq he)⟩

end Sys2Proof.Machine

/-! The proof about the regions that the device may own (R72, R73): only an accepted packet writes memory, and only the region
of the slot at the write index, which the device cannot own yet. -/

namespace Sys2Proof.Machine

/-- The regions of two slots share no byte, when descriptors and records are apart. -/
theorem not_inSlotRegion_of_ne {c : Cfg} {i j a : Nat} (apart : regionsDisjoint c) (hi : i < c.n) (hj : j < c.n) (h : i ≠ j)
    (ha : inSlotRegion c i a) : ¬ inSlotRegion c j a := by
  have descriptors := slotAddr_apart (c := c) h
  have groups := sgAddr_apart (c := c) h
  have ringI := slotAddr_bounds hi
  have ringJ := slotAddr_bounds hj
  have areaI := sgAddr_bounds hi
  have areaJ := sgAddr_bounds hj
  simp only [inSlotRegion, regionsDisjoint] at *
  omega

/-- A record group fits its slot's part of the scatter-gather area. -/
theorem records_fit {c : Cfg} (hl : c.legal) {k : Nat} (most : k ≤ c.maxf) : nrec k ≤ c.sgpp :=
  nrec_le_of_le (most.trans (maxf_le hl))

/-- An accepted packet writes no byte outside the region of its slot. -/
theorem packetWritten_outside {s : State} {h : Word} {ol : Offload} {addrs : List Word} {frags : List Frag} {m : Memory}
    {e : PbEntry} {used a : Nat} (hl : s.cfg.legal) (most : frags.length ≤ s.cfg.maxf) (hlen : addrs.length = frags.length)
    (written : PacketWritten s h ol addrs frags m e used) (ha : ¬ inSlotRegion s.cfg s.q.writeIndex a) :
    readByte m a = readByte s.mem a := by
  have fit := records_fit hl most
  simp only [inSlotRegion] at ha
  have stored : ∀ (g : Memory) (desc : Bytes 64),
      readByte (storeBytes g (slotAddr s.cfg s.q.writeIndex) desc.val) a = readByte g a := fun g desc =>
    readByte_storeBytes_outside g (by rw [desc.property]; omega)
  unfold PacketWritten at written
  obtain ⟨-, -, -, memory⟩ | ⟨-, -, -, g, group, memory⟩ := written <;> rw [memory, stored]
  · exact group.outside a (by rw [buffersOf_length hlen]; omega)

/-- The slot at the write index is not one that the device may own. -/
theorem ne_writeIndex_of_mayOwn {s : State} {slot : Nat} (own : mayOwn s slot) : slot ≠ s.q.writeIndex := by
  rintro rfl
  exact front_not_in_window own

/-- Settles O57. -/
theorem ownedRegionsUntouched : Obligations.OwnedRegionsUntouched := by
  intro i s t slot a h hv apart driven he hs own region
  obtain ⟨⟨-, -, hq⟩, -⟩ := h
  cases exec_effect hq he with
  | kept => rfl
  | created => rfl
  | dropped => rfl
  | accepted _ ha _ _ hlen written =>
    obtain ⟨hl, ⟨hw, -⟩, -⟩ := hq hv
    obtain ⟨-, most, -⟩ := ha
    exact packetWritten_outside hl most hlen written
      (not_inSlotRegion_of_ne apart hs hw (ne_writeIndex_of_mayOwn own) region)
  | announced => rfl
  | reclaimed _ _ released =>
    obtain ⟨-, hmem, -⟩ := releaseSlots_frame released
    rw [restartPhase_eq]
    exact congrArg (readByte · a) hmem
  | destroyed _ _ released =>
    obtain ⟨-, hmem, -⟩ := releaseSlots_frame released
    exact congrArg (readByte · a) hmem
  | filled | recorded | freed | posted | rung => simp [isHostCommand] at driven
  | consumed => rfl

end Sys2Proof.Machine

/-! The proof of handle conservation (R172): handles given back and handles held, counted together, effect by effect. -/

namespace Sys2Proof.Machine

/-! ### A table with an entry more or an entry fewer -/

section Table
variable {α : Type}

theorem sparsePut_perm {k : Nat} {l : List (Nat × α)} (free : sparseGet k l = none) (v : α) :
    (sparsePut k v l).Perm ((k, v) :: l) := by
  induction l with
  | nil => exact .refl _
  | cons p l ih =>
    obtain ⟨k', v'⟩ := p
    simp only [sparseGet] at free
    simp only [sparsePut]
    split at free
    · cases free
    · next differ =>
      split
      · exact .refl _
      · exact ((ih free).cons _).trans (.swap _ _ _)

theorem perm_sparseDel {k : Nat} {v : α} {l : List (Nat × α)} (live : sparseGet k l = some v) :
    l.Perm ((k, v) :: sparseDel k l) := by
  induction l with
  | nil => cases live
  | cons p l ih =>
    obtain ⟨k', v'⟩ := p
    simp only [sparseGet] at live
    simp only [sparseDel]
    split at live
    · next same =>
      cases live
      rw [if_pos same, same]
    · next differ =>
      rw [if_neg differ]
      exact ((ih live).cons _).trans (.swap _ _ _)

end Table

/-! ### The handles of a trace -/

theorem returnedHandles_append (a b : List Event) : returnedHandles (a ++ b) = returnedHandles a ++ returnedHandles b :=
  List.filterMap_append ..

theorem returnedHandles_of_maps {es : List Event} (h : ∀ e ∈ es, isMapping e = true) : returnedHandles es = [] := by
  refine List.filterMap_eq_nil_iff.mpr fun e he => ?_
  cases e with
  | handleReturn => cases h _ he
  | _ => rfl

theorem returnedHandles_releaseEvents (m : Memory) (e : PbEntry) : returnedHandles (releaseEvents m e) = [e.handle] := by
  rw [releaseEvents, returnedHandles_append, returnedHandles_of_maps fun _ => isMapping_of_mem_unmapEvents]
  rfl

/-! ### Handles given back and held -/

/-- The handles accounted for: given back or held. -/
def accounted (s : State) : List Word := returnedHandles s.trace ++ heldHandles s

theorem accounted_of_silent {s t : State} (es : List Event) (ht : t.trace = s.trace ++ es) (hp : t.pb = s.pb)
    (silent : returnedHandles es = []) : (accounted t).Perm (accounted s) := by
  rw [accounted, heldHandles, ht, hp, returnedHandles_append, silent, List.append_nil]
  exact .refl _

/-- A release moves a handle from the table to the trace. -/
theorem accounted_of_release {s t : State} {slot : Nat} {e : PbEntry} (live : pbGet s slot = some e)
    (ht : t.trace = s.trace ++ releaseEvents s.mem e) (hp : t.pb = sparseDel slot s.pb) :
    (accounted t).Perm (accounted s) := by
  have held : (heldHandles s).Perm (e.handle :: heldHandles t) := by
    simp only [heldHandles, hp]
    exact (perm_sparseDel live).map _
  rw [accounted, accounted, ht, returnedHandles_append, returnedHandles_releaseEvents, List.append_assoc]
  exact held.symm.append_left _

theorem accounted_releaseSlots {counted : Bool} {k : Nat} {s t : State} {u : Unit}
    (h : releaseSlots counted k s = .ok u t) : (accounted t).Perm (accounted s) := by
  induction k generalizing s with
  | zero => cases h; exact .refl _
  | succ k ih =>
    obtain ⟨_, _, e, live, later⟩ := releaseSlots_ok h
    refine (ih later).trans (accounted_of_release live ?_ ?_) <;> cases counted <;> rfl

/-- A record takes a handle in. -/
theorem accounted_of_record {s t : State} {slot : Nat} {e : PbEntry} {es : List Event} (free : pbGet s slot = none)
    (ht : t.trace = s.trace ++ es) (hp : t.pb = sparsePut slot e s.pb) (silent : returnedHandles es = []) :
    (accounted t).Perm (e.handle :: accounted s) := by
  have held : (heldHandles t).Perm (e.handle :: heldHandles s) := by
    simp only [heldHandles, hp]
    exact (sparsePut_perm free e).map _
  rw [accounted, accounted, ht, returnedHandles_append, silent, List.append_nil]
  exact (held.append_left _).trans List.perm_middle

/-! ### The handles taken in -/

theorem takenHandles_of_other {i : Instr} {t : State} {r : Result} (other : ∀ used stop, r ≠ .accepted used stop)
    (hr : t.result = some r) : takenHandles i t = [] := by
  unfold takenHandles
  rw [hr]
  split
  · next accepted => exact absurd (Option.some.inj accepted) (other _ _)
  · rfl

theorem handle_of_packetWritten {s : State} {h : Word} {ol : Offload} {addrs : List Word} {frags : List Frag} {m : Memory}
    {e : PbEntry} {used : Nat} (written : PacketWritten s h ol addrs frags m e used) : e.handle = h := by
  unfold PacketWritten at written
  obtain ⟨-, -, entry, -⟩ | ⟨-, -, entry, -⟩ := written <;> rw [entry] <;> rfl

/-- The events of a committed packet give no handle back. -/
theorem returnedHandles_committed (addrs : List Word) (frags : List Frag) (stop rings : Bool) (count : BitVec 32) :
    returnedHandles (mapEvents addrs frags ++ (if stop then [.stop] else []) ++
      (if rings then [.doorbellWrite count] else [])) = [] := by
  rw [returnedHandles_append, returnedHandles_append, returnedHandles_of_maps fun _ => isMapping_of_mem_mapEvents]
  cases stop <;> cases rings <;> rfl

/-- A command that takes nothing in accounts for the same handles after it as before it. -/
theorem accounts_of_other {i : Instr} {s t : State} {r : Result} (other : ∀ used stop, r ≠ .accepted used stop)
    (hr : t.result = some r) (same : (accounted t).Perm (accounted s)) :
    (accounted t).Perm (takenHandles i t ++ accounted s) := by
  rw [takenHandles_of_other other hr]
  exact same

/-- Every effect of a command of a live queue or of a device step accounts for the handles it takes in. -/
theorem effect_accounts {i : Instr} {s t : State} (driven : isLiveCommand i = true ∨ i = .devConsume) (he : Effect i s t) :
    (accounted t).Perm (takenHandles i t ++ accounted s) := by
  cases he with
  | kept other => exact accounts_of_other other rfl (.refl _)
  | created => simp [isLiveCommand] at driven
  | dropped _ other maps => exact accounts_of_other other rfl (accounted_of_silent _ rfl rfl (returnedHandles_of_maps maps))
  | @accepted _ frags _ last _ addrs _ _ _ e _ _ _ _ free _ written =>
    have taken := handle_of_packetWritten written
    subst taken
    have silent := returnedHandles_committed addrs frags (fillsRing s) (ringsDoorbell s last) (s.q.fillCount + 1)
    refine accounted_of_record (e := e) free ?_ rfl silent
    simp only [committedState, State.withResult, List.append_assoc]
    rfl
  | announced _ other => exact accounts_of_other other rfl (accounted_of_silent [.doorbellWrite s.q.fillCount] rfl rfl rfl)
  | reclaimed _ other released =>
    refine accounts_of_other other rfl (.trans ?_ (accounted_releaseSlots (s := sample s) released))
    rw [restartPhase_eq]
    refine accounted_of_silent _ rfl rfl ?_
    split <;> rfl
  | @destroyed _ _ s1 _ _ other released =>
    have last : (accounted (destroyState s1)).Perm (accounted s1) := .refl _
    exact accounts_of_other other rfl (last.trans (accounted_releaseSlots released))
  | filled | recorded | freed | posted | rung => simp [isLiveCommand, isHostCommand] at driven
  | consumed device =>
    obtain live | rfl := driven
    · cases i <;> simp [isLiveCommand, isHostCommand] at live device
    · exact accounted_of_silent _ rfl rfl rfl

/-- Settles O58. -/
theorem handleConservation : Obligations.HandleConservation := by
  intro i s t h driven he
  obtain ⟨-, -, hq⟩ := h
  rw [List.append_assoc]
  exact effect_accounts driven (exec_effect hq he)

end Sys2Proof.Machine

/-! The proof that every host command of a queue under the contract completes, none with a table error (R175, R261, R311). -/

namespace Sys2Proof.Machine

/-- The command completes with an answer, and not with one of the two table errors. -/
def Answers (i : Instr) (s : State) (r : Result) : Prop :=
  ∃ t, exec i s = .next t ∧ t.result = some r ∧ ∀ slot, r ≠ .pbAlreadyInFlight slot ∧ r ≠ .pbNotInFlight slot

/-- The slot at the write index is outside the window, so its entry is free (R45). -/
theorem free_at_writeIndex {s : State} (hq : QueueInv s) (ho : ownershipOk s) : pbGet s s.q.writeIndex = none := by
  obtain ⟨-, ⟨hw, -⟩, -⟩ := hq
  exact Option.not_isSome_iff_eq_none.mp (mt (ho _ hw).mp front_not_in_window)

/-- An admissible packet is mapped and committed, or one of its mappings fails (R219). -/
theorem transmit_answers_of_room {h : Word} {frags : List Frag} {ol : Offload} {last : Bool} {s : State}
    (hv : s.q.valid = true) (hq : QueueInv s) (ho : ownershipOk s) (ha : admissible s.params.offloadRule s.cfg frags ol)
    (hf : isFull s = false) : ∃ r, Answers (.transmit h frags ol last) s r := by
  have phases := transmit_of_room (h := h) (last := last) hv ha hf
  obtain ⟨noFault, noRefusal⟩ := mapFrags_not_stop (fs := frags) (done := []) (s := s)
  cases mapped : mapFrags frags [] s with
  | fault f => exact absurd mapped (noFault f)
  | refuse r => exact absurd mapped (noRefusal r)
  | raise r t =>
    obtain ⟨i, -, -, -, rfl, -, -⟩ := mapFrags_raise_events mapped
    exact ⟨_, _, finish_of_raise (phases.trans (bind_of_raise mapped _)) _, rfl, by simp⟩
  | ok addrs s1 =>
    obtain ⟨hlen, -, answers, draws, rfl⟩ := mapFrags_next mapped
    have free := free_at_writeIndex hq ho
    obtain ⟨hl, ⟨hw, -⟩, -⟩ := hq
    obtain ⟨m, e, used, -, committed⟩ := commitPacket_completes (h := h) (ol := ol) (last := last)
      (s := { s with mapAnswers := answers, mapDraws := draws, trace := s.trace ++ mapEvents addrs frags })
      hv hl hw hf free ha hlen
    exact ⟨_, _, finish_of_ok (phases.trans ((bind_of_ok mapped _).trans committed)) _, rfl, by simp⟩

/-- `TRANSMIT` completes, with a packet accepted or with an error of its own. -/
theorem transmit_answers (h : Word) (frags : List Frag) (ol : Offload) (last : Bool) {s : State} (hv : s.q.valid = true)
    (hq : QueueInv s) (ho : ownershipOk s) : ∃ r, Answers (.transmit h frags ol last) s r := by
  cases checks : txPrecondition s.params.offloadRule s.cfg frags ol with
  | some reason => exact ⟨_, _, transmit_of_reason hv checks h last, rfl, by simp⟩
  | none =>
    cases hf : isFull s with
    | false => exact transmit_answers_of_room hv hq ho (txPrecondition_eq_none_iff.mp checks) hf
    | true =>
      have busy : transmit h frags ol last s = .raise .queueFull (countDrop true s) := by
        simp only [transmit, requireValid_of_valid hv, checks, hf, if_true, raiseError]
      exact ⟨_, _, finish_of_raise busy _, rfl, by simp⟩

theorem reclaim_answers {s : State} (hv : s.q.valid = true) (hw : s.pb.wf) (hq : QueueInv s) (ho : ownershipOk s)
    (he : entriesOk s) : ∃ r, Answers .reclaim s r ∧ resultCode r = some 0 := by
  obtain ⟨-, clamp⟩ := todo_eq_sampleAdvance hq
  obtain ⟨s2, completes, -⟩ := ringReclaim_completes hv hw hq (live_of_oldest hq ho he clamp)
  exact ⟨_, ⟨_, (exec_reclaim_eq (.inl rfl) hv).trans (finish_of_ok completes _), rfl, by simp⟩, rfl⟩

theorem announce_answers {s : State} (hv : s.q.valid = true) : ∃ r, Answers .announce s r ∧ resultCode r = some 0 := by
  have forced := exec_announce_eq (i := .announce) (.inr ⟨rfl, rfl⟩) hv
  cases due : announceDue true s with
  | true => exact ⟨_, ⟨_, forced.trans (finish_of_ok (ringAnnounce_of_due hv due) _), rfl, by simp⟩, rfl⟩
  | false => exact ⟨_, ⟨_, forced.trans (finish_of_ok (ringAnnounce_of_not_due hv due) _), rfl, by simp⟩, rfl⟩

theorem destroyQueue_answers {s : State} (hv : s.q.valid = true) (hw : s.pb.wf) (hq : QueueInv s) (ho : ownershipOk s)
    (he : entriesOk s) : ∃ r, Answers .destroyQueue s r ∧ resultCode r = some 0 := by
  obtain ⟨t, next, -⟩ := destroyReleasesAll s hv hw hq (live_of_oldest hq ho he (Nat.le_refl _))
  obtain ⟨_, u, -, rfl⟩ | ⟨_, _, raised, -⟩ := Res.finish_next next
  · exact ⟨.done, ⟨_, next, rfl, by simp⟩, rfl⟩
  · exact absurd raised destroyQueue_not_raise

/-- Settles O56. -/
theorem hostCommandsComplete : Obligations.HostCommandsComplete := by
  intro i s h hv live
  obtain ⟨⟨-, hw, hq⟩, contract⟩ := h
  have hq := hq hv
  obtain ⟨ho, he, -⟩ := contract_iff.mp (contract hv)
  have harmless : (∃ r, Answers i s r ∧ resultCode r = some 0) → ∃ t r, exec i s = .next t ∧ t.result = some r ∧
      (∀ slot, r ≠ .pbAlreadyInFlight slot ∧ r ≠ .pbNotInFlight slot) ∧
      ((∃ h frags ol last, i = .transmit h frags ol last) ∨ resultCode r = some 0) := by
    rintro ⟨r, ⟨t, next, answer, noTableError⟩, ok⟩
    exact ⟨t, r, next, answer, noTableError, .inr ok⟩
  cases i with
  | transmit h frags ol last =>
    obtain ⟨r, t, next, answer, noTableError⟩ := transmit_answers h frags ol last hv hq ho
    exact ⟨t, r, next, answer, noTableError, .inl ⟨h, frags, ol, last, rfl⟩⟩
  | reclaim => exact harmless (reclaim_answers hv hw hq ho he)
  | announce => exact harmless (announce_answers hv)
  | stats => exact harmless ⟨_, ⟨_, statsSnapshot s hv, rfl, by simp⟩, rfl⟩
  | destroyQueue => exact harmless (destroyQueue_answers hv hw hq ho he)
  | _ => simp [isLiveCommand, isHostCommand] at live

end Sys2Proof.Machine

/-! The proofs about what an accepted packet leaves for the device to read (R77, R109) and for its release to undo (R173). -/

namespace Sys2Proof.Machine

/-! ### An accepted `TRANSMIT` -/

/-- What an error of `TRANSMIT` answers is not an acceptance. -/
theorem transmit_raise_other {h : Word} {frags : List Frag} {ol : Offload} {last : Bool} {s t : State} {r : Result}
    (ht : transmit h frags ol last s = .raise r t) (used : Nat) (stop : Bool) : r ≠ .accepted used stop := by
  obtain ⟨-, ⟨_, -, rfl, -⟩ | ⟨-, -, rfl, -⟩ | ⟨-, -, unmapped | ⟨_, _, -, raised⟩⟩⟩ := transmit_raise ht
  · simp
  · simp
  · obtain ⟨_, _, _, _, rfl, -⟩ := mapFrags_raise_events unmapped
    simp
  · exact absurd raised commitPacket_not_raise

/-- What follows from the answer `Accepted`. -/
theorem transmit_of_accepted {h : Word} {frags : List Frag} {ol : Offload} {last : Bool} {s t : State} (ring : RingInv s)
    (ht : exec (.transmit h frags ol last) s = .next t) (answer : ∃ used stop, t.result = some (.accepted used stop)) :
    s.q.valid = true ∧ QueueInv s ∧ admissible s.params.offloadRule s.cfg frags ol ∧
      ∃ addrs more m e used, addrs.length = frags.length ∧ s.mapAnswers.take frags.length <+: addrs.map some ∧
        PacketWritten s h ol addrs frags m e used ∧ t.trace = s.trace ++ mapEvents addrs frags ++ more ∧
        t.cfg = s.cfg ∧ t.q.valid = true ∧ t.mem = m ∧ t.pb = sparsePut s.q.writeIndex e s.pb := by
  obtain ⟨-, -, hq⟩ := ring
  obtain ⟨r, u, accepted, rfl⟩ | ⟨r, u, raised, rfl⟩ := Res.finish_next ht
  · obtain ⟨hv, -⟩ := transmit_ok accepted
    obtain ⟨hv, ha, -, -, addrs, answers, draws, m, e, used, hlen, fixed, written, -, rfl⟩ := transmit_accepts (hq hv) accepted
    exact ⟨hv, hq hv, ha, addrs, _, m, e, used, hlen, fixed, written, List.append_assoc _ _ _, rfl, hv, rfl, rfl⟩
  · obtain ⟨used, stop, answer⟩ := answer
    exact absurd (Option.some.inj answer) (transmit_raise_other raised used stop)

/-! ### The buffers of a packet -/

/-- A packet of one fragment has one buffer: its address with the packet's length. -/
theorem buffersOf_of_single {addrs : List Word} {frags : List Frag} (hlen : addrs.length = frags.length)
    (one : frags.length = 1) : buffersOf addrs frags = [(addrs.headD 0, BitVec.ofNat 16 (totalLen frags))] := by
  obtain ⟨f, rfl⟩ := List.length_eq_one_iff.mp one
  obtain ⟨a, rfl⟩ := List.length_eq_one_iff.mp (hlen.trans one)
  simp [buffersOf, totalLen]

theorem len_le_of_mem {frags : List Frag} (total : (frags.map Frag.len).sum ≤ 65535) {f : Frag} (hf : f ∈ frags) :
    f.len ≤ 65535 :=
  (List.single_le_sum (fun _ _ => Nat.zero_le _) _ (List.mem_map_of_mem hf)).trans total

/-- The buffers as mappings: no length is cut. -/
theorem buffersOf_toNat {addrs : List Word} {frags : List Frag} (total : (frags.map Frag.len).sum ≤ 65535) :
    (buffersOf addrs frags).map (fun b => (b.1, b.2.toNat)) = (addrs.zip frags).map fun p => (p.1, p.2.len) := by
  rw [buffersOf, List.map_map]
  refine List.map_congr_left fun p hp => ?_
  have fits := len_le_of_mem total (List.of_mem_zip hp).2
  simp only [Function.comp_apply, BitVec.toNat_ofNat]
  rw [Nat.mod_eq_of_lt (by omega)]

theorem range_map_getD {α : Type} (l : List α) (d : α) : (List.range l.length).map (l.getD · d) = l := by
  refine List.ext_getElem (by simp) fun i hi _ => ?_
  simp at hi
  simp [hi]

/-- The records of a gathered packet read back as its buffers: the descriptor that was stored after them lies elsewhere. -/
theorem groupWritten_readBack {c : Cfg} {slot : Nat} {es : List (Word × BitVec 16)} {m g : Memory} {desc : Bytes 64}
    (hl : c.legal) (hs : slot < c.n) (apart : regionsDisjoint c) (most : es.length ≤ c.maxf)
    (group : GroupWritten (sgAddr c slot 0) es m g) :
    (List.range es.length).map (entryInMem (storeBytes g (slotAddr c slot) desc.val) (groupAddr c slot).toNat) = es := by
  have fit := records_fit hl most
  have ring := slotAddr_bounds hs
  have area := sgAddr_bounds hs
  refine .trans (List.map_congr_left fun i hi => ?_) (range_map_getD es (0, 0))
  have hi := List.mem_range.mp hi
  have record := div4_lt_nrec hi
  have inGroup := nrec_mul es.length
  rw [groupAddr_toNat hl hs, ← group.entries i (by omega)]
  refine entryInMem_congr fun a low high => readByte_storeBytes_outside g ?_
  rw [desc.property]
  simp only [regionsDisjoint] at apart
  omega

/-- A gathered packet's records lie inside the DMA space. -/
theorem group_inside {c : Cfg} {slot k : Nat} (hl : c.legal) (hs : slot < c.n) (most : k ≤ c.maxf) :
    (groupAddr c slot).toNat + 40 * nrec k ≤ dmaSpace := by
  have fit := records_fit hl most
  have area := sgAddr_bounds hs
  have inside := sgArea_le hl
  rw [groupAddr_toNat hl hs]
  omega

/-! ### The mappings recorded (R173) -/

theorem mappingsOf_packetWritten {s : State} {h : Word} {ol : Offload} {addrs : List Word} {frags : List Frag} {m : Memory}
    {e : PbEntry} {used : Nat} (hl : s.cfg.legal) (hw : s.q.writeIndex < s.cfg.n) (apart : regionsDisjoint s.cfg)
    (most : frags.length ≤ s.cfg.maxf) (total : (frags.map Frag.len).sum ≤ 65535) (hlen : addrs.length = frags.length)
    (written : PacketWritten s h ol addrs frags m e used) :
    mappingsOf m e = (addrs.zip frags).map fun p => (p.1, p.2.len) := by
  rw [← buffersOf_toNat total]
  unfold PacketWritten at written
  obtain ⟨one, -, entry, -⟩ | ⟨-, -, entry, g, group, memory⟩ := written
  · rw [entry, buffersOf_of_single hlen one]
    rfl
  · have count := buffersOf_length hlen
    have readBack := groupWritten_readBack (desc := descriptorOf s.cfg (totalLen frags) ol (BitVec.ofNat 14 frags.length) 1
      (groupAddr s.cfg s.q.writeIndex)) hl hw apart (count.trans_le most) group
    rw [entry, memory, ← readBack, List.map_map, count]
    simp only [mappingsOf, gatherEntry, toNat_ofNat_length hl most]
    rfl

/-- Settles O59. -/
theorem acceptedMappingsRecorded : Obligations.AcceptedMappingsRecorded := by
  intro h frags ol last s t ring apart ht answer
  obtain ⟨-, ⟨hl, ⟨hw, -⟩, -⟩, ⟨-, most, -, total⟩, addrs, more, m, e, used, hlen, fixed, written, trace, -, -, hm, hp⟩ :=
    transmit_of_accepted ring ht answer
  refine ⟨addrs, more, e, hlen, fixed, trace, ?_, handle_of_packetWritten written, ?_⟩
  · rw [pbGet, hp]
    exact sparseGet_put_self _ _ _
  · rw [hm]
    exact mappingsOf_packetWritten hl hw apart most total hlen written

/-! ### The descriptor read by the device (R77, R109, R243) -/

/-- The descriptor of a packet, field by field. -/
def packetDesc (c : Cfg) (total : Nat) (ol : Offload) (gsz : BitVec 14) (dptr : Word) : TxDesc :=
  { dptr := dptr, tlen := BitVec.ofNat 16 total, rsvd := 0, pkind := c.pkind, fsz := c.fsz, gsz := gsz, rsvd3 := 0
    txm := metadataOf ol, exhdr0 := 0, exhdr1 := 0, exhdr2 := 0, exhdr3 := 0 }

theorem descriptorOf_eq (c : Cfg) (total : Nat) (ol : Offload) (gsz : BitVec 14) (gather : BitVec 1) (dptr : Word) :
    descriptorOf c total ol gsz gather dptr = encInstr (wordsOfTxDesc gather (packetDesc c total ol gsz dptr)) := rfl

/-- The metadata of a packet carry its offload request (R214, R105). -/
theorem carriesOffload_metadataOf {rule : OffloadRule} {ol : Offload} (h : offloadAllowed rule ol) :
    carriesOffload (metadataOf ol) ol := by
  obtain ⟨flags, size, count, -⟩ := h
  refine ⟨Nat.mod_eq_of_lt flags, fun segmented => ?_, fun five six => ?_, rfl, rfl⟩
  · have either : (ol.flags.testBit 5 || ol.flags.testBit 6) = true := by simpa using segmented
    simp only [metadataOf, either, if_true, BitVec.toNat_ofNat]
    exact ⟨Nat.mod_eq_of_lt (by omega), Nat.mod_eq_of_lt (by omega)⟩
  · simp [metadataOf, five, six]

/-- A request without reserved flags is one that R114 does not list. -/
theorem packetDesc_produced {rule : OffloadRule} {c : Cfg} {total : Nat} {ol : Offload} {gsz : BitVec 14} {dptr : Word}
    {gather : Bool} (allowed : offloadAllowed rule ol) (unreserved : ol.flags < 128)
    (form : if gather then 2 ≤ gsz.toNat else gsz = 0) : ¬unproducedDesc gather (packetDesc c total ol gsz dptr) := by
  obtain ⟨flags, -, without, -⟩ := carriesOffload_metadataOf allowed
  have bit : ∀ k < 16, (metadataOf ol).olFlags.getLsbD k = ol.flags.testBit k := fun k hk => by
    rw [← BitVec.testBit_toNat, flags]
  rintro (h | h | ⟨rfl, h⟩ | ⟨rfl, h⟩ | h | h | h | ⟨five, six, h⟩ | h | h | h | h)
  · exact h rfl
  · exact h rfl
  · exact h form
  · obtain zero | one := h
    · exact absurd form (by rw [show gsz = 0 from zero]; decide)
    · exact absurd form (by rw [show gsz = 1 from one]; decide)
  · exact absurd (flags ▸ h) (Nat.not_le.mpr unreserved)
  · exact h rfl
  · exact h rfl
  · obtain ⟨size, count⟩ := without ((bit 5 (by decide)).symm.trans five) ((bit 6 (by decide)).symm.trans six)
    exact h.elim (· size) (· count)
  · exact h rfl
  · exact h rfl
  · exact h rfl
  · exact h rfl

/-- Under the spec's default predicate no reserved flag is requested (R213, R104). -/
theorem unreserved_of_rule {rule : OffloadRule} {ol : Offload} (h : rule = .specDefault ∨ ol.flags < 128)
    (allowed : offloadAllowed rule ol) : ol.flags < 128 := by
  obtain rfl | unreserved := h
  · obtain ⟨-, -, -, unreserved, -⟩ := allowed
    exact unreserved
  · exact unreserved

/-- A device step on a state where the descriptor of a packet stands at the fetch index. -/
theorem exec_devConsume_of_descriptorOf {rule : OffloadRule} {v : State} {total : Nat} {ol : Offload} {gsz : BitVec 14}
    {gather : BitVec 1} {dptr : Word} {bufs : List (Word × BitVec 16)}
    (ready : v.dev.avail ≠ 0 ∧ v.q.valid = true ∧ v.dev.synced = true)
    (inside : slotAddr v.cfg v.dev.fetchIndex + 64 ≤ dmaSpace)
    (stored : readBytes v.mem (slotAddr v.cfg v.dev.fetchIndex) 64 = (descriptorOf v.cfg total ol gsz gather dptr).val)
    (allowed : offloadAllowed rule ol) (unreserved : ol.flags < 128)
    (form : if gather == 1 then 2 ≤ gsz.toNat else gsz = 0)
    (records : (gather == 1) = true → dptr.toNat + 40 * nrec gsz.toNat ≤ dmaSpace)
    (buffers : (if gather == 1 then (List.range gsz.toNat).map (entryInMem v.mem dptr.toNat)
      else [(dptr, BitVec.ofNat 16 total)]) = bufs) :
    ∃ u, exec .devConsume v = .next u ∧ u.trace = v.trace ++ [.txPacket v.dev.fetchIndex bufs
      (BitVec.ofNat 16 total) v.cfg.pkind v.cfg.fsz (metadataOf ol)] := by
  obtain ⟨ha, hv, hy⟩ := ready
  have fetched := exec_devConsume_of_fetch (deviceFetch_completes ha hv hy inside stored.symm)
  have meaning := packetDesc_produced (c := v.cfg) (total := total) (dptr := dptr) allowed unreserved form
  rw [exec_decodeDescriptor, descriptorOf_eq, decInstr_encInstr, Decode.isGatherForm_wordsOfTxDesc,
    Decode.txDescOf_wordsOfTxDesc, exec_txi_completes ha hv hy meaning records] at fetched
  rw [← buffers]
  exact ⟨_, fetched, rfl⟩

theorem readBytes_storeDescriptor (g : Memory) (a : Nat) (desc : Bytes 64) :
    readBytes (storeBytes g a desc.val) a 64 = desc.val := by
  have self := readBytes_storeBytes_self g a desc.val
  rwa [desc.property] at self

/-- The device at the slot of an accepted packet emits the packet. -/
theorem exec_devConsume_of_packetWritten {s v : State} {h : Word} {ol : Offload} {addrs : List Word} {frags : List Frag}
    {e : PbEntry} {used : Nat} (hl : s.cfg.legal) (hw : s.q.writeIndex < s.cfg.n) (apart : regionsDisjoint s.cfg)
    (ha : admissible s.params.offloadRule s.cfg frags ol) (unreserved : ol.flags < 128) (hlen : addrs.length = frags.length)
    (written : PacketWritten s h ol addrs frags v.mem e used) (hc : v.cfg = s.cfg)
    (fetches : v.dev.fetchIndex = s.q.writeIndex) (ready : v.dev.avail ≠ 0 ∧ v.q.valid = true ∧ v.dev.synced = true) :
    ∃ u, exec .devConsume v = .next u ∧ u.trace = v.trace ++ [.txPacket s.q.writeIndex (buffersOf addrs frags)
      (BitVec.ofNat 16 (totalLen frags)) s.cfg.pkind s.cfg.fsz (metadataOf ol)] := by
  obtain ⟨-, most, allowed, -⟩ := ha
  have inside := slotAddr_le hl hw
  unfold PacketWritten at written
  rw [← fetches] at written hw inside ⊢
  rw [← hc] at written hl hw apart most inside ⊢
  obtain ⟨one, -, -, memory⟩ | ⟨several, -, -, g, group, memory⟩ := written
  · refine exec_devConsume_of_descriptorOf (gather := 0) (gsz := 0) (dptr := addrs.headD 0) ready inside ?_ allowed unreserved
      rfl (fun gathered => absurd gathered (by decide)) (buffersOf_of_single hlen one).symm
    rw [memory, readBytes_storeDescriptor]
  · have count := toNat_ofNat_length hl most
    have buffers := groupWritten_readBack (desc := descriptorOf v.cfg (totalLen frags) ol (BitVec.ofNat 14 frags.length) 1
      (groupAddr v.cfg v.dev.fetchIndex)) hl hw apart ((buffersOf_length hlen).trans_le most) group
    have records := group_inside hl hw most
    rw [buffersOf_length hlen, ← memory] at buffers
    rw [← count] at buffers records several
    refine exec_devConsume_of_descriptorOf (gather := 1) (gsz := BitVec.ofNat 14 frags.length)
      (dptr := groupAddr v.cfg v.dev.fetchIndex) ready inside ?_ allowed unreserved several (fun _ => records) buffers
    rw [memory, readBytes_storeDescriptor]

/-- Settles O52. -/
theorem deviceSeesAcceptedPacket : Obligations.DeviceSeesAcceptedPacket := by
  intro h frags ol last s t ring apart rule ht answer
  obtain ⟨-, ⟨hl, ⟨hw, -⟩, -⟩, ha, addrs, more, m, e, used, hlen, fixed, written, trace, hc, hv, rfl, -⟩ :=
    transmit_of_accepted ring ht answer
  obtain ⟨-, -, allowed, -⟩ := id ha
  obtain ⟨u, consumes, packet⟩ := exec_devConsume_of_packetWritten
    (v := t.withDev { t.dev with fetchIndex := s.q.writeIndex, avail := 1, synced := true }) hl hw apart ha
    (unreserved_of_rule rule allowed) hlen written hc rfl ⟨Nat.one_ne_zero, hv, rfl⟩
  exact ⟨addrs, more, metadataOf ol, u, hlen, fixed, trace, carriesOffload_metadataOf allowed, consumes, packet⟩

end Sys2Proof.Machine
